-- ==== Sys2Proof/Word.lean ====
section
/-!
DEFINITION. The words of the go-bit bit-stream core: every value is an unsigned integer of a stated width, bit 0 the
least significant (R9, R10, R11; the widths of unit ids and error codes are the spec's decisions D5 and D7).
-/

namespace Sys2Proof

/-- A byte, and the width of `pending` (R9 `BYTE_W`). -/
abbrev Byte := BitVec 8

/-- A multi-bit value (R9 `VALUE_W`), and the transfer length of READFROM and WRITETO (`XFER_W`). -/
abbrev U64 := BitVec 64

/-- The `count` register of a reader or a writer (R9 `COUNT_W`). -/
abbrev Count := BitVec 4

/-- The document's `Bit`, "a boolean value": `Zero` is `false`, `One` is `true` (R11, R21). -/
abbrev Bit := Bool

/-- A unit identifier (R9 `UNIT_ID_W`). -/
abbrev UnitId := BitVec 16

/-- The opaque code of an underlying I/O error, which the core only passes on (R9 `ECODE_W`, R53). -/
abbrev ECode := BitVec 16

/-- The name of an external byte source or sink, the binding of a reader or a writer (R20). DESIGN CHOICE (log 1):
16 bits, so that every unit of a table can have a stream of its own. -/
abbrev StreamName := BitVec 16

/-- A command descriptor (R81). -/
abbrev Desc := BitVec 96

/-- A bit as the value a command returns: `zext_64(bit)` (R10, R110). -/
def bitValue (b : Bit) : U64 := (BitVec.ofBool b).setWidth 64

/-- A byte as the value a command returns: `zext_64(b)` (R10, R113). -/
def byteValue (b : Byte) : U64 := b.setWidth 64

end Sys2Proof
end

