-- ==== Sys2Proof/Syntax.lean ====
section
/-!
DEFINITION. The twelve commands of the core as syntax, one constructor per row of the opcode table (R83), with the
operands each takes from its descriptor (R82); their mnemonics, their text form (R89) and the unit kinds (R20).
-/

namespace Sys2Proof

/-- The four kinds of unit (R20). -/
inductive UnitKind where
  | reader
  | writer
  | readWriter
  | buffer
  deriving DecidableEq, Repr

/-- A decoded command. Operand order is the document's: value then bit count, peer then bit count (R89). The unit a
command is issued to is no part of its descriptor (R80); it stands in the machine's state. -/
inductive Instr where
  | readbit
  | readbyte
  | readbits (nb : Byte)
  | rreset
  | writebit (bit : Bit)
  | writebyte (byt : Byte)
  | writebits (u : U64) (nb : Byte)
  | flush
  | readfrom (peer : UnitId) (nbits : U64)
  | writeto (peer : UnitId) (nbits : U64)
  | copy (peer : UnitId)
  | breset
  deriving DecidableEq, Repr

/-- The mnemonic of a command (R83). -/
def Instr.mnemonic : Instr → String
  | .readbit => "READBIT"
  | .readbyte => "READBYTE"
  | .readbits _ => "READBITS"
  | .rreset => "RRESET"
  | .writebit _ => "WRITEBIT"
  | .writebyte _ => "WRITEBYTE"
  | .writebits _ _ => "WRITEBITS"
  | .flush => "FLUSH"
  | .readfrom _ _ => "READFROM"
  | .writeto _ _ => "WRITETO"
  | .copy _ => "COPY"
  | .breset => "BRESET"

/-- The operands of a command in the text form, numbers in decimal, a peer by its unit id (R89). -/
def Instr.operandText : Instr → String
  | .readbit => ""
  | .readbyte => ""
  | .readbits nb => " " ++ toString nb.toNat
  | .rreset => ""
  | .writebit bit => if bit then " 1" else " 0"
  | .writebyte byt => " " ++ toString byt.toNat
  | .writebits u nb => " " ++ toString u.toNat ++ ", " ++ toString nb.toNat
  | .flush => ""
  | .readfrom peer nbits => " " ++ toString peer.toNat ++ ", " ++ toString nbits.toNat
  | .writeto peer nbits => " " ++ toString peer.toNat ++ ", " ++ toString nbits.toNat
  | .copy peer => " " ++ toString peer.toNat
  | .breset => ""

/-- The text form of a command issued to the unit of name `unit` (R89). -/
def Instr.text (unit : String) (i : Instr) : String := unit ++ "." ++ i.mnemonic ++ i.operandText

/-- The pseudo-command `RESET` by the kind of the unit; on a WRITER it is an error of the text form (R90). -/
def resetPseudo : UnitKind → Option Instr
  | .reader => some .rreset
  | .readWriter => some .rreset
  | .buffer => some .breset
  | .writer => none

end Sys2Proof
end

