-- ==== Sys2Proof/Config.lean ====
section
/-!
DEFINITION. What the environment and the platform fix: the answers of a byte source and a byte sink (R53, R56), the
open oracles that stand for an external stream of which nothing is planned (R58, D26), and the table of units that
`State.reset` uses (R9, D6).
-/

namespace Sys2Proof

/-- The answer of a byte source to one pull (R53, conflict C1). -/
inductive SrcResp where
  /-- Exactly one byte, no signal. -/
  | byte (b : Byte)
  /-- Exactly one byte and the end-of-input signal with it. -/
  | byteEof (b : Byte)
  /-- Zero bytes, with the end-of-input signal. -/
  | eof
  /-- Zero bytes, with an error other than end-of-input. -/
  | err (e : ECode)
  deriving DecidableEq, Repr, Inhabited

/-- The answer of a byte sink to one push (R56). -/
inductive SinkResp where
  /-- Exactly one byte written, no error. -/
  | ack
  /-- Fewer than one byte written, no explicit error. -/
  | short
  /-- An explicit error, whatever the number of bytes written. -/
  | nak (e : ECode)
  deriving DecidableEq, Repr, Inhabited

namespace Config

/-- The answer of the external source `k`, where the state plans none, after the pulls it has answered so far (oldest
first). OPEN (R58, D26): no law is assumed, so it has no body and a statement holds for every such oracle (log 2). -/
opaque sourceAnswer (k : StreamName) (pulls : List SrcResp) : SrcResp

/-- The answer of the external sink `k`, where the state plans none, to a push of `b` after the pushes made so far
(oldest first, each with its answer). OPEN (R58, D26), as `sourceAnswer` (log 2). -/
opaque sinkAnswer (k : StreamName) (pushes : List (Byte × SinkResp)) (b : Byte) : SinkResp

end Config

/-- A unit of the `UNITS` table: its kind, and the source and the sink it is bound to (R9, R20). -/
inductive UnitSpec where
  | reader (src : StreamName)
  | writer (snk : StreamName)
  | readWriter (src snk : StreamName)
  | buffer
  deriving DecidableEq, Repr

namespace Config

/-- The `UNITS` table of `State.reset`. OPEN in the spec (D6); DESIGN CHOICE (log 1): the table every vector of
95_test_vectors.md section 0 uses, `r0`, `w0`, `b0`, `b1`, `rw0`, each stream bound to one unit. -/
def units : List (UnitId × UnitSpec) :=
  [(0x0001#16, .reader 0x0001#16),
   (0x0002#16, .writer 0x0002#16),
   (0x0003#16, .buffer),
   (0x0004#16, .buffer),
   (0x0005#16, .readWriter 0x0005#16 0x0005#16)]

end Config

end Sys2Proof
end

