-- ==== Sys2Proof/Machine/Table.lean ====
section
/-!
DEFINITION. Finite tables keyed by 16-bit names: a list of pairs, keys strictly rising. The machine holds three: its
units (R9), its external sources and its external sinks (R50).
-/

namespace Sys2Proof.Machine

/-- A finite table, its keys strictly rising in canonical form. -/
abbrev Table (α : Type) := List (BitVec 16 × α)

/-- The entry of the key `k`, if the table lists one. -/
def Table.find {α : Type} (k : BitVec 16) : Table α → Option α
  | [] => none
  | (k', v) :: t => if k = k' then some v else Table.find k t

/-- The table with `v` as the entry of `k`, whether or not it listed one. -/
def Table.put {α : Type} (k : BitVec 16) (v : α) : Table α → Table α
  | [] => [(k, v)]
  | (k', v') :: t =>
    if k = k' then (k, v) :: t
    else if k < k' then (k, v) :: (k', v') :: t
    else (k', v') :: Table.put k v t

/-- The table with the entry of `k`, if it lists one, changed by `f`. -/
def Table.modify {α : Type} (k : BitVec 16) (f : α → α) : Table α → Table α
  | [] => []
  | (k', v) :: t => if k = k' then (k', f v) :: t else (k', v) :: Table.modify k f t

/-- The table without any entry of `k`. -/
def Table.erase {α : Type} (k : BitVec 16) : Table α → Table α
  | [] => []
  | (k', v') :: t => if k = k' then Table.erase k t else (k', v') :: Table.erase k t

/-- Every key of the table is above `k`. -/
def Table.above {α : Type} (k : BitVec 16) (t : Table α) : Bool := t.all fun e => k < e.1

/-- The canonical form: keys strictly rising. -/
def Table.rising {α : Type} : Table α → Bool
  | [] => true
  | (k, _) :: t => Table.above k t && Table.rising t

/-- The entry of `k` where an unlisted key stands for `dflt`. -/
def Table.read {α : Type} (dflt : α) (k : BitVec 16) (t : Table α) : α := (t.find k).getD dflt

/-- Writing where an unlisted key stands for `dflt`: writing `dflt` removes the entry. -/
def Table.write {α : Type} [DecidableEq α] (dflt : α) (k : BitVec 16) (v : α) (t : Table α) : Table α :=
  if v = dflt then t.erase k else t.put k v

/-- No entry equals what an unlisted key stands for. -/
def Table.trimmed {α : Type} [DecidableEq α] (dflt : α) (t : Table α) : Bool := t.all fun e => e.2 ≠ dflt

end Sys2Proof.Machine
end

