-- ==== Sys2Proof/Machine/State.lean ====
section
/-!
DEFINITION. The whole state of the core and its surroundings as plain data: the registers and the store of every unit
(R20 to R32), the external sources and sinks with their histories (R50, R58), the command port (R80), the results given
(R88, R272) and the commands the host has still to issue (R7); the ways a run of a command ends; and the state right
after reset (R40 to R44, R250).
-/

namespace Sys2Proof.Machine

/-- The state of a BitReader (R22, R23). -/
structure Reader where
  pending : Byte
  count : Count
  deriving DecidableEq, Repr

/-- The state of a BitWriter (R26, R27). -/
structure Writer where
  pending : Byte
  count : Count
  deriving DecidableEq, Repr

/-- One unit: its kind, its bindings, which no command changes, and its state (R20). A BUFFER's reader and writer are
bound to its own store, oldest byte first (R30). -/
inductive BitUnit where
  | reader (src : StreamName) (r : Reader)
  | writer (snk : StreamName) (w : Writer)
  | readWriter (src : StreamName) (r : Reader) (snk : StreamName) (w : Writer)
  | buffer (store : List Byte) (r : Reader) (w : Writer)
  deriving DecidableEq, Repr

/-- What an external stream answers once its planned answers are used up. -/
inductive Tail (α : Type) where
  /-- The same answer for ever (R58: a used-up `ListSource` answers `Eof` for ever, a `ListSink` answers `Ack`). -/
  | always (a : α)
  /-- Whatever the open oracle of `Config` answers (R58, D26). -/
  | free
  /-- Nothing, ever: the transaction is never answered (U10). -/
  | never
  deriving DecidableEq, Repr

/-- An external byte source (R52, R53, R58): the answers planned, what follows them, and the answers already given,
oldest first. -/
structure Source where
  planned : List SrcResp
  after : Tail SrcResp
  pulls : List SrcResp
  deriving DecidableEq, Repr

/-- An external byte sink (R55, R56, R58): the answers planned, what follows them, and the bytes already offered, oldest
first, each with the answer it got. -/
structure Sink where
  planned : List SinkResp
  after : Tail SinkResp
  pushes : List (Byte × SinkResp)
  deriving DecidableEq, Repr

/-- A source of which the state says nothing: no pull made yet, every answer open (log 2). -/
def Source.open : Source := ⟨[], .free, []⟩

/-- A sink of which the state says nothing: no push made yet, every answer open (log 2). -/
def Sink.open : Sink := ⟨[], .free, []⟩

/-- A command as the host issues it: the unit and the descriptor (R80). -/
structure Command where
  unit : UnitId
  desc : Desc
  deriving DecidableEq, Repr

/-- The causes of a failed command (R11, R220). -/
inductive Cause where
  | eof
  | ioErr
  | shortWrite
  | illegal
  deriving DecidableEq, Repr

/-- The contexts of a failure (R11, R224). -/
inductive Ctx where
  | none
  | readFromSource
  | writeToBuffer
  | readFromBuffer
  | writeToSink
  deriving DecidableEq, Repr

/-- What a failure records, and nothing else (R223). -/
structure Failure where
  cause : Cause
  ctx : Ctx
  ecode : ECode
  deriving DecidableEq, Repr

/-- The result of a command (R11, R88). A failed command returns no data (R229). -/
inductive Result where
  | ok (data : U64)
  | fail (e : Failure)
  deriving DecidableEq, Repr

/-- The state of the machine. -/
structure State where
  /-- The `UNITS` table with the registers and the store of each unit (R9, R20). -/
  units : Table BitUnit
  /-- The external sources; one that is not listed is `Source.open`. -/
  sources : Table Source
  /-- The external sinks; one that is not listed is `Sink.open`. -/
  sinks : Table Sink
  /-- The command port's `unit` lines: the unit the command in progress was issued to (R80). -/
  unit : UnitId
  /-- The results the host has received, oldest first (R80, R272). -/
  results : List Result
  /-- The commands the host has still to issue, the next one first (R7). -/
  commands : List Command
  deriving DecidableEq, Repr

/-- Why the machine stops with a fault: no failure of a command is one of these, since a failed command answers a result
and the machine goes on (R228). -/
inductive Fault where
  /-- Raised by a pull whose source never answers: the command never returns (U10 `stuck`). Safe. -/
  | sourceNeverAnswers
  /-- Raised by a push whose sink never answers: the command never returns (U10 `stuck`). Safe. -/
  | sinkNeverAnswers
  /-- Raised by READBIT and READBYTE, and the commands made of them, on a reader whose `count` is 9 to 15: no rule gives
  that value a meaning (R23, V9). Safe, and unreachable from reset. -/
  | readerCountReserved
  /-- Raised by WRITEBIT and WRITEBYTE, and the commands made of them, on a writer whose `count` is 0 or 9 to 15: no rule
  gives that value a meaning (R27, R28, V9, C3). Safe, and unreachable from reset. -/
  | writerCountReserved
  deriving DecidableEq, Repr

/-- Why the model gives an instruction no meaning. -/
inductive Refusal where
  /-- Raised by an arm of `exec` whose instruction has no meaning yet; no arm raises it. Safe. -/
  | notModelled (mnemonic : String)
  deriving DecidableEq, Repr

/-- How a step of a command ends (R12): with data, with a raised failure, the state written before it staying written,
or never. -/
inductive Act (α : Type) where
  | done (a : α) (s : State)
  | fail (e : Failure) (s : State)
  | stuck (f : Fault)
  deriving DecidableEq, Repr

/-- A BitReader after creation and after its `Reset` (R40). -/
def Reader.fresh : Reader := ⟨0x00#8, 0#4⟩

/-- A BitWriter after creation (R41). -/
def Writer.fresh : Writer := ⟨0x00#8, 8#4⟩

/-- A unit of the table after creation (R40 to R43, R251). -/
def freshUnit : UnitSpec → BitUnit
  | .reader src => .reader src Reader.fresh
  | .writer snk => .writer snk Writer.fresh
  | .readWriter src snk => .readWriter src Reader.fresh snk Writer.fresh
  | .buffer => .buffer [] Reader.fresh Writer.fresh

/-- The units of a `UNITS` table after creation, in canonical form; of two rows with one id the first counts (R9, R251). -/
def freshUnits : List (UnitId × UnitSpec) → Table BitUnit
  | [] => []
  | (u, sp) :: rest => Table.put u (freshUnit sp) (freshUnits rest)

/-- The machine right after reset over the `UNITS` table `table`: every unit fresh, no command in progress, no result
pending (R44, R250, R251). The environment's part of the state, the sources and the sinks, is open (log 2); the unit lines
hold 0 (log 3); the host has issued nothing (log 4). -/
def State.powerOn (table : List (UnitId × UnitSpec)) : State :=
  { units := freshUnits table, sources := [], sinks := [], unit := 0#16, results := [], commands := [] }

/-- The machine right after reset, over the table of `Config.units` (log 1). -/
def State.reset : State := State.powerOn Config.units

end Sys2Proof.Machine
end

