-- ==== Sys2Proof/Machine/Ops.lean ====
section
/-!
DEFINITION. The named operations on the state: the registers and the store of a unit, the two ports (R52 to R61), the
results and how a command ends (R12, R88, R228), the command port (R80) and the power-on reset (R44, R250).
-/

namespace Sys2Proof.Machine

/-! ### One unit -/

/-- The kind of a unit (R20). -/
def BitUnit.kind : BitUnit → UnitKind
  | .reader _ _ => .reader
  | .writer _ _ => .writer
  | .readWriter _ _ _ _ => .readWriter
  | .buffer _ _ _ => .buffer

/-- The row of the `UNITS` table a unit stands for: its kind and bindings (R9, R20). -/
def BitUnit.spec : BitUnit → UnitSpec
  | .reader src _ => .reader src
  | .writer snk _ => .writer snk
  | .readWriter src _ snk _ => .readWriter src snk
  | .buffer _ _ _ => .buffer

/-- The registers `R` of a unit that has a reader (R20). -/
def BitUnit.reader? : BitUnit → Option Reader
  | .reader _ r => some r
  | .writer _ _ => none
  | .readWriter _ r _ _ => some r
  | .buffer _ r _ => some r

/-- The registers `W` of a unit that has a writer (R20). -/
def BitUnit.writer? : BitUnit → Option Writer
  | .reader _ _ => none
  | .writer _ w => some w
  | .readWriter _ _ _ w => some w
  | .buffer _ _ w => some w

/-- The store of a BUFFER (R30). -/
def BitUnit.store? : BitUnit → Option (List Byte)
  | .reader _ _ => none
  | .writer _ _ => none
  | .readWriter _ _ _ _ => none
  | .buffer store _ _ => some store

/-- Writing the registers `R`; nothing happens in a unit without a reader. -/
def BitUnit.setReader (r : Reader) : BitUnit → BitUnit
  | .reader src _ => .reader src r
  | .writer snk w => .writer snk w
  | .readWriter src _ snk w => .readWriter src r snk w
  | .buffer store _ w => .buffer store r w

/-- Writing the registers `W`; nothing happens in a unit without a writer. -/
def BitUnit.setWriter (w : Writer) : BitUnit → BitUnit
  | .reader src r => .reader src r
  | .writer snk _ => .writer snk w
  | .readWriter src r snk _ => .readWriter src r snk w
  | .buffer store r _ => .buffer store r w

/-- Writing the store; nothing happens in a unit that is no BUFFER. -/
def BitUnit.setStore (store : List Byte) : BitUnit → BitUnit
  | .reader src r => .reader src r
  | .writer snk w => .writer snk w
  | .readWriter src r snk w => .readWriter src r snk w
  | .buffer _ r w => .buffer store r w

/-! ### The units of a state -/

/-- The unit of id `u`, if the `UNITS` table names one (R9, R85). -/
def State.unitAt (s : State) (u : UnitId) : Option BitUnit := Table.find u s.units

/-- The state with the unit `u` changed by `f`; nothing happens where the table names no unit `u`. -/
def State.updateUnit (s : State) (u : UnitId) (f : BitUnit → BitUnit) : State :=
  { s with units := Table.modify u f s.units }

/-- `U.R` (R12). -/
def State.readerOf (s : State) (u : UnitId) : Option Reader := (s.unitAt u).bind BitUnit.reader?

/-- `U.W` (R12). -/
def State.writerOf (s : State) (u : UnitId) : Option Writer := (s.unitAt u).bind BitUnit.writer?

/-- `U.store` (R12). -/
def State.storeOf (s : State) (u : UnitId) : Option (List Byte) := (s.unitAt u).bind BitUnit.store?

/-- `U.R <- r` (R12). -/
def State.setReader (s : State) (u : UnitId) (r : Reader) : State := s.updateUnit u (BitUnit.setReader r)

/-- `U.W <- w` (R12). -/
def State.setWriter (s : State) (u : UnitId) (w : Writer) : State := s.updateUnit u (BitUnit.setWriter w)

/-- `U.store <- store` (R12). -/
def State.setStore (s : State) (u : UnitId) (store : List Byte) : State := s.updateUnit u (BitUnit.setStore store)

/-! ### The byte source port (R52 to R54, R58 to R60) -/

/-- The answer of the source of name `k` to its next pull; `none` where it never answers (R58, U10). -/
def Source.next (k : StreamName) (x : Source) : Option SrcResp :=
  match x.planned with
  | a :: _ => some a
  | [] =>
    match x.after with
    | .always a => some a
    | .free => some (Config.sourceAnswer k x.pulls)
    | .never => none

/-- The source once it has answered `a`. -/
def Source.answered (a : SrcResp) (x : Source) : Source :=
  { x with planned := x.planned.tail, pulls := x.pulls ++ [a] }

/-- The external source of name `k`. -/
def State.source (s : State) (k : StreamName) : Source := Table.read Source.open k s.sources

/-- The state with `x` as the external source of name `k`. -/
def State.setSource (s : State) (k : StreamName) (x : Source) : State :=
  { s with sources := Table.write Source.open k x s.sources }

/-- What the source of the unit `u` answers to the next pull: an external source for a READER or a READWRITER, the store
for a BUFFER, which answers `Eof` when it is empty and its oldest byte otherwise (R52, R60); `none` where no answer comes,
which for a unit without a reader is never asked. -/
def State.sourceAnswer (s : State) (u : UnitId) : Option SrcResp :=
  match s.unitAt u with
  | none => none
  | some (.reader k _) => (s.source k).next k
  | some (.writer _ _) => none
  | some (.readWriter k _ _ _) => (s.source k).next k
  | some (.buffer [] _ _) => some .eof
  | some (.buffer (b :: _) _ _) => some (.byte b)

/-- The state once the source of the unit `u` has answered `a` to a pull: an external source has moved on by one answer, a
store has lost its oldest byte (R59, R60). -/
def State.afterPull (s : State) (u : UnitId) (a : SrcResp) : State :=
  match s.unitAt u with
  | none => s
  | some (.reader k _) => s.setSource k ((s.source k).answered a)
  | some (.writer _ _) => s
  | some (.readWriter k _ _ _) => s.setSource k ((s.source k).answered a)
  | some (.buffer store _ _) => s.setStore u store.tail

/-! ### The byte sink port (R55 to R58, R61) -/

/-- The answer of the sink of name `k` to a push of `b`; `none` where it never answers (R58, U10). -/
def Sink.next (k : StreamName) (b : Byte) (x : Sink) : Option SinkResp :=
  match x.planned with
  | a :: _ => some a
  | [] =>
    match x.after with
    | .always a => some a
    | .free => some (Config.sinkAnswer k x.pushes b)
    | .never => none

/-- The sink once it has answered `a` to a push of `b`. -/
def Sink.answered (b : Byte) (a : SinkResp) (x : Sink) : Sink :=
  { x with planned := x.planned.tail, pushes := x.pushes ++ [(b, a)] }

/-- The bytes a sink has acknowledged, oldest first: what a run shows of it (R272). -/
def Sink.acknowledged (x : Sink) : List Byte :=
  (x.pushes.filter fun p => p.2 = .ack).map Prod.fst

/-- The external sink of name `k`. -/
def State.sink (s : State) (k : StreamName) : Sink := Table.read Sink.open k s.sinks

/-- The state with `x` as the external sink of name `k`. -/
def State.setSink (s : State) (k : StreamName) (x : Sink) : State :=
  { s with sinks := Table.write Sink.open k x s.sinks }

/-- What the sink of the unit `u` answers to a push of `b`: an external sink for a WRITER or a READWRITER; the store of a
BUFFER, which always acknowledges (R55, R61); `none` where no answer comes, which for a unit without a writer is never
asked. -/
def State.sinkAnswer (s : State) (u : UnitId) (b : Byte) : Option SinkResp :=
  match s.unitAt u with
  | none => none
  | some (.reader _ _) => none
  | some (.writer k _) => (s.sink k).next k b
  | some (.readWriter _ _ k _) => (s.sink k).next k b
  | some (.buffer _ _ _) => some .ack

/-- The state once the sink of the unit `u` has answered `a` to a push of `b`: an external sink has moved on by one push, a
store has `b` as its newest byte (R59, R61). -/
def State.afterPush (s : State) (u : UnitId) (b : Byte) (a : SinkResp) : State :=
  match s.unitAt u with
  | none => s
  | some (.reader _ _) => s
  | some (.writer k _) => s.setSink k ((s.sink k).answered b a)
  | some (.readWriter _ _ k _) => s.setSink k ((s.sink k).answered b a)
  | some (.buffer store _ _) => s.setStore u (store ++ [b])

/-! ### How the steps of a command follow each other (R12) -/

/-- Run `x`, then `f` on its data; a raised failure ends both, the state written before it staying written. -/
def Act.bind {α β : Type} (x : Act α) (f : α → State → Act β) : Act β :=
  match x with
  | .done a s => f a s
  | .fail e s => .fail e s
  | .stuck r => .stuck r

/-- A raised failure is raised again with the context `c`, its cause and code kept (R187, R224). -/
def Act.inContext {α : Type} (c : Ctx) (x : Act α) : Act α :=
  match x with
  | .done a s => .done a s
  | .fail e s => .fail { e with ctx := c } s
  | .stuck r => .stuck r

/-- `Fail(EOF, NONE, 0)`. -/
def Failure.eof : Failure := ⟨.eof, .none, 0#16⟩

/-- `Fail(IOERR, NONE, e)` (R221). -/
def Failure.io (e : ECode) : Failure := ⟨.ioErr, .none, e⟩

/-- `Fail(SHORTWRITE, NONE, 0)` (R221). -/
def Failure.short : Failure := ⟨.shortWrite, .none, 0#16⟩

/-- `Fail(ILLEGAL, NONE, 0)` (R85). -/
def Failure.illegal : Failure := ⟨.illegal, .none, 0#16⟩

/-- `SrcPull` on the source of the unit `u`: one transaction (R52). -/
def srcPull (u : UnitId) (s : State) : Act SrcResp :=
  match s.sourceAnswer u with
  | none => .stuck .sourceNeverAnswers
  | some a => .done a (s.afterPull u a)

/-- `SinkPush` of `b` to the sink of the unit `u`: one transaction (R55). -/
def sinkPush (u : UnitId) (b : Byte) (s : State) : Act SinkResp :=
  match s.sinkAnswer u b with
  | none => .stuck .sinkNeverAnswers
  | some a => .done a (s.afterPush u b a)

/-- The helper `Push` of the writer commands (41_bitwriter.md): one byte to the writer's sink, a push that is not
acknowledged raising its failure (R56, R221). -/
def push (u : UnitId) (b : Byte) (s : State) : Act PUnit :=
  (sinkPush u b s).bind fun a s' =>
    match a with
    | .ack => .done ⟨⟩ s'
    | .short => .fail Failure.short s'
    | .nak e => .fail (Failure.io e) s'

/-! ### Results (R80, R88) and failures (R228) -/

/-- The block answers the command in progress with the result `r` (R80). -/
def State.answer (s : State) (r : Result) : State := { s with results := s.results ++ [r] }

/-- "Trap entry" of this hardware, the one way a command fails: the result goes to the host and the unit is ready for the
next command; nothing is saved, no mode changes, control goes nowhere (R228). There is no return from it (R230). -/
def State.raise (s : State) (e : Failure) : State := s.answer (.fail e)

/-- The end of a command: `Ok(data)`, a failure, or never (R12). -/
def conclude (x : Act U64) : Host.Outcome State Fault Refusal :=
  match x with
  | .done v s => .next (s.answer (.ok v))
  | .fail e s => .next (s.raise e)
  | .stuck r => .fault r

/-- The end of a command that returns nothing: `Ok(0)` on success (R11). -/
def concludeVoid (x : Act PUnit) : Host.Outcome State Fault Refusal :=
  conclude (x.bind fun _ s => .done 0 s)

/-! ### The command port and the reset -/

/-- The host issues its next command: its unit stands on the `unit` lines, its descriptor is answered (R80); `none` where
the host has no command to issue. -/
def State.fetch (s : State) : Option (Desc × State) :=
  match s.commands with
  | [] => none
  | c :: rest => some (c.desc, { s with unit := c.unit, commands := rest })

/-- The power-on reset of a unit: its bindings stay, its state is that of a new unit (R44, R250). -/
def BitUnit.reset (x : BitUnit) : BitUnit := freshUnit x.spec

/-- The power-on reset of the block: every unit reset, no command in progress, no result pending; the external sources and
sinks and the host's commands are not the block's and stay (R44, R250). -/
def State.powerOnReset (s : State) : State :=
  { s with units := s.units.map fun e => (e.1, e.2.reset), unit := 0#16, results := [] }

end Sys2Proof.Machine
end

