-- ==== Sys2Proof/WellFormed.lean ====
section
/-!
DEFINITION. What a command must satisfy by itself, whatever the unit it is issued to: `nbits` of READBITS and WRITEBITS
is 0 to 64 (R82, R86). Which unit kinds accept it and which peers are legal depends on the state (R84, R87) and is
checked there.
-/

namespace Sys2Proof

/-- `NBITS_MAX` (R9): the largest `nbits` of READBITS and WRITEBITS. -/
def nbitsMax : Nat := 64

/-- A bit count of READBITS or WRITEBITS is in range (R86). -/
def countInRange (nb : Byte) : Bool := nb.toNat ≤ nbitsMax

/-- A command whose fields hold no reserved value (R82, R86). -/
def WellFormed : Instr → Bool
  | .readbits nb => countInRange nb
  | .writebits _ nb => countInRange nb
  | .readbit => true
  | .readbyte => true
  | .rreset => true
  | .writebit _ => true
  | .writebyte _ => true
  | .flush => true
  | .readfrom _ _ => true
  | .writeto _ _ => true
  | .copy _ => true
  | .breset => true

end Sys2Proof
end

