-- ==== Sys2Proof/Machine/Operands.lean ====
section
/-!
DEFINITION. The operands of a command against the state: which unit kind accepts it (R84), which peers are legal (R87),
and the one check that makes a command illegal (R85); and the raw codes of the two ports (R53, R56).
-/

namespace Sys2Proof.Machine

/-- The kind has a reader: it accepts READBIT, READBYTE and READBITS (R84, R172 `BitReadable`). -/
def readable : UnitKind → Bool
  | .reader => true
  | .writer => false
  | .readWriter => true
  | .buffer => true

/-- The kind has a writer: it accepts WRITEBIT, WRITEBYTE, WRITEBITS and FLUSH (R84, R172 `BitWritable`). -/
def writable : UnitKind → Bool
  | .reader => false
  | .writer => true
  | .readWriter => true
  | .buffer => true

/-- The kind accepts the buffer commands (R84). -/
def isBuffer : UnitKind → Bool
  | .reader => false
  | .writer => false
  | .readWriter => false
  | .buffer => true

/-- The kind accepts RRESET: a BUFFER does not (R84, D19). -/
def resettableReader : UnitKind → Bool
  | .reader => true
  | .writer => false
  | .readWriter => true
  | .buffer => false

/-- Which unit kind accepts which command (R83, R84). -/
def accepts (k : UnitKind) : Instr → Bool
  | .readbit => readable k
  | .readbyte => readable k
  | .readbits _ => readable k
  | .rreset => resettableReader k
  | .writebit _ => writable k
  | .writebyte _ => writable k
  | .writebits _ _ => writable k
  | .flush => writable k
  | .readfrom _ _ => isBuffer k
  | .writeto _ _ => isBuffer k
  | .copy _ => isBuffer k
  | .breset => isBuffer k

/-- The peer operand of a command and what it asks of the peer's kind (R87). -/
def peerDemand : Instr → Option (UnitId × (UnitKind → Bool))
  | .readbit => none
  | .readbyte => none
  | .readbits _ => none
  | .rreset => none
  | .writebit _ => none
  | .writebyte _ => none
  | .writebits _ _ => none
  | .flush => none
  | .readfrom p _ => some (p, readable)
  | .writeto p _ => some (p, writable)
  | .copy p => some (p, isBuffer)
  | .breset => none

/-- The kind of the unit `u`, if the table names it. -/
def State.kindOf (s : State) (u : UnitId) : Option UnitKind := (s.unitAt u).map BitUnit.kind

/-- The peer exists, is not the unit itself and is of a kind the command can use; a command without a peer asks nothing
(R87). -/
def State.peerLegal (s : State) (i : Instr) : Bool :=
  match peerDemand i with
  | none => true
  | some (p, demand) =>
    match s.kindOf p with
    | none => false
    | some k => p ≠ s.unit && demand k

/-- The reasons that make a command illegal (R85). -/
inductive IllegalReason where
  | noSuchUnit
  | reservedOpcode
  | kindDoesNotAccept
  | reservedCount
  | illegalPeer
  deriving DecidableEq, Repr

/-- Why the command `i`, issued to the unit on the `unit` lines, is illegal: the first reason in R85's order, (2), the
reserved opcode, being the decoder's; `none` for a legal command. -/
def State.illegal? (s : State) (i : Instr) : Option IllegalReason :=
  match s.kindOf s.unit with
  | none => some .noSuchUnit
  | some k =>
    if accepts k i = false then some .kindDoesNotAccept
    else if WellFormed i = false then some .reservedCount
    else if s.peerLegal i = false then some .illegalPeer
    else none

/-- A command is performed where it is legal; an illegal one changes no unit, touches no port and answers
`Fail(ILLEGAL, NONE, 0)` (R85, R227). -/
def State.ifLegal (s : State) (i : Instr) (run : Host.Outcome State Fault Refusal) : Host.Outcome State Fault Refusal :=
  match s.illegal? i with
  | some _ => .next (s.raise Failure.illegal)
  | none => run

/-! ### Raw port codes -/

/-- A source's answer from the lines `src_status`, `src_data`, `src_ecode` (R53). -/
def srcRespOfPort (status : BitVec 2) (data : Byte) (ecode : ECode) : SrcResp :=
  if status = 0b00#2 then .byte data
  else if status = 0b01#2 then .byteEof data
  else if status = 0b10#2 then .eof
  else .err ecode

/-- The lines `src_status`, `src_data`, `src_ecode` of a source's answer, an ignored one zero (R53). -/
def portOfSrcResp : SrcResp → BitVec 2 × Byte × ECode
  | .byte b => (0b00#2, b, 0#16)
  | .byteEof b => (0b01#2, b, 0#16)
  | .eof => (0b10#2, 0#8, 0#16)
  | .err e => (0b11#2, 0#8, e)

/-- A sink's answer from the lines `snk_status`, `snk_ecode`; code `10` is no legal answer (R56, V8). -/
def sinkRespOfPort (status : BitVec 2) (ecode : ECode) : Option SinkResp :=
  if status = 0b00#2 then some .ack
  else if status = 0b01#2 then some .short
  else if status = 0b11#2 then some (.nak ecode)
  else none

/-- The lines `snk_status`, `snk_ecode` of a sink's answer, an ignored one zero (R56). -/
def portOfSinkResp : SinkResp → BitVec 2 × ECode
  | .ack => (0b00#2, 0#16)
  | .short => (0b01#2, 0#16)
  | .nak e => (0b11#2, e)

end Sys2Proof.Machine
end

