-- ==== Sys2Proof/Machine/Reader.lean ====
section
/-!
DEFINITION. The BitReader commands READBIT, READBYTE, READBITS and RRESET (40_bitreader.md), each as the step a unit
performs, which other commands call, and as the meaning of the command. They serve the reader half of a READWRITER (R170)
and the reader of a BUFFER (R181) alike.
-/

namespace Sys2Proof.Machine

/-- The `count` of a reader is a value the rules give a meaning: 0 to 8 (R23, V9). -/
def Reader.countLegal (r : Reader) : Bool := r.count.toNat ≤ 8

/-- Consuming the top bit of the pending byte: the last three lines of R110. -/
def consumeBit (u : UnitId) (r : Reader) (s : State) : Act Bit :=
  .done r.pending.msb (s.setReader u ⟨r.pending <<< 1, r.count - 1#4⟩)

/-- READBIT as a step of the unit `u` (R110, R111). A unit without a reader accepts no reader command (R84). -/
def readBit (u : UnitId) (s : State) : Act Bit :=
  match s.readerOf u with
  | none => .fail Failure.illegal s
  | some r =>
    if r.countLegal = false then .stuck .readerCountReserved
    else if r.count = 0#4 then
      (srcPull u s).bind fun resp s' =>
        match resp with
        | .byte b => consumeBit u ⟨b, 8#4⟩ s'
        | .byteEof _ => .fail Failure.eof s'
        | .eof => .fail Failure.eof s'
        | .err e => .fail (Failure.io e) s'
    else consumeBit u r s

/-- The byte an unaligned READBYTE returns: `pending[7 : 8-c] ++ b[7 : c]`, in the rule's equivalent arithmetic (R113). -/
def spliceRead (r : Reader) (b : Byte) : Byte :=
  (r.pending &&& (0xFF#8 <<< (8 - r.count.toNat))) ||| (b >>> r.count.toNat)

/-- READBYTE as a step of the unit `u` (R113 to R115). An aligned READBYTE writes no register (R114). -/
def readByte (u : UnitId) (s : State) : Act Byte :=
  match s.readerOf u with
  | none => .fail Failure.illegal s
  | some r =>
    if r.countLegal = false then .stuck .readerCountReserved
    else
      (srcPull u s).bind fun resp s' =>
        match resp with
        | .byte b =>
          if r.count = 0#4 then .done b s'
          else .done (spliceRead r b) (s'.setReader u ⟨b <<< (8 - r.count.toNat), r.count⟩)
        | .byteEof b => if r.count = 0#4 then .done b s' else .fail Failure.eof s'
        | .eof => .fail Failure.eof s'
        | .err e => .fail (Failure.io e) s'

/-- The byte phase of READBITS: `k` times READBYTE into the accumulator (R117). -/
def readByteRun (u : UnitId) : Nat → U64 → State → Act U64
  | 0, acc, s => .done acc s
  | k + 1, acc, s =>
    (readByte u s).bind fun b s' => readByteRun u k ((acc <<< 8) ||| byteValue b) s'

/-- A failure of the READBIT of the last tail bit: end-of-input is a short read, which returns the value so far; any other
failure is raised (R117, R118, conflict C5). -/
def shortRead (acc : U64) (x : Act U64) : Act U64 :=
  match x with
  | .done v s => .done v s
  | .fail e s => if e.cause = .eof then .done acc s else .fail e s
  | .stuck r => .stuck r

/-- The tail of READBITS: `n` times READBIT into the accumulator, the last with the end-of-input tolerance (R117, R118). -/
def readTail (u : UnitId) : Nat → U64 → State → Act U64
  | 0, acc, s => .done acc s
  | 1, acc, s => shortRead acc ((readBit u s).bind fun b s' => .done ((acc <<< 1) ||| bitValue b) s')
  | n + 2, acc, s => (readBit u s).bind fun b s' => readTail u (n + 1) ((acc <<< 1) ||| bitValue b) s'

/-- READBITS of `nbits` bits as a step of the unit `u`: whole bytes while at least 8 bits remain, then single bits (R117 to
R120). -/
def readBits (u : UnitId) (nbits : Nat) (s : State) : Act U64 :=
  (readByteRun u (nbits / 8) 0 s).bind fun acc s' => readTail u (nbits % 8) acc s'

/-- RRESET as a step of the unit `u` (R121, R125). -/
def resetReader (u : UnitId) (s : State) : Act PUnit := .done ⟨⟩ (s.setReader u Reader.fresh)

/-- READBIT (R110). -/
def execReadbit (s : State) : Host.Outcome State Fault Refusal :=
  s.ifLegal .readbit (conclude ((readBit s.unit s).bind fun b s' => .done (bitValue b) s'))

/-- READBYTE (R113). -/
def execReadbyte (s : State) : Host.Outcome State Fault Refusal :=
  s.ifLegal .readbyte (conclude ((readByte s.unit s).bind fun b s' => .done (byteValue b) s'))

/-- READBITS (R117). -/
def execReadbits (nb : Byte) (s : State) : Host.Outcome State Fault Refusal :=
  s.ifLegal (.readbits nb) (conclude (readBits s.unit nb.toNat s))

/-- RRESET (R121). -/
def execRreset (s : State) : Host.Outcome State Fault Refusal :=
  s.ifLegal .rreset (concludeVoid (resetReader s.unit s))

end Sys2Proof.Machine
end

