-- ==== Sys2Proof/Machine/Writer.lean ====
section
/-!
DEFINITION. The BitWriter commands WRITEBIT, WRITEBYTE, WRITEBITS and FLUSH (41_bitwriter.md), each as the step a unit
performs and as the meaning of the command. They serve the writer half of a READWRITER (R170) and the writer of a BUFFER
(R181) alike. A step commits its registers only when its push is acknowledged (R143, R147, conflict C3).
-/

namespace Sys2Proof.Machine

/-- The `count` of a writer is a value the rules give a meaning: 1 to 8 (R27, R28, V9). -/
def Writer.countLegal (w : Writer) : Bool := 1 ≤ w.count.toNat && w.count.toNat ≤ 8

/-- The pending byte with `bit` or-ed into the slot `count - 1`, bit 0 the least significant (R140, R141, conflict C2). -/
def slotIn (w : Writer) (bit : Bit) : Byte :=
  w.pending ||| ((BitVec.ofBool bit).setWidth 8 <<< (w.count.toNat - 1))

/-- WRITEBIT as a step of the unit `u` (R140 to R143). A unit without a writer accepts no writer command (R84). -/
def writeBit (u : UnitId) (bit : Bit) (s : State) : Act PUnit :=
  match s.writerOf u with
  | none => .fail Failure.illegal s
  | some w =>
    if w.countLegal = false then .stuck .writerCountReserved
    else if w.count = 1#4 then
      (push u (slotIn w bit) s).bind fun _ s' => .done ⟨⟩ (s'.setWriter u Writer.fresh)
    else .done ⟨⟩ (s.setWriter u ⟨slotIn w bit, w.count - 1#4⟩)

/-- The byte a WRITEBYTE pushes: the queued bits, then the top of `byt` (R145). -/
def spliceWrite (w : Writer) (byt : Byte) : Byte := w.pending ||| (byt >>> (8 - w.count.toNat))

/-- WRITEBYTE as a step of the unit `u` (R145 to R147). -/
def writeByte (u : UnitId) (byt : Byte) (s : State) : Act PUnit :=
  match s.writerOf u with
  | none => .fail Failure.illegal s
  | some w =>
    if w.countLegal = false then .stuck .writerCountReserved
    else (push u (spliceWrite w byt) s).bind fun _ s' => .done ⟨⟩ (s'.setWriter u ⟨byt <<< w.count.toNat, w.count⟩)

/-- `v[n+7 : n]` (R10). -/
def byteSlice (v : U64) (n : Nat) : Byte := (v >>> n).setWidth 8

/-- The byte phase of WRITEBITS with `8 * k + t` bits to go: `k` times WRITEBYTE, the most significant byte first (R149). -/
def writeByteRun (u : UnitId) (v : U64) (t : Nat) : Nat → State → Act PUnit
  | 0, s => .done ⟨⟩ s
  | k + 1, s => (writeByte u (byteSlice v (8 * k + t)) s).bind fun _ s' => writeByteRun u v t k s'

/-- The tail of WRITEBITS with `n` bits to go: WRITEBIT of `v[n-1]` down to `v[0]` (R149). -/
def writeTail (u : UnitId) (v : U64) : Nat → State → Act PUnit
  | 0, s => .done ⟨⟩ s
  | n + 1, s => (writeBit u (v.getLsbD n) s).bind fun _ s' => writeTail u v n s'

/-- WRITEBITS of the low `nbits` bits of `v` as a step of the unit `u` (R149 to R151). -/
def writeBits (u : UnitId) (v : U64) (nbits : Nat) (s : State) : Act PUnit :=
  (writeByteRun u v (nbits % 8) (nbits / 8) s).bind fun _ s' => writeTail u v (nbits % 8) s'

/-- The loop of FLUSH, at most `fuel` rounds: WRITEBIT 0 while `W.count` is not 8 (R152). -/
def flushLoop (u : UnitId) : Nat → State → Act PUnit
  | 0, s => .done ⟨⟩ s
  | fuel + 1, s =>
    match s.writerOf u with
    | none => .fail Failure.illegal s
    | some w => if w.count = 8#4 then .done ⟨⟩ s else (writeBit u false s).bind fun _ s' => flushLoop u fuel s'

/-- FLUSH as a step of the unit `u` (R152 to R154). Eight rounds end the loop from every `count` the rules give a meaning:
`count` falls to 1 and then jumps to 8 (R233). -/
def flush (u : UnitId) (s : State) : Act PUnit := flushLoop u 8 s

/-- WRITEBIT (R140). -/
def execWritebit (bit : Bit) (s : State) : Host.Outcome State Fault Refusal :=
  s.ifLegal (.writebit bit) (concludeVoid (writeBit s.unit bit s))

/-- WRITEBYTE (R145). -/
def execWritebyte (byt : Byte) (s : State) : Host.Outcome State Fault Refusal :=
  s.ifLegal (.writebyte byt) (concludeVoid (writeByte s.unit byt s))

/-- WRITEBITS (R149). -/
def execWritebits (v : U64) (nb : Byte) (s : State) : Host.Outcome State Fault Refusal :=
  s.ifLegal (.writebits v nb) (concludeVoid (writeBits s.unit v nb.toNat s))

/-- FLUSH (R152). -/
def execFlush (s : State) : Host.Outcome State Fault Refusal :=
  s.ifLegal .flush (concludeVoid (flush s.unit s))

end Sys2Proof.Machine
end

