-- ==== Sys2Proof/Machine/Buffer.lean ====
section
/-!
DEFINITION. The BitBuffer commands READFROM, WRITETO, COPY and BRESET (43_bitbuffer.md).
-/

namespace Sys2Proof.Machine

/-- The byte phase of a transfer: `k` times READBYTE on `src` and WRITEBYTE of its data on `dst`, a failed read reported
with the context `rc`, a failed write with `wc` (R185, R187, R190, R191). -/
def transferBytes (rc wc : Ctx) (src dst : UnitId) : Nat → State → Act PUnit
  | 0, s => .done ⟨⟩ s
  | k + 1, s =>
    ((readByte src s).inContext rc).bind fun b s' =>
      ((writeByte dst b s').inContext wc).bind fun _ s'' => transferBytes rc wc src dst k s''

/-- The final sub-byte chunk of a transfer: one READBITS of the `n` remaining bits and one WRITEBITS of the same count,
skipped when there is none (R185, R186, R190). -/
def transferChunk (rc wc : Ctx) (src dst : UnitId) (n : Nat) (s : State) : Act PUnit :=
  if n = 0 then .done ⟨⟩ s
  else ((readBits src n s).inContext rc).bind fun v s' => (writeBits dst v n s').inContext wc

/-- A transfer of `nbits` bits from the reader of `src` to the writer of `dst` (R185, R190). -/
def transfer (rc wc : Ctx) (src dst : UnitId) (nbits : Nat) (s : State) : Act PUnit :=
  (transferBytes rc wc src dst (nbits / 8) s).bind fun _ s' => transferChunk rc wc src dst (nbits % 8) s'

/-- COPY of the store of `b` into the unit `p`, which becomes a BUFFER with fresh reader and writer state (R198 to R200). -/
def copyStore (b p : UnitId) (s : State) : Act PUnit :=
  match s.storeOf b with
  | none => .fail Failure.illegal s
  | some store => .done ⟨⟩ (((s.setStore p store).setReader p Reader.fresh).setWriter p Writer.fresh)

/-- BRESET of the unit `b`: FLUSH, then the store emptied and the reader reset (R205). -/
def resetBuffer (b : UnitId) (s : State) : Act PUnit :=
  (flush b s).bind fun _ s' => .done ⟨⟩ ((s'.setStore b []).setReader b Reader.fresh)

/-- READFROM (R185). -/
def execReadfrom (peer : UnitId) (nbits : U64) (s : State) : Host.Outcome State Fault Refusal :=
  s.ifLegal (.readfrom peer nbits)
    (concludeVoid (transfer .readFromSource .writeToBuffer peer s.unit nbits.toNat s))

/-- WRITETO (R190). -/
def execWriteto (peer : UnitId) (nbits : U64) (s : State) : Host.Outcome State Fault Refusal :=
  s.ifLegal (.writeto peer nbits)
    (concludeVoid (transfer .readFromBuffer .writeToSink s.unit peer nbits.toNat s))

/-- COPY (R198). -/
def execCopy (peer : UnitId) (s : State) : Host.Outcome State Fault Refusal :=
  s.ifLegal (.copy peer) (concludeVoid (copyStore s.unit peer s))

/-- BRESET (R205). -/
def execBreset (s : State) : Host.Outcome State Fault Refusal :=
  s.ifLegal .breset (concludeVoid (resetBuffer s.unit s))

end Sys2Proof.Machine
end

