-- ==== Sys2Proof/Machine/Dispatch.lean ====
section
/-!
DEFINITION. One arm per command (R83): the meaning of each, issued to the unit on the `unit` lines.
-/

namespace Sys2Proof.Machine

def exec (i : Instr) (s : State) : Host.Outcome State Fault Refusal :=
  match i with
  | .readbit => Sys2Proof.Machine.execReadbit s
  | .readbyte => Sys2Proof.Machine.execReadbyte s
  | .readbits nb => Sys2Proof.Machine.execReadbits nb s
  | .rreset => Sys2Proof.Machine.execRreset s
  | .writebit bit => Sys2Proof.Machine.execWritebit bit s
  | .writebyte byt => Sys2Proof.Machine.execWritebyte byt s
  | .writebits u nb => Sys2Proof.Machine.execWritebits u nb s
  | .flush => Sys2Proof.Machine.execFlush s
  | .readfrom peer nbits => Sys2Proof.Machine.execReadfrom peer nbits s
  | .writeto peer nbits => Sys2Proof.Machine.execWriteto peer nbits s
  | .copy peer => Sys2Proof.Machine.execCopy peer s
  | .breset => Sys2Proof.Machine.execBreset s

end Sys2Proof.Machine
end

