-- ==== Sys2Proof/Decode.lean ====
section
/-!
DEFINITION. The command descriptor: its fields (R81), the decoder, total on every descriptor and rejecting by name
(R82, R83, R85, R86), and the encoder written from the same table.
-/

namespace Sys2Proof

/-- Why the decoder rejects a descriptor: the reasons of R85 that the descriptor alone shows. -/
inductive DecodeError where
  /-- `op` is none of the twelve opcodes (R85 (2), V1). -/
  | reservedOpcode (op : Byte)
  /-- `nb` of READBITS or WRITEBITS is 65 to 255 (R85 (4), R86, V2). -/
  | reservedCount (nb : Byte)
  deriving DecidableEq, Repr

/-- `desc[7:0]` (R81). -/
def opField (d : Desc) : Byte := d.extractLsb' 0 8

/-- `desc[15:8]` (R81). -/
def nbField (d : Desc) : Byte := d.extractLsb' 8 8

/-- `desc[31:16]` (R81). -/
def peerField (d : Desc) : UnitId := d.extractLsb' 16 16

/-- `desc[95:32]` (R81). -/
def dataField (d : Desc) : U64 := d.extractLsb' 32 64

/-- `data[0]`, the operand of WRITEBIT (R82). -/
def bitField (d : Desc) : Bit := (dataField d).getLsbD 0

/-- `data[7:0]`, the operand of WRITEBYTE (R82). -/
def bytField (d : Desc) : Byte := (dataField d).setWidth 8

/-- The command whose opcode is `op` in the opcode map, its operands taken from the fields of `d` (R82, R83). A field a
command does not use is ignored. -/
def commandOf (op : Byte) (d : Desc) : Option Instr :=
  if op = 0x01#8 then some .readbit
  else if op = 0x02#8 then some .readbyte
  else if op = 0x03#8 then some (.readbits (nbField d))
  else if op = 0x04#8 then some .rreset
  else if op = 0x11#8 then some (.writebit (bitField d))
  else if op = 0x12#8 then some (.writebyte (bytField d))
  else if op = 0x13#8 then some (.writebits (dataField d) (nbField d))
  else if op = 0x14#8 then some .flush
  else if op = 0x21#8 then some (.readfrom (peerField d) (dataField d))
  else if op = 0x22#8 then some (.writeto (peerField d) (dataField d))
  else if op = 0x23#8 then some (.copy (peerField d))
  else if op = 0x24#8 then some .breset
  else none

/-- The decoder, total on the 96 bits of a descriptor (R81 to R83, R85 (2) and (4)). -/
def decode (d : Desc) : Except DecodeError Instr :=
  match commandOf (opField d) d with
  | none => .error (.reservedOpcode (opField d))
  | some i => if WellFormed i then .ok i else .error (.reservedCount (nbField d))

/-- The opcode of a command (R83). -/
def opcode : Instr → Byte
  | .readbit => 0x01#8
  | .readbyte => 0x02#8
  | .readbits _ => 0x03#8
  | .rreset => 0x04#8
  | .writebit _ => 0x11#8
  | .writebyte _ => 0x12#8
  | .writebits _ _ => 0x13#8
  | .flush => 0x14#8
  | .readfrom _ _ => 0x21#8
  | .writeto _ _ => 0x22#8
  | .copy _ => 0x23#8
  | .breset => 0x24#8

/-- A descriptor from its four fields, the most significant first (R81). -/
def descriptor (data : U64) (peer : UnitId) (nb op : Byte) : Desc :=
  ((data ++ peer ++ nb) ++ op : BitVec (64 + 16 + 8 + 8))

/-- The descriptor of a command, every field it does not use zero (R82). -/
def encode (i : Instr) : Desc :=
  match i with
  | .readbit => descriptor 0 0 0 (opcode i)
  | .readbyte => descriptor 0 0 0 (opcode i)
  | .readbits nb => descriptor 0 0 nb (opcode i)
  | .rreset => descriptor 0 0 0 (opcode i)
  | .writebit bit => descriptor (bitValue bit) 0 0 (opcode i)
  | .writebyte byt => descriptor (byteValue byt) 0 0 (opcode i)
  | .writebits u nb => descriptor u 0 nb (opcode i)
  | .flush => descriptor 0 0 0 (opcode i)
  | .readfrom peer nbits => descriptor nbits peer 0 (opcode i)
  | .writeto peer nbits => descriptor nbits peer 0 (opcode i)
  | .copy peer => descriptor 0 peer 0 (opcode i)
  | .breset => descriptor 0 0 0 (opcode i)

/-- The descriptor whose low `nbits` bits are those of `w` and whose other bits are zero, numbered as the opcode table
numbers them, which is R81's own numbering. -/
def tableDesc (nbits w : Nat) : Desc := BitVec.ofNat 96 (w % 2 ^ nbits)

/-- What the decoder reads from a word of the opcode table (host interface). -/
def decodeTableWord (nbits w : Nat) : Option Instr :=
  match decode (tableDesc nbits w) with
  | .ok i => some i
  | .error _ => none

end Sys2Proof
end

