-- ==== Sys2Proof/Machine/Issue.lean ====
section
/-!
DEFINITION. How a word of the opcode table comes to be the host's next command: the unit it is issued to (R80, R84).
-/

namespace Sys2Proof.Machine

/-- The id of the first unit of the table that accepts `i` and whose kind `p` allows. -/
def firstAccepting (p : UnitKind → Bool) (i : Instr) : Table BitUnit → Option UnitId
  | [] => none
  | (u, x) :: t => if p x.kind && accepts x.kind i then some u else firstAccepting p i t

/-- A unit that accepts the command of a descriptor (R84): a BUFFER where one does, which touches no external port, else the
first of the table; 0 where none does or the descriptor is no command's. -/
def State.unitFor (s : State) (d : Desc) : UnitId :=
  match decode d with
  | .error _ => 0#16
  | .ok i =>
    match firstAccepting isBuffer i s.units with
    | some u => u
    | none =>
      match firstAccepting (fun _ => true) i s.units with
      | some u => u
      | none => 0#16

/-- The host has `c` to issue before everything else. -/
def State.issueNext (s : State) (c : Command) : State := { s with commands := c :: s.commands }

end Sys2Proof.Machine
end

