-- ==== Sys2Proof/Machine/Step.lean ====
section
/-!
DEFINITION. One step of the machine: the host issues its next command, the command is decoded and performed to its end,
and its result is given (R6, R7, R80). A descriptor that is no command's is illegal (R85). With no command to issue nothing
happens (R272).
-/

namespace Sys2Proof.Machine

/-- One step: one command, performed atomically with respect to every other (R7). -/
def step (s : State) : Host.Outcome State Fault Refusal :=
  match s.fetch with
  | none => .next s
  | some (d, s') =>
    match decode d with
    | .ok i => exec i s'
    | .error _ => .next (s'.raise Failure.illegal)

/-- `s` with the word `w` of the opcode table as the descriptor of the command the host issues next (log 4). -/
def State.withFetchWord (s : State) (nbits w : Nat) : State :=
  s.issueNext ⟨s.unitFor (tableDesc nbits w), tableDesc nbits w⟩

end Sys2Proof.Machine
end

