-- ==== Sys2Proof/Machine/Environment.lean ====
section
/-!
DEFINITION. The two reference instances of the environment, `ListSource` and `ListSink`, as planned answers (R58). Every
vector of 95_test_vectors.md uses them.
-/

namespace Sys2Proof.Machine

/-- The answers of `ListSource(bytes, eof_with_last)` to its first pulls (R58). -/
def listAnswers (eofWithLast : Bool) : List Byte → List SrcResp
  | [] => []
  | [b] => if eofWithLast then [.byteEof b] else [.byte b]
  | b :: b' :: rest => .byte b :: listAnswers eofWithLast (b' :: rest)

/-- `ListSource(bytes, eof_with_last)`: once used up it answers `Eof` for ever (R58). -/
def listSource (bytes : List Byte) (eofWithLast : Bool) : Source :=
  { planned := listAnswers eofWithLast bytes, after := .always .eof, pulls := [] }

/-- `a` as answer number `j` of a plan, counting from 0, the answers before it filled up with `dflt` and no planned answer
used up by it (R58). -/
def answerAt {α : Type} (dflt a : α) : Nat → List α → List α
  | 0, l => a :: l
  | j + 1, [] => dflt :: answerAt dflt a j []
  | j + 1, x :: l => x :: answerAt dflt a j l

/-- `ListSource(bytes, err_at = j, e)` (R58). -/
def listSourceErrAt (bytes : List Byte) (j : Nat) (e : ECode) : Source :=
  { planned := answerAt .eof (.err e) j (listAnswers false bytes), after := .always .eof, pulls := [] }

/-- `ListSink()` (R58). -/
def listSink : Sink := { planned := [], after := .always .ack, pushes := [] }

/-- `ListSink(nak_at = j, e)` (R58). -/
def listSinkNakAt (j : Nat) (e : ECode) : Sink :=
  { planned := answerAt .ack (.nak e) j [], after := .always .ack, pushes := [] }

/-- `ListSink(short_at = j)` (R58). -/
def listSinkShortAt (j : Nat) : Sink :=
  { planned := answerAt .ack .short j [], after := .always .ack, pushes := [] }

end Sys2Proof.Machine
end

