-- ==== Sys2Proof/Machine/Flags.lean ====
section
/-!
DEFINITION. There are no flags and no condition codes (R34). What stands in their place is the report of each command:
the lines `res_cause`, `res_ctx`, `res_ecode` and `res_data` of its result (R88, R220, R224).
-/

namespace Sys2Proof.Machine

/-- The code of a failure's cause on `res_cause`; 0 is `OK`, 5 to 7 are never produced (R88, R220). -/
def Cause.code : Cause → BitVec 3
  | .eof => 1#3
  | .ioErr => 2#3
  | .shortWrite => 3#3
  | .illegal => 4#3

/-- The code of a context on `res_ctx`; 5 to 7 are never produced (R88, R224). -/
def Ctx.code : Ctx → BitVec 3
  | .none => 0#3
  | .readFromSource => 1#3
  | .writeToBuffer => 2#3
  | .readFromBuffer => 3#3
  | .writeToSink => 4#3

/-- `res_cause` (R88). -/
def Result.causeCode : Result → BitVec 3
  | .ok _ => 0#3
  | .fail e => e.cause.code

/-- `res_ctx` (R88). -/
def Result.ctxCode : Result → BitVec 3
  | .ok _ => 0#3
  | .fail e => e.ctx.code

/-- `res_ecode`: the underlying error's code where the cause is `IOERR`, else 0 (R88). -/
def Result.ecode : Result → ECode
  | .ok _ => 0#16
  | .fail e => if e.cause = .ioErr then e.ecode else 0#16

/-- `res_data`, which carries information only when the cause is `OK` (R88, R229, V6). -/
def Result.data : Result → Option U64
  | .ok v => some v
  | .fail _ => none

/-- The cause a result reports, `none` for `OK` (R220). -/
def Result.cause? : Result → Option Cause
  | .ok _ => none
  | .fail e => some e.cause

/-- The context a result reports (R224). -/
def Result.ctx : Result → Ctx
  | .ok _ => .none
  | .fail e => e.ctx

end Sys2Proof.Machine
end

