-- ==== Sys2Proof/Safety.lean ====
section
/-!
DEFINITION. The terms in which claims about the machine are made: the invariants of the registers (R24, R28), the canonical
form of the tables, what a port promises, the streams of bits a unit reads and writes (R31, R62 to R64), and what a safe
step is.
-/

namespace Sys2Proof.Machine

/-! ### Invariants -/

/-- R24 between commands: `0 ≤ count ≤ 7` and the low `8 - count` bits of `pending` are zero. -/
def Reader.ok (r : Reader) : Bool := r.count.toNat ≤ 7 && r.pending &&& (0xFF#8 >>> r.count.toNat) = 0#8

/-- R28: `1 ≤ count ≤ 8` and the low `count` bits of `pending`, the free slots, are zero. -/
def Writer.ok (w : Writer) : Bool :=
  1 ≤ w.count.toNat && w.count.toNat ≤ 8 && w.pending &&& (0xFF#8 >>> (8 - w.count.toNat)) = 0#8

/-- The registers a unit has meet their invariants. -/
def BitUnit.ok : BitUnit → Bool
  | .reader _ r => r.ok
  | .writer _ w => w.ok
  | .readWriter _ r _ w => r.ok && w.ok
  | .buffer _ r w => r.ok && w.ok

/-- Every register of every unit meets its invariant (R128, R156, R211). -/
def State.registersOk (s : State) : Bool := s.units.all fun e => e.2.ok

/-- The canonical form of the three tables: keys strictly rising, no source or sink listed that equals an unlisted one, so
that states that read alike are equal data. -/
def State.wf (s : State) : Bool :=
  s.units.rising && s.sources.rising && s.sinks.rising && s.sources.trimmed Source.open && s.sinks.trimmed Sink.open

/-- The `UNITS` table of a state: ids, kinds and bindings (R9, R20). -/
def State.unitTable (s : State) : List (UnitId × UnitSpec) := s.units.map fun e => (e.1, e.2.spec)

/-! ### Ports -/

/-- Every transaction of the source is answered (R271). -/
def Source.answers (x : Source) : Bool := x.after ≠ .never

/-- Every transaction of the sink is answered (R271). -/
def Sink.answers (x : Sink) : Bool := x.after ≠ .never

/-- Every external source and sink answers every transaction, the premise U10 and R271 name. -/
def State.portsAnswer (s : State) : Bool := s.sources.all (fun e => e.2.answers) && s.sinks.all (fun e => e.2.answers)

/-- The sink acknowledges every push from now on. -/
def Sink.acks (x : Sink) : Bool := x.planned.all (fun a => a = .ack) && x.after = .always .ack

/-- The sink of the unit `u` acknowledges every push from now on; a BUFFER's store always does (R61). -/
def State.acks (s : State) (u : UnitId) : Bool :=
  match s.unitAt u with
  | none => false
  | some (.reader _ _) => false
  | some (.writer k _) => (s.sink k).acks
  | some (.readWriter _ _ k _) => (s.sink k).acks
  | some (.buffer _ _ _) => true

/-! ### Streams of bits -/

/-- The bits of a byte in stream order, the most significant first (R62). -/
def bitsOf (b : Byte) : List Bit :=
  [b.getLsbD 7, b.getLsbD 6, b.getLsbD 5, b.getLsbD 4, b.getLsbD 3, b.getLsbD 2, b.getLsbD 1, b.getLsbD 0]

/-- The bits of a sequence of bytes, in order (R64). -/
def bytesBits (l : List Byte) : List Bit := l.flatMap bitsOf

/-- The low `n` bits of a value in stream order: bit `n - 1` first, bit 0 last (R63). -/
def valueBits (v : U64) : Nat → List Bit
  | 0 => []
  | n + 1 => v.getLsbD n :: valueBits v n

/-- The value packed from bits in stream order into its low bits, continuing `acc` (R63, R117). -/
def packBits (acc : U64) : List Bit → U64
  | [] => acc
  | b :: l => packBits ((acc <<< 1) ||| bitValue b) l

/-- The unconsumed bits of a reader, the next one first (R22). -/
def Reader.bits (r : Reader) : List Bit := (bitsOf r.pending).take r.count.toNat

/-- The queued bits of a writer, the oldest first (R26). -/
def Writer.bits (w : Writer) : List Bit := (bitsOf w.pending).take (8 - w.count.toNat)

/-- The bytes a plan of answers delivers before anything else than a plain byte. -/
def plainBytes : List SrcResp → List Byte
  | [] => []
  | .byte b :: l => b :: plainBytes l
  | .byteEof _ :: _ => []
  | .eof :: _ => []
  | .err _ :: _ => []

/-- The bytes the source of the unit `u` is about to deliver as plain bytes: those planned of an external source, all of a
BUFFER's store (R60). -/
def State.supply (s : State) (u : UnitId) : List Byte :=
  match s.unitAt u with
  | none => []
  | some (.reader k _) => plainBytes (s.source k).planned
  | some (.writer _ _) => []
  | some (.readWriter k _ _ _) => plainBytes (s.source k).planned
  | some (.buffer store _ _) => store

/-- The bits the unit `u` is about to deliver, in stream order: its reader's leftover bits, then its supply (R31, R64). -/
def State.bitsAhead (s : State) (u : UnitId) : List Bit :=
  ((s.readerOf u).map Reader.bits).getD [] ++ bytesBits (s.supply u)

/-- The bytes the sink of the unit `u` has taken: those an external sink acknowledged, what a BUFFER's store holds. -/
def State.delivered (s : State) (u : UnitId) : List Byte :=
  match s.unitAt u with
  | none => []
  | some (.reader _ _) => []
  | some (.writer k _) => (s.sink k).acknowledged
  | some (.readWriter _ _ k _) => (s.sink k).acknowledged
  | some (.buffer store _ _) => store

/-- The bits written through the unit `u`, in stream order: the bytes delivered, then the bits still queued (R31, R64). -/
def State.bitsWritten (s : State) (u : UnitId) : List Bit :=
  bytesBits (s.delivered u) ++ ((s.writerOf u).map Writer.bits).getD []

/-- What is known of the answer to the pull that follows the plain bytes planned: the next planned answer, or what the
source answers for ever; `none` where the oracle is open or never answers. -/
def Source.thenAnswers (x : Source) : Option SrcResp :=
  match x.planned.drop (plainBytes x.planned).length with
  | a :: _ => some a
  | [] =>
    match x.after with
    | .always a => some a
    | .free => none
    | .never => none

/-- What is known of the answer to the pull of the unit `u` that follows its supply; a BUFFER's store answers `Eof` (R60). -/
def State.thenAnswers (s : State) (u : UnitId) : Option SrcResp :=
  match s.unitAt u with
  | none => none
  | some (.reader k _) => (s.source k).thenAnswers
  | some (.writer _ _) => none
  | some (.readWriter k _ _ _) => (s.source k).thenAnswers
  | some (.buffer _ _ _) => some .eof

/-- The unit `u` has a reader that meets its invariant. -/
def State.readerOk (s : State) (u : UnitId) : Prop := ∃ r, s.readerOf u = some r ∧ r.ok = true

/-- The unit `u` has a writer that meets its invariant, over a sink that acknowledges. -/
def State.writerOk (s : State) (u : UnitId) : Prop :=
  (∃ w, s.writerOf u = some w ∧ w.ok = true) ∧ s.acks u = true

/-! ### Legality, in the words of R84 to R87 -/

/-- The unit on the `unit` lines is of one of the kinds. -/
def State.issuedTo (s : State) (kinds : List UnitKind) : Prop := ∃ k ∈ kinds, s.kindOf s.unit = some k

/-- The unit `p` is of one of the kinds and is not the unit on the `unit` lines (R87). -/
def State.peerAmong (s : State) (p : UnitId) (kinds : List UnitKind) : Prop :=
  p ≠ s.unit ∧ ∃ k ∈ kinds, s.kindOf p = some k

/-- The command is legal at the unit on the `unit` lines: none of the five reasons of R85 holds. -/
def State.Legal (s : State) : Instr → Prop
  | .readbit => s.issuedTo [.reader, .readWriter, .buffer]
  | .readbyte => s.issuedTo [.reader, .readWriter, .buffer]
  | .readbits nb => s.issuedTo [.reader, .readWriter, .buffer] ∧ nb.toNat ≤ 64
  | .rreset => s.issuedTo [.reader, .readWriter]
  | .writebit _ => s.issuedTo [.writer, .readWriter, .buffer]
  | .writebyte _ => s.issuedTo [.writer, .readWriter, .buffer]
  | .writebits _ nb => s.issuedTo [.writer, .readWriter, .buffer] ∧ nb.toNat ≤ 64
  | .flush => s.issuedTo [.writer, .readWriter, .buffer]
  | .readfrom p _ => s.issuedTo [.buffer] ∧ s.peerAmong p [.reader, .readWriter, .buffer]
  | .writeto p _ => s.issuedTo [.buffer] ∧ s.peerAmong p [.writer, .readWriter, .buffer]
  | .copy p => s.issuedTo [.buffer] ∧ s.peerAmong p [.buffer]
  | .breset => s.issuedTo [.buffer]

/-- The reader commands: the high nibble of the opcode is 0 (R83). -/
def readerCommand (i : Instr) : Bool := (opcode i).toNat / 16 = 0

/-- The writer commands: the high nibble of the opcode is 1 (R83). -/
def writerCommand (i : Instr) : Bool := (opcode i).toNat / 16 = 1

/-! ### The pseudocode of the commands made of other commands -/

/-- `exec(U, i)` of the pseudocode (R12): the command `i` performed at the unit `u`, its result handed to the enclosing
command and not to the host. A command that answered nothing or were refused would count as illegal; none is. -/
def issue (u : UnitId) (i : Instr) (s : State) : Act U64 :=
  match exec i { s with unit := u, results := [] } with
  | .next t =>
    match t.results with
    | .ok v :: _ => .done v { t with unit := s.unit, results := s.results }
    | .fail e :: _ => .fail e { t with unit := s.unit, results := s.results }
    | [] => .fail Failure.illegal s
  | .fault f => .stuck f
  | .refused _ => .fail Failure.illegal s

/-- The loop `while n >= 8` of READBITS, `k` rounds of it (R117). -/
def pseudoReadBytes (u : UnitId) : Nat → U64 → State → Act U64
  | 0, acc, s => .done acc s
  | k + 1, acc, s => (issue u .readbyte s).bind fun d t => pseudoReadBytes u k ((acc <<< 8) ||| (d &&& 0xFF#64)) t

/-- The loop `while n > 0` of READBITS (R117). -/
def pseudoReadTail (u : UnitId) : Nat → U64 → State → Act U64
  | 0, acc, s => .done acc s
  | n + 1, acc, s =>
    match issue u .readbit s with
    | .done d t => pseudoReadTail u n ((acc <<< 1) ||| (d &&& 1#64)) t
    | .fail e t => if e.cause = .eof ∧ n + 1 = 1 then .done acc t else .fail e t
    | .stuck f => .stuck f

/-- `READBITS(U, nbits)` (R117). -/
def pseudoReadBits (u : UnitId) (nbits : Nat) (s : State) : Act U64 :=
  (pseudoReadBytes u (nbits / 8) 0 s).bind fun acc t => pseudoReadTail u (nbits % 8) acc t

/-- The loop `while n >= 8` of WRITEBITS with `8 * k + m` bits to go, `k` rounds of it (R149). -/
def pseudoWriteBytes (u : UnitId) (v : U64) (m : Nat) : Nat → State → Act U64
  | 0, s => .done 0 s
  | k + 1, s =>
    (issue u (.writebyte (v.extractLsb' (8 * k + m) 8)) s).bind fun _ t => pseudoWriteBytes u v m k t

/-- The loop `while n > 0` of WRITEBITS (R149). -/
def pseudoWriteTail (u : UnitId) (v : U64) : Nat → State → Act U64
  | 0, s => .done 0 s
  | n + 1, s => (issue u (.writebit (v.getLsbD n)) s).bind fun _ t => pseudoWriteTail u v n t

/-- `WRITEBITS(U, u, nbits)` (R149). -/
def pseudoWriteBits (u : UnitId) (v : U64) (nbits : Nat) (s : State) : Act U64 :=
  (pseudoWriteBytes u v (nbits % 8) (nbits / 8) s).bind fun _ t => pseudoWriteTail u v (nbits % 8) t

/-- The loop of READFROM and WRITETO, `k` rounds of it: READBYTE on `src`, WRITEBYTE on `dst` (R185, R190). -/
def pseudoTransferBytes (rc wc : Ctx) (src dst : UnitId) : Nat → State → Act U64
  | 0, s => .done 0 s
  | k + 1, s =>
    ((issue src .readbyte s).inContext rc).bind fun d t =>
      ((issue dst (.writebyte (d.setWidth 8)) t).inContext wc).bind fun _ t' => pseudoTransferBytes rc wc src dst k t'

/-- `READFROM(B, P, nbits)` and its mirror `WRITETO(B, P, nbits)` (R185, R190). -/
def pseudoTransfer (rc wc : Ctx) (src dst : UnitId) (nbits : Nat) (s : State) : Act U64 :=
  (pseudoTransferBytes rc wc src dst (nbits / 8) s).bind fun _ t =>
    if nbits % 8 = 0 then .done 0 t
    else
      ((issue src (.readbits (BitVec.ofNat 8 (nbits % 8))) t).inContext rc).bind fun v t' =>
        (issue dst (.writebits v (BitVec.ofNat 8 (nbits % 8))) t').inContext wc

/-- WRITEBIT of each bit of a list in turn, stopping at the first failure (R90, R148). -/
def pseudoWriteList (u : UnitId) : List Bit → State → Act U64
  | [], s => .done 0 s
  | b :: l, s => (issue u (.writebit b) s).bind fun _ t => pseudoWriteList u l t

/-! ### Steps -/

/-- The peer a command names (R82). -/
def peerOf (i : Instr) : Option UnitId := (peerDemand i).map Prod.fst

/-- The external source the reader of a unit is bound to (R20). -/
def State.sourceNameOf (s : State) (u : UnitId) : Option StreamName :=
  match s.unitAt u with
  | none => none
  | some (.reader k _) => some k
  | some (.writer _ _) => none
  | some (.readWriter k _ _ _) => some k
  | some (.buffer _ _ _) => none

/-- The external sink the writer of a unit is bound to (R20). -/
def State.sinkNameOf (s : State) (u : UnitId) : Option StreamName :=
  match s.unitAt u with
  | none => none
  | some (.reader _ _) => none
  | some (.writer k _) => some k
  | some (.readWriter _ _ k _) => some k
  | some (.buffer _ _ _) => none

/-- The outcome with its next state changed by `f`. -/
def mapNext (f : State → State) (x : Host.Outcome State Fault Refusal) : Host.Outcome State Fault Refusal :=
  match x with
  | .next s => .next (f s)
  | .fault r => .fault r
  | .refused r => .refused r

/-- The step at `s` is safe: it neither faults nor is refused, so the command issued, if any, gets its result. -/
def SafeStep (s : State) : Prop := ∃ t, step s = .next t

end Sys2Proof.Machine
end

