-- ==== Sys2Proof/Certificates/Slice0/Obligations.lean ====
section
/-!
DEFINITION. The statements for the provers. Each docstring says which rules of spec/ it formalises; OBLIGATIONS.json says
whether it formalises them whole ('stated') or rests on them ('derived').
-/

section

open Sys2Proof Sys2Proof.Machine

/-! ### The encoding -/

/-- R81 to R83, R86: decoding the encoding of a well-formed command gives it back, with every operand at every value. -/
def Obligations.DecodeEncodeRoundTrip : Prop := ∀ i : Instr, WellFormed i = true → decode (encode i) = .ok i

/-- R81 to R83, R85, R86: what the decoder reads from any four fields; fields a command does not use do not matter. -/
def Obligations.DecoderFollowsTheOpcodeMap : Prop :=
  ∀ (data : U64) (peer : UnitId) (nb op : Byte),
    decode (descriptor data peer nb op) =
      if op = 0x01#8 then .ok .readbit
      else if op = 0x02#8 then .ok .readbyte
      else if op = 0x03#8 then if nb.toNat ≤ 64 then .ok (.readbits nb) else .error (.reservedCount nb)
      else if op = 0x04#8 then .ok .rreset
      else if op = 0x11#8 then .ok (.writebit (data.getLsbD 0))
      else if op = 0x12#8 then .ok (.writebyte (data.extractLsb' 0 8))
      else if op = 0x13#8 then if nb.toNat ≤ 64 then .ok (.writebits data nb) else .error (.reservedCount nb)
      else if op = 0x14#8 then .ok .flush
      else if op = 0x21#8 then .ok (.readfrom peer data)
      else if op = 0x22#8 then .ok (.writeto peer data)
      else if op = 0x23#8 then .ok (.copy peer)
      else if op = 0x24#8 then .ok .breset
      else .error (.reservedOpcode op)

/-- R81: the four fields of a descriptor are the bits the format gives them, and they are all of it. -/
def Obligations.DescriptorFieldsAreTheirBits : Prop :=
  ∀ d : Desc,
    (∀ j, j < 8 → (opField d).getLsbD j = d.getLsbD j) ∧
    (∀ j, j < 8 → (nbField d).getLsbD j = d.getLsbD (8 + j)) ∧
    (∀ j, j < 16 → (peerField d).getLsbD j = d.getLsbD (16 + j)) ∧
    (∀ j, j < 64 → (dataField d).getLsbD j = d.getLsbD (32 + j)) ∧
    descriptor (dataField d) (peerField d) (nbField d) (opField d) = d

/-- R83, R86: a descriptor that decodes holds the opcode of its command, and no reserved count. -/
def Obligations.DecodedCommandsAreWellFormed : Prop :=
  ∀ (d : Desc) (i : Instr), decode d = .ok i → WellFormed i = true ∧ opField d = opcode i

/-- The encoding examples of 30_encoding.md section 7, and the all-zero descriptor of R83. -/
def Obligations.SpecWordsDecode : Prop :=
  decode 0x000000000000000000000001#96 = .ok .readbit ∧
  decode 0x000000000000000000000002#96 = .ok .readbyte ∧
  decode 0x000000000000000000000C03#96 = .ok (.readbits 12#8) ∧
  decode 0x000000000000000000004003#96 = .ok (.readbits 64#8) ∧
  decode 0x000000000000000000004103#96 = .error (.reservedCount 65#8) ∧
  decode 0x000000000000000000000004#96 = .ok .rreset ∧
  decode 0x000000000000000100000011#96 = .ok (.writebit true) ∧
  decode 0x00000000000000CA00000012#96 = .ok (.writebyte 0xCA#8) ∧
  decode 0x000000000000000500000313#96 = .ok (.writebits 0x5#64 3#8) ∧
  decode 0x000000000000000000000014#96 = .ok .flush ∧
  decode 0x000000000000000C00010021#96 = .ok (.readfrom 1#16 12#64) ∧
  decode 0x000000000000000C00020022#96 = .ok (.writeto 2#16 12#64) ∧
  decode 0x000000000000000000040023#96 = .ok (.copy 4#16) ∧
  decode 0x000000000000000000000024#96 = .ok .breset ∧
  decode 0#96 = .error (.reservedOpcode 0#8)

/-! ### A step, and how a command begins and ends -/

/-- R7, R80: a step performs the command of the host's next descriptor, on the unit it is issued to. -/
def Obligations.StepRunsTheDecodedCommand : Prop :=
  ∀ (s : State) (c : Command) (rest : List Command) (i : Instr),
    s.commands = c :: rest → decode c.desc = .ok i →
    step s = exec i { s with unit := c.unit, commands := rest }

/-- R85: a descriptor that is no command's answers `Fail(ILLEGAL, NONE, 0)` and does nothing else. That it is answered and
not refused, which R85 allows too, is the model's choice (log 11). -/
def Obligations.UndecodableDescriptorIsIllegal : Prop :=
  ∀ (s : State) (c : Command) (rest : List Command) (e : DecodeError),
    s.commands = c :: rest → decode c.desc = .error e →
    step s = .next { s with unit := c.unit, commands := rest, results := s.results ++ [.fail ⟨.illegal, .none, 0#16⟩] }

/-- R272: with no command of the host nothing reaches the state. That the model then takes a step that does nothing is its
own choice (log 4). -/
def Obligations.StepWithoutACommandDoesNothing : Prop := ∀ s : State, s.commands = [] → step s = .next s

/-- A word of the opcode table placed by `withFetchWord` is performed by the very next step (log 4). -/
def Obligations.PlacedWordRunsNext : Prop :=
  ∀ (s : State) (nbits w : Nat) (i : Instr), decodeTableWord nbits w = some i →
    step (s.withFetchWord nbits w) = exec i { s with unit := s.unitFor (tableDesc nbits w) }

/-- R84 to R87: a command that is not legal at its unit changes nothing and answers `Fail(ILLEGAL, NONE, 0)` (answered, not
refused: log 11). -/
def Obligations.IllegalCommandsHaveNoEffect : Prop :=
  ∀ (s : State) (i : Instr), ¬ s.Legal i →
    exec i s = .next { s with results := s.results ++ [.fail ⟨.illegal, .none, 0#16⟩] }

/-- No command of the twelve is refused, and no step. For an illegal command, and a descriptor that is no command's, this is
the model's choice (log 11): R85 lets a model refuse them. -/
def Obligations.CommandsAreNeverRefused : Prop :=
  ∀ (s : State) (r : Refusal), step s ≠ .refused r ∧ ∀ i : Instr, exec i s ≠ .refused r

/-- R80: a command that ends answers exactly one result; it neither issues a command nor changes the `unit` lines. That an
illegal command is among those that answer is the model's choice (log 11). -/
def Obligations.EveryCommandAnswersOnce : Prop :=
  ∀ (i : Instr) (s t : State), exec i s = .next t →
    (∃ r, t.results = s.results ++ [r]) ∧ t.commands = s.commands ∧ t.unit = s.unit

/-! ### READBIT, READBYTE, RRESET -/

/-- R110, R111: READBIT at every reader and for every answer of the source. That a failed READBIT leaves the registers as
they were and that the byte of a `ByteEof` is dropped are the spec's own decisions D9 and D10 (log 5). -/
def Obligations.ReadBitResult : Prop :=
  ∀ (s : State) (r : Reader), s.readerOf s.unit = some r →
    (1 ≤ r.count.toNat → r.count.toNat ≤ 8 →
      exec .readbit s =
        .next ((s.setReader s.unit ⟨r.pending <<< 1, r.count - 1#4⟩).answer (.ok (bitValue (r.pending.getLsbD 7))))) ∧
    (r.count = 0#4 → ∀ a, s.sourceAnswer s.unit = some a →
      exec .readbit s =
        .next
          (match a with
          | .byte b =>
            ((s.afterPull s.unit a).setReader s.unit ⟨b <<< 1, 7#4⟩).answer (.ok (bitValue (b.getLsbD 7)))
          | .byteEof _ => (s.afterPull s.unit a).answer (.fail ⟨.eof, .none, 0#16⟩)
          | .eof => (s.afterPull s.unit a).answer (.fail ⟨.eof, .none, 0#16⟩)
          | .err e => (s.afterPull s.unit a).answer (.fail ⟨.ioErr, .none, e⟩)))

/-- R113 to R116: READBYTE at every reader and for every answer of the source; the byte returned is spliced bit by bit as
R113 says. That an aligned READBYTE writes no register (D12), that an unaligned one drops the byte of a `ByteEof` (D10,
log 5) and that a failed one leaves the registers as they were (D9, log 5) are the spec's own decisions. -/
def Obligations.ReadByteResult : Prop :=
  ∀ (s : State) (r : Reader) (a : SrcResp), s.readerOf s.unit = some r → s.sourceAnswer s.unit = some a →
    (r.count = 0#4 →
      exec .readbyte s =
        .next ((s.afterPull s.unit a).answer
          (match a with
          | .byte b => .ok (byteValue b)
          | .byteEof b => .ok (byteValue b)
          | .eof => .fail ⟨.eof, .none, 0#16⟩
          | .err e => .fail ⟨.ioErr, .none, e⟩))) ∧
    (1 ≤ r.count.toNat → r.count.toNat ≤ 8 →
      match a with
      | .byte b =>
        ∃ out : Byte,
          (∀ j, j < 8 → out.getLsbD j =
            if 8 - r.count.toNat ≤ j then r.pending.getLsbD j else b.getLsbD (j + r.count.toNat)) ∧
          exec .readbyte s =
            .next (((s.afterPull s.unit a).setReader s.unit ⟨b <<< (8 - r.count.toNat), r.count⟩).answer
              (.ok (byteValue out)))
      | .byteEof _ => exec .readbyte s = .next ((s.afterPull s.unit a).answer (.fail ⟨.eof, .none, 0#16⟩))
      | .eof => exec .readbyte s = .next ((s.afterPull s.unit a).answer (.fail ⟨.eof, .none, 0#16⟩))
      | .err e => exec .readbyte s = .next ((s.afterPull s.unit a).answer (.fail ⟨.ioErr, .none, e⟩)))

/-- R121: RRESET, whole: its opcode, the kinds that accept it, its effect, no pull, no failure. -/
def Obligations.RresetResult : Prop :=
  (∀ (data : U64) (peer : UnitId) (nb : Byte), decode (descriptor data peer nb 0x04#8) = .ok .rreset) ∧
  (∀ k : UnitKind, accepts k .rreset = true ↔ k = .reader ∨ k = .readWriter) ∧
  ∀ s : State, s.kindOf s.unit = some .reader ∨ s.kindOf s.unit = some .readWriter →
    ∃ t, exec .rreset s = .next t ∧ t = (s.setReader s.unit ⟨0x00#8, 0#4⟩).answer (.ok 0) ∧
      t.readerOf s.unit = some ⟨0x00#8, 0#4⟩ ∧ t.sources = s.sources

/-! ### WRITEBIT, WRITEBYTE, FLUSH -/

/-- R140, R141: WRITEBIT, whole: its opcode and operand, and its effect at every writer and for every answer of the sink;
`p` is the pending byte with the bit set, or left clear, at bit index `count - 1`. That a WRITEBIT whose push fails leaves
the registers as they were is the spec's own decision D9 (R143, log 5). -/
def Obligations.WriteBitResult : Prop :=
  (∀ (data : U64) (peer : UnitId) (nb : Byte),
    decode (descriptor data peer nb 0x11#8) = .ok (.writebit (data.getLsbD 0))) ∧
  ∀ (s : State) (w : Writer) (bit : Bit), s.writerOf s.unit = some w → 1 ≤ w.count.toNat → w.count.toNat ≤ 8 →
    ∃ p : Byte,
      (∀ j, j < 8 → p.getLsbD j = (w.pending.getLsbD j || (decide (j = w.count.toNat - 1) && bit))) ∧
      (w.count ≠ 1#4 →
        exec (.writebit bit) s = .next ((s.setWriter s.unit ⟨p, w.count - 1#4⟩).answer (.ok 0))) ∧
      (w.count = 1#4 → ∀ a, s.sinkAnswer s.unit p = some a →
        exec (.writebit bit) s =
          .next
            (match a with
            | .ack => ((s.afterPush s.unit p a).setWriter s.unit ⟨0x00#8, 8#4⟩).answer (.ok 0)
            | .short => (s.afterPush s.unit p a).answer (.fail ⟨.shortWrite, .none, 0#16⟩)
            | .nak e => (s.afterPush s.unit p a).answer (.fail ⟨.ioErr, .none, e⟩)))

/-- R145, R146: WRITEBYTE, whole: its opcode and operand, and its effect at every writer and for every answer of the sink;
`full` is the pending byte or the top `count` bits of the operand, and `count` stays. That a WRITEBYTE whose push fails
leaves the registers as they were is the spec's own decision D9 (R147, log 5). -/
def Obligations.WriteByteResult : Prop :=
  (∀ (data : U64) (peer : UnitId) (nb : Byte),
    decode (descriptor data peer nb 0x12#8) = .ok (.writebyte (data.extractLsb' 0 8))) ∧
  ∀ (s : State) (w : Writer) (byt : Byte), s.writerOf s.unit = some w → 1 ≤ w.count.toNat → w.count.toNat ≤ 8 →
    ∃ full : Byte,
      (∀ j, j < 8 → full.getLsbD j = (w.pending.getLsbD j || byt.getLsbD (j + (8 - w.count.toNat)))) ∧
      ∀ a, s.sinkAnswer s.unit full = some a →
        exec (.writebyte byt) s =
          .next
            (match a with
            | .ack =>
              ((s.afterPush s.unit full a).setWriter s.unit ⟨byt <<< w.count.toNat, w.count⟩).answer (.ok 0)
            | .short => (s.afterPush s.unit full a).answer (.fail ⟨.shortWrite, .none, 0#16⟩)
            | .nak e => (s.afterPush s.unit full a).answer (.fail ⟨.ioErr, .none, e⟩))

/-- R152: FLUSH, whole: its opcode, its loop, and its net effect when it succeeds. -/
def Obligations.FlushResult : Prop :=
  (∀ (data : U64) (peer : UnitId) (nb : Byte), decode (descriptor data peer nb 0x14#8) = .ok .flush) ∧
  ∀ (s : State) (w : Writer), s.writerOf s.unit = some w →
    (issue s.unit .flush s =
      if w.count = 8#4 then .done 0 s
      else (issue s.unit (.writebit false) s).bind fun _ t => issue s.unit .flush t) ∧
    (w.count = 8#4 → exec .flush s = .next (s.answer (.ok 0))) ∧
    (1 ≤ w.count.toNat → w.count.toNat < 8 → s.sinkAnswer s.unit w.pending = some .ack →
      exec .flush s =
        .next (((s.afterPush s.unit w.pending .ack).setWriter s.unit ⟨0x00#8, 8#4⟩).answer (.ok 0)))

/-- R154: a FLUSH whose push is not acknowledged leaves seven bits queued and the byte not pushed. It rests on the spec's
decision D9 (log 5). -/
def Obligations.FlushFailure : Prop :=
  ∀ (s : State) (w : Writer), s.writerOf s.unit = some w → 1 ≤ w.count.toNat → w.count.toNat < 8 →
    (s.sinkAnswer s.unit w.pending = some .short →
      exec .flush s =
        .next (((s.setWriter s.unit ⟨w.pending, 1#4⟩).afterPush s.unit w.pending .short).answer
          (.fail ⟨.shortWrite, .none, 0#16⟩))) ∧
    (∀ e, s.sinkAnswer s.unit w.pending = some (.nak e) →
      exec .flush s =
        .next (((s.setWriter s.unit ⟨w.pending, 1#4⟩).afterPush s.unit w.pending (.nak e)).answer
          (.fail ⟨.ioErr, .none, e⟩)))

/-- R153: FLUSH on an aligned writer makes no push and changes nothing; so a second FLUSH pushes nothing more; and no FLUSH,
whatever its end, pushes more than one byte or one that is all padding. -/
def Obligations.FlushIdempotence : Prop :=
  ∀ (s : State) (w : Writer), s.writerOf s.unit = some w →
    (w.count = 8#4 → exec .flush s = .next (s.answer (.ok 0))) ∧
    (∀ t, exec .flush s = .next t → t.results = s.results ++ [.ok 0] → exec .flush t = .next (t.answer (.ok 0))) ∧
    (∀ t, exec .flush s = .next t →
      (t.sinks = s.sinks ∧ t.storeOf s.unit = s.storeOf s.unit) ∨
      (w.count.toNat < 8 ∧ ∃ a, t.sinks = (s.afterPush s.unit w.pending a).sinks ∧
        t.storeOf s.unit = (s.afterPush s.unit w.pending a).storeOf s.unit))

/-! ### COPY and BRESET -/

/-- R198 to R200: COPY, exactly: the peer gets the bytes of the store and fresh registers, everything else stays, the
buffer itself included. That the copy goes into an existing unit is the spec's decision D17. -/
def Obligations.CopyResult : Prop :=
  ∀ (s : State) (p : UnitId) (l l' : List Byte) (r r' : Reader) (w w' : Writer), p ≠ s.unit →
    s.unitAt s.unit = some (.buffer l r w) → s.unitAt p = some (.buffer l' r' w') →
    ∃ t, exec (.copy p) s = .next t ∧
      t = (s.updateUnit p fun _ => .buffer l ⟨0x00#8, 0#4⟩ ⟨0x00#8, 8#4⟩).answer (.ok 0) ∧
      t.unitAt p = some (.buffer l ⟨0x00#8, 0#4⟩ ⟨0x00#8, 8#4⟩) ∧ t.unitAt s.unit = s.unitAt s.unit

/-- R205: BRESET, whole: its opcode, its pseudocode, and the state it leaves, that of a new buffer. -/
def Obligations.BresetResult : Prop :=
  (∀ (data : U64) (peer : UnitId) (nb : Byte), decode (descriptor data peer nb 0x24#8) = .ok .breset) ∧
  ∀ (s : State) (l : List Byte) (r : Reader) (w : Writer), s.unitAt s.unit = some (.buffer l r w) →
    (issue s.unit .breset s = (issue s.unit .flush s).bind fun _ t =>
      .done 0 ((t.setStore s.unit []).setReader s.unit ⟨0x00#8, 0#4⟩)) ∧
    (w.ok = true →
      ∃ t, exec .breset s = .next t ∧
        t = (s.updateUnit s.unit fun _ => .buffer [] ⟨0x00#8, 0#4⟩ ⟨0x00#8, 8#4⟩).answer (.ok 0) ∧
        t.unitAt s.unit = some (freshUnit .buffer))

/-! ### The commands made of other commands -/

/-- R117 to R119: READBITS is its pseudocode over READBYTE and READBIT, in every state and for every answer, the short read
included. -/
def Obligations.ReadBitsIsItsPseudocode : Prop :=
  ∀ (s : State) (nb : Byte), s.Legal (.readbits nb) →
    exec (.readbits nb) s = conclude (pseudoReadBits s.unit nb.toNat s)

/-- R149, R150: WRITEBITS is its pseudocode over WRITEBYTE and WRITEBIT, in every state and for every answer. -/
def Obligations.WriteBitsIsItsPseudocode : Prop :=
  ∀ (s : State) (v : U64) (nb : Byte), s.Legal (.writebits v nb) →
    exec (.writebits v nb) s = conclude (pseudoWriteBits s.unit v nb.toNat s)

/-- R185 to R187: READFROM is its pseudocode over READBYTE and READBITS of the peer and WRITEBYTE and WRITEBITS of the
buffer, in every state and for every answer, the contexts of a failure included. -/
def Obligations.ReadFromIsItsPseudocode : Prop :=
  ∀ (s : State) (p : UnitId) (n : U64), s.Legal (.readfrom p n) →
    exec (.readfrom p n) s =
      conclude (pseudoTransfer .readFromSource .writeToBuffer p s.unit n.toNat s)

/-- R190, R191: WRITETO is its pseudocode over READBYTE and READBITS of the buffer and WRITEBYTE and WRITEBITS of the peer, in
every state and for every answer, the contexts of a failure included. -/
def Obligations.WriteToIsItsPseudocode : Prop :=
  ∀ (s : State) (p : UnitId) (n : U64), s.Legal (.writeto p n) →
    exec (.writeto p n) s =
      conclude (pseudoTransfer .readFromBuffer .writeToSink s.unit p n.toNat s)

/-! ### Streams of bits -/

/-- R62, R64: READBIT and READBYTE deliver the next bit and the next eight bits of the stream and leave the rest ahead. -/
def Obligations.ReadBitAndReadByteDeliverTheStream : Prop :=
  ∀ s : State, s.readerOk s.unit →
    (1 ≤ (s.bitsAhead s.unit).length →
      ∃ b t, exec .readbit s = .next t ∧ t.results = s.results ++ [.ok (bitValue b)] ∧
        s.bitsAhead s.unit = b :: t.bitsAhead s.unit ∧ t.readerOk s.unit) ∧
    (8 ≤ (s.bitsAhead s.unit).length →
      ∃ b t, exec .readbyte s = .next t ∧ t.results = s.results ++ [.ok (byteValue b)] ∧
        s.bitsAhead s.unit = bitsOf b ++ t.bitsAhead s.unit ∧ t.readerOk s.unit)

/-- R63, R64, R117: READBITS delivers the next `nbits` bits as a value, the first of them at bit `nbits - 1`, the bits above
zero, at every alignment. -/
def Obligations.ReadBitsDeliversTheStream : Prop :=
  ∀ (s : State) (nb : Byte), s.readerOk s.unit → nb.toNat ≤ 64 → nb.toNat ≤ (s.bitsAhead s.unit).length →
    ∃ v t, exec (.readbits nb) s = .next t ∧ t.results = s.results ++ [.ok v] ∧ v.toNat < 2 ^ nb.toNat ∧
      s.bitsAhead s.unit = valueBits v nb.toNat ++ t.bitsAhead s.unit ∧ t.readerOk s.unit

/-- R117 to R120: READBITS of more bits than are ahead, at a stream that then answers `Eof` or `Err(e)`: a short read, its
value unshifted, exactly where one bit is missing and it is a bit of the tail and the answer is `Eof`; a failure
otherwise. -/
def Obligations.ReadBitsAtTheEndOfTheStream : Prop :=
  ∀ (s : State) (nb : Byte), s.readerOk s.unit → nb.toNat ≤ 64 → (s.bitsAhead s.unit).length < nb.toNat →
    (s.thenAnswers s.unit = some .eof →
      ∃ t, exec (.readbits nb) s = .next t ∧
        if nb.toNat = (s.bitsAhead s.unit).length + 1 ∧ nb.toNat % 8 ≠ 0 then
          t.results = s.results ++ [.ok (packBits 0 (s.bitsAhead s.unit))] ∧
          t.readerOf s.unit = some ⟨0x00#8, 0#4⟩
        else t.results = s.results ++ [.fail ⟨.eof, .none, 0#16⟩]) ∧
    (∀ e, s.thenAnswers s.unit = some (.err e) →
      ∃ t, exec (.readbits nb) s = .next t ∧ t.results = s.results ++ [.fail ⟨.ioErr, .none, e⟩])

/-- R62 to R64, R70, R152: the writer commands over a sink that acknowledges append their bits to the stream, the most
significant first, and FLUSH as many zero bits as the byte lacks. -/
def Obligations.WritesAppendToTheStream : Prop :=
  ∀ s : State, s.writerOk s.unit →
    (∀ bit, ∃ t, exec (.writebit bit) s = .next t ∧ t.results = s.results ++ [.ok 0] ∧
      t.bitsWritten s.unit = s.bitsWritten s.unit ++ [bit] ∧ t.writerOk s.unit) ∧
    (∀ byt, ∃ t, exec (.writebyte byt) s = .next t ∧ t.results = s.results ++ [.ok 0] ∧
      t.bitsWritten s.unit = s.bitsWritten s.unit ++ bitsOf byt ∧ t.writerOk s.unit) ∧
    (∀ v nb, nb.toNat ≤ 64 → ∃ t, exec (.writebits v nb) s = .next t ∧ t.results = s.results ++ [.ok 0] ∧
      t.bitsWritten s.unit = s.bitsWritten s.unit ++ valueBits v nb.toNat ∧ t.writerOk s.unit) ∧
    (∀ w, s.writerOf s.unit = some w → ∃ t, exec .flush s = .next t ∧ t.results = s.results ++ [.ok 0] ∧
      t.bitsWritten s.unit = s.bitsWritten s.unit ++ List.replicate (w.count.toNat % 8) false ∧
      t.bitsWritten s.unit = bytesBits (t.delivered s.unit) ∧ t.writerOf s.unit = some ⟨0x00#8, 8#4⟩ ∧
      t.writerOk s.unit)

/-- R185, R64: a READFROM whose peer has the bits ahead moves exactly the first `nbits` of them to the end of the buffer,
whatever the two alignments. -/
def Obligations.ReadFromMovesTheStream : Prop :=
  ∀ (s : State) (p : UnitId) (n : U64), p ≠ s.unit → s.kindOf s.unit = some .buffer → s.writerOk s.unit →
    s.readerOk p → n.toNat ≤ (s.bitsAhead p).length →
    ∃ l t, exec (.readfrom p n) s = .next t ∧ t.results = s.results ++ [.ok 0] ∧ l.length = n.toNat ∧
      s.bitsAhead p = l ++ t.bitsAhead p ∧ t.bitsWritten s.unit = s.bitsWritten s.unit ++ l ∧
      t.readerOk p ∧ t.writerOk s.unit

/-- R190, R64: a WRITETO whose buffer has the bits ahead moves exactly the first `nbits` of them to a peer whose sink
acknowledges, whatever the two alignments. -/
def Obligations.WriteToMovesTheStream : Prop :=
  ∀ (s : State) (p : UnitId) (n : U64), p ≠ s.unit → s.kindOf s.unit = some .buffer → s.readerOk s.unit →
    s.writerOk p → n.toNat ≤ (s.bitsAhead s.unit).length →
    ∃ l t, exec (.writeto p n) s = .next t ∧ t.results = s.results ++ [.ok 0] ∧ l.length = n.toNat ∧
      s.bitsAhead s.unit = l ++ t.bitsAhead s.unit ∧ t.bitsWritten p = s.bitsWritten p ++ l ∧
      t.readerOk s.unit ∧ t.writerOk p

/-- R188 (c), R192 (b): a transfer of more bits than are ahead, at a stream that then answers `Eof`: where exactly the last
bit of the final chunk is missing it succeeds and the chunk arrives with a zero bit before the bits read; otherwise it
fails with `EOF` and the context of the read. -/
def Obligations.TransferAtTheEndOfTheStream : Prop :=
  ∀ (s : State) (p : UnitId) (n : U64), p ≠ s.unit → s.kindOf s.unit = some .buffer →
    (s.writerOk s.unit → s.readerOk p → (s.bitsAhead p).length < n.toNat → s.thenAnswers p = some .eof →
      ∃ t, exec (.readfrom p n) s = .next t ∧
        if n.toNat = (s.bitsAhead p).length + 1 ∧ n.toNat % 8 ≠ 0 then
          t.results = s.results ++ [.ok 0] ∧
          t.bitsWritten s.unit = s.bitsWritten s.unit ++ (s.bitsAhead p).take (n.toNat / 8 * 8) ++
            false :: (s.bitsAhead p).drop (n.toNat / 8 * 8)
        else t.results = s.results ++ [.fail ⟨.eof, .readFromSource, 0#16⟩]) ∧
    (s.readerOk s.unit → s.writerOk p → (s.bitsAhead s.unit).length < n.toNat →
      ∃ t, exec (.writeto p n) s = .next t ∧
        if n.toNat = (s.bitsAhead s.unit).length + 1 ∧ n.toNat % 8 ≠ 0 then
          t.results = s.results ++ [.ok 0] ∧
          t.bitsWritten p = s.bitsWritten p ++ (s.bitsAhead s.unit).take (n.toNat / 8 * 8) ++
            false :: (s.bitsAhead s.unit).drop (n.toNat / 8 * 8)
        else t.results = s.results ++ [.fail ⟨.eof, .readFromBuffer, 0#16⟩])

/-- R151 (e), R120: on a buffer with nothing to read but what stands queued in its writer, WRITEBITS of `v`, FLUSH, a READBITS
of the bits queued before and a READBITS of `nbits` give `v` back, for every `nbits` up to 64, every value below
`2 ^ nbits` and every bit offset. -/
def Obligations.BufferRoundTrip : Prop :=
  ∀ (s : State) (w : Writer) (v : U64) (nb : Byte),
    s.unitAt s.unit = some (.buffer [] ⟨0x00#8, 0#4⟩ w) → w.ok = true → nb.toNat ≤ 64 → v.toNat < 2 ^ nb.toNat →
    ∃ t₁ t₂ t₃ t₄ x, exec (.writebits v nb) s = .next t₁ ∧ exec .flush t₁ = .next t₂ ∧
      exec (.readbits (BitVec.ofNat 8 (8 - w.count.toNat))) t₂ = .next t₃ ∧ exec (.readbits nb) t₃ = .next t₄ ∧
      t₄.results = s.results ++ [.ok 0, .ok 0, .ok x, .ok v] ∧ valueBits x (8 - w.count.toNat) = w.bits

/-! ### Invariants of every step -/

/-- R128, R156, R211: every step keeps the invariants of all registers, after failed commands too. -/
def Obligations.StepKeepsTheRegisterInvariants : Prop :=
  ∀ s t : State, s.registersOk = true → step s = .next t → t.registersOk = true

/-- Every step keeps the canonical form of the tables. -/
def Obligations.StepKeepsTheCanonicalForm : Prop :=
  ∀ s t : State, s.wf = true → step s = .next t → t.wf = true

/-- R20, R251, R253: no step creates, destroys or rebinds a unit. -/
def Obligations.StepKeepsTheUnitTable : Prop :=
  ∀ s t : State, step s = .next t → t.unitTable = s.unitTable

/-- R40 to R44, R250, R251: over every `UNITS` table the state after power-on meets the invariants, holds exactly the units of
the table, each fresh, and nothing is pending; `State.reset` is that state over the table of log 1. -/
def Obligations.PowerOnStateMeetsTheInvariants : Prop :=
  ∀ table : List (UnitId × UnitSpec),
    (State.powerOn table).registersOk = true ∧ (State.powerOn table).wf = true ∧
    (State.powerOn table).portsAnswer = true ∧
    (∀ u, (State.powerOn table).unitAt u = (table.lookup u).map freshUnit) ∧
    (State.powerOn table).results = [] ∧ (State.powerOn table).commands = [] ∧
    State.reset = State.powerOn Config.units

/-- R233, R271: where the registers meet their invariants and every source and sink answers, every step completes, and both
stay so: a command runs for ever only by a port that never answers. Two kinds of step complete by the model's choice: an
illegal command and a descriptor that is no command's are answered, where R85 lets a model refuse them (log 11), and a step
with no command to issue does nothing (log 4). -/
def Obligations.StepCompletesWhilePortsAnswer : Prop :=
  ∀ s : State, s.registersOk = true → s.portsAnswer = true →
    ∃ t, step s = .next t ∧ t.registersOk = true ∧ t.portsAnswer = true

/-- Two canonical states that read alike are one. -/
def Obligations.CanonicalStatesThatReadAlikeAreEqual : Prop :=
  ∀ s t : State, s.wf = true → t.wf = true → (∀ u, s.unitAt u = t.unitAt u) → (∀ k, s.source k = t.source k) →
    (∀ k, s.sink k = t.sink k) → s.unit = t.unit → s.results = t.results → s.commands = t.commands → s = t

/-! ### Frames -/

/-- R171, R29, R237: what READBIT, READBYTE, READBITS and RRESET leave alone: every other unit, the writer half and its sink, every
source but the unit's own; of a BUFFER's store only bytes at the front go. -/
def Obligations.ReaderCommandFrame : Prop :=
  ∀ (i : Instr) (s t : State), readerCommand i = true → exec i s = .next t →
    (∀ v, v ≠ s.unit → t.unitAt v = s.unitAt v) ∧ t.writerOf s.unit = s.writerOf s.unit ∧ t.sinks = s.sinks ∧
    (∀ k, s.sourceNameOf s.unit ≠ some k → t.source k = s.source k) ∧
    (∃ n, t.storeOf s.unit = (s.storeOf s.unit).map (List.drop n)) ∧
    t.commands = s.commands ∧ t.unit = s.unit ∧ ∃ r, t.results = s.results ++ [r]

/-- R171, R29, R237: what WRITEBIT, WRITEBYTE, WRITEBITS and FLUSH leave alone: every other unit, the reader half and its source,
every sink but the unit's own; a BUFFER's store keeps its bytes and only grows at the back. -/
def Obligations.WriterCommandFrame : Prop :=
  ∀ (i : Instr) (s t : State), writerCommand i = true → exec i s = .next t →
    (∀ v, v ≠ s.unit → t.unitAt v = s.unitAt v) ∧ t.readerOf s.unit = s.readerOf s.unit ∧ t.sources = s.sources ∧
    (∀ k, s.sinkNameOf s.unit ≠ some k → t.sink k = s.sink k) ∧
    (∃ l, t.storeOf s.unit = (s.storeOf s.unit).map (· ++ l)) ∧
    t.commands = s.commands ∧ t.unit = s.unit ∧ ∃ r, t.results = s.results ++ [r]

/-- R185, R190, R237: what a transfer leaves alone: every third unit; of READFROM the buffer's reader, the peer's writer and
every sink; of WRITETO the buffer's writer, which is not flushed, the peer's reader and every source; every stream but
the peer's own; a store read from loses bytes at its front only, a store written to grows at its back only. -/
def Obligations.TransferFrame : Prop :=
  ∀ (s t : State) (p : UnitId) (n : U64),
    (exec (.readfrom p n) s = .next t →
      (∀ v, v ≠ s.unit → v ≠ p → t.unitAt v = s.unitAt v) ∧ t.readerOf s.unit = s.readerOf s.unit ∧
      t.writerOf p = s.writerOf p ∧ t.sinks = s.sinks ∧
      (∀ k, s.sourceNameOf p ≠ some k → t.source k = s.source k) ∧
      (p ≠ s.unit → ∃ j, t.storeOf p = (s.storeOf p).map (List.drop j)) ∧
      (∃ l, t.storeOf s.unit = (s.storeOf s.unit).map (· ++ l)) ∧
      t.commands = s.commands ∧ t.unit = s.unit ∧ ∃ r, t.results = s.results ++ [r]) ∧
    (exec (.writeto p n) s = .next t →
      (∀ v, v ≠ s.unit → v ≠ p → t.unitAt v = s.unitAt v) ∧ t.writerOf s.unit = s.writerOf s.unit ∧
      t.readerOf p = s.readerOf p ∧ t.sources = s.sources ∧
      (∀ k, s.sinkNameOf p ≠ some k → t.sink k = s.sink k) ∧
      (p ≠ s.unit → ∃ l, t.storeOf p = (s.storeOf p).map (· ++ l)) ∧
      (∃ j, t.storeOf s.unit = (s.storeOf s.unit).map (List.drop j)) ∧
      t.commands = s.commands ∧ t.unit = s.unit ∧ ∃ r, t.results = s.results ++ [r])

/-- R199, R201, R205, R237: what COPY and BRESET leave alone: every unit but the one written, the original of a COPY included, and
every source and sink. -/
def Obligations.CopyAndBresetFrame : Prop :=
  ∀ s t : State,
    (∀ p, exec (.copy p) s = .next t →
      (∀ v, v ≠ p → t.unitAt v = s.unitAt v) ∧ t.sources = s.sources ∧ t.sinks = s.sinks ∧
      t.commands = s.commands ∧ t.unit = s.unit ∧ ∃ r, t.results = s.results ++ [r]) ∧
    (exec .breset s = .next t →
      (∀ v, v ≠ s.unit → t.unitAt v = s.unitAt v) ∧ t.sources = s.sources ∧ t.sinks = s.sinks ∧
      t.commands = s.commands ∧ t.unit = s.unit ∧ ∃ r, t.results = s.results ++ [r])

/-! ### The ports -/

/-- R52, R58, R59, R60: an external source answers the next planned answer, and once none is planned what follows the plan,
the open oracle applied to the history where that is open (log 2); no answer comes only where none ever does (log 6). One
pull moves the unit's own source on by that answer, or takes the oldest byte of its store, and nothing else; a store answers
`Eof` when it is empty, its oldest byte otherwise. -/
def Obligations.PullMovesTheSourceOn : Prop :=
  (∀ (s : State) (u : UnitId),
    (∀ k, s.sourceNameOf u = some k →
      (s.sourceAnswer u = none ↔ (s.source k).planned = [] ∧ (s.source k).after = .never)) ∧
    (∀ l, s.storeOf u = some l → s.sourceAnswer u ≠ none)) ∧
  ∀ (s : State) (u : UnitId) (a : SrcResp), s.sourceAnswer u = some a →
    (∀ k, s.sourceNameOf u = some k →
      (∀ x plan, (s.source k).planned = x :: plan → a = x) ∧
      ((s.source k).planned = [] → ∀ x, (s.source k).after = .always x → a = x) ∧
      ((s.source k).planned = [] → (s.source k).after = .free → a = Config.sourceAnswer k (s.source k).pulls) ∧
      (s.afterPull u a).source k =
        { planned := (s.source k).planned.tail, after := (s.source k).after, pulls := (s.source k).pulls ++ [a] } ∧
      (∀ j, j ≠ k → (s.afterPull u a).source j = s.source j) ∧ (s.afterPull u a).units = s.units) ∧
    (∀ l, s.storeOf u = some l →
      (l = [] → a = .eof) ∧ (∀ b rest, l = b :: rest → a = .byte b) ∧ (s.afterPull u a).storeOf u = some l.tail ∧
      (s.afterPull u a).sources = s.sources) ∧
    (∀ v, (s.afterPull u a).readerOf v = s.readerOf v ∧ (s.afterPull u a).writerOf v = s.writerOf v) ∧
    (∀ v, v ≠ u → (s.afterPull u a).unitAt v = s.unitAt v) ∧ (s.afterPull u a).sinks = s.sinks

/-- R55, R58, R59, R61: an external sink answers the next planned answer, whatever the byte, and once none is planned what
follows the plan, the open oracle applied to the history and the byte where that is open (log 2); no answer comes only where
none ever does (log 6). One push moves the unit's own sink on by the byte and that answer, or appends the byte to its store,
which always acknowledges, and nothing else. -/
def Obligations.PushMovesTheSinkOn : Prop :=
  (∀ (s : State) (u : UnitId) (b : Byte),
    (∀ k, s.sinkNameOf u = some k →
      (s.sinkAnswer u b = none ↔ (s.sink k).planned = [] ∧ (s.sink k).after = .never)) ∧
    (∀ l, s.storeOf u = some l → s.sinkAnswer u b ≠ none)) ∧
  ∀ (s : State) (u : UnitId) (b : Byte) (a : SinkResp), s.sinkAnswer u b = some a →
    (∀ k, s.sinkNameOf u = some k →
      (∀ x plan, (s.sink k).planned = x :: plan → a = x) ∧
      ((s.sink k).planned = [] → ∀ x, (s.sink k).after = .always x → a = x) ∧
      ((s.sink k).planned = [] → (s.sink k).after = .free → a = Config.sinkAnswer k (s.sink k).pushes b) ∧
      (s.afterPush u b a).sink k =
        { planned := (s.sink k).planned.tail, after := (s.sink k).after, pushes := (s.sink k).pushes ++ [(b, a)] } ∧
      (∀ j, j ≠ k → (s.afterPush u b a).sink j = s.sink j) ∧ (s.afterPush u b a).units = s.units) ∧
    (∀ l, s.storeOf u = some l →
      a = .ack ∧ (s.afterPush u b a).storeOf u = some (l ++ [b]) ∧ (s.afterPush u b a).sinks = s.sinks) ∧
    (∀ v, (s.afterPush u b a).readerOf v = s.readerOf v ∧ (s.afterPush u b a).writerOf v = s.writerOf v) ∧
    (∀ v, v ≠ u → (s.afterPush u b a).unitAt v = s.unitAt v) ∧ (s.afterPush u b a).sources = s.sources

/-- R53, R56, R88, R220, R224: the codes of the answers of the ports and of the results, failed ones included: their lines
carry the codes of the cause and of the context, and the underlying error's code where the cause is `IOERR`, else 0. That the
lines R53 and R56 call ignored hold 0 where the core writes an answer out is the model's own form of it. -/
def Obligations.CodesOfPortsAndResults : Prop :=
  (∀ b, portOfSrcResp (.byte b) = (0b00#2, b, 0#16)) ∧ (∀ b, portOfSrcResp (.byteEof b) = (0b01#2, b, 0#16)) ∧
  portOfSrcResp .eof = (0b10#2, 0#8, 0#16) ∧ (∀ e, portOfSrcResp (.err e) = (0b11#2, 0#8, e)) ∧
  (∀ b e, srcRespOfPort 0b00#2 b e = .byte b) ∧ (∀ b e, srcRespOfPort 0b01#2 b e = .byteEof b) ∧
  (∀ b e, srcRespOfPort 0b10#2 b e = .eof) ∧ (∀ b e, srcRespOfPort 0b11#2 b e = .err e) ∧
  (∀ e, sinkRespOfPort 0b00#2 e = some .ack) ∧ (∀ e, sinkRespOfPort 0b01#2 e = some .short) ∧
  (∀ e, sinkRespOfPort 0b10#2 e = none) ∧ (∀ e, sinkRespOfPort 0b11#2 e = some (.nak e)) ∧
  portOfSinkResp .ack = (0b00#2, 0#16) ∧ portOfSinkResp .short = (0b01#2, 0#16) ∧
  (∀ e, portOfSinkResp (.nak e) = (0b11#2, e)) ∧
  (∀ v, (Result.ok v).causeCode = 0#3 ∧ (Result.ok v).ctxCode = 0#3 ∧ (Result.ok v).ecode = 0#16 ∧
    (Result.ok v).data = some v) ∧
  (∀ e, (Result.fail e).causeCode = e.cause.code ∧ (Result.fail e).ctxCode = e.ctx.code ∧
    (e.cause = .ioErr → (Result.fail e).ecode = e.ecode) ∧ (e.cause ≠ .ioErr → (Result.fail e).ecode = 0#16) ∧
    (Result.fail e).data = none) ∧
  Cause.eof.code = 1#3 ∧ Cause.ioErr.code = 2#3 ∧ Cause.shortWrite.code = 3#3 ∧ Cause.illegal.code = 4#3 ∧
  Ctx.none.code = 0#3 ∧ Ctx.readFromSource.code = 1#3 ∧ Ctx.writeToBuffer.code = 2#3 ∧
  Ctx.readFromBuffer.code = 3#3 ∧ Ctx.writeToSink.code = 4#3

/-! ### Failures -/

/-- R222, R224, R191, R187, R210: with which causes and contexts each legal command can fail; a failure that is no `IOERR` has the
error code 0. RRESET, COPY and BRESET cannot fail. -/
def Obligations.CausesByCommand : Prop :=
  ∀ (i : Instr) (s t : State) (e : Failure), s.Legal i → exec i s = .next t → t.results = s.results ++ [.fail e] →
    (e.cause ≠ .ioErr → e.ecode = 0#16) ∧
    match i with
    | .readbit => (e.cause = .eof ∨ e.cause = .ioErr) ∧ e.ctx = .none
    | .readbyte => (e.cause = .eof ∨ e.cause = .ioErr) ∧ e.ctx = .none
    | .readbits _ => (e.cause = .eof ∨ e.cause = .ioErr) ∧ e.ctx = .none
    | .rreset => False
    | .writebit _ => (e.cause = .ioErr ∨ e.cause = .shortWrite) ∧ e.ctx = .none
    | .writebyte _ => (e.cause = .ioErr ∨ e.cause = .shortWrite) ∧ e.ctx = .none
    | .writebits _ _ => (e.cause = .ioErr ∨ e.cause = .shortWrite) ∧ e.ctx = .none
    | .flush => (e.cause = .ioErr ∨ e.cause = .shortWrite) ∧ e.ctx = .none
    | .readfrom _ _ => (e.cause = .eof ∨ e.cause = .ioErr) ∧ e.ctx = .readFromSource
    | .writeto _ _ =>
      (e.cause = .eof ∧ e.ctx = .readFromBuffer) ∨
      ((e.cause = .ioErr ∨ e.cause = .shortWrite) ∧ e.ctx = .writeToSink)
    | .copy _ => False
    | .breset => False

/-- R182: on a BUFFER's own ports a reader command that is accepted fails only with `EOF`, and a writer command never. -/
def Obligations.BufferPortsFailOnlyWithEof : Prop :=
  ∀ (i : Instr) (s t : State) (e : Failure), s.kindOf s.unit = some .buffer → s.Legal i → exec i s = .next t →
    t.results = s.results ++ [.fail e] →
    (readerCommand i = true → e.cause = .eof) ∧ writerCommand i = false

/-- R127, R143, R147: a READBIT, READBYTE, WRITEBIT or WRITEBYTE that fails leaves every unit as it was. It rests on the
spec's decision D9 (log 5). -/
def Obligations.FailedStepsKeepTheRegisters : Prop :=
  ∀ (i : Instr) (s t : State) (e : Failure),
    (i = .readbit ∨ i = .readbyte ∨ (∃ bit, i = .writebit bit) ∨ ∃ byt, i = .writebyte byt) →
    exec i s = .next t → t.results = s.results ++ [.fail e] → ∀ v, t.unitAt v = s.unitAt v

/-- Where the four single steps stop: a port that never answers (U10, log 6) and a count no rule gives a meaning (V9,
log 7). -/
def Obligations.WhereSingleStepsStop : Prop :=
  ∀ s : State,
    (∀ r, s.readerOf s.unit = some r →
      (9 ≤ r.count.toNat →
        exec .readbit s = .fault .readerCountReserved ∧ exec .readbyte s = .fault .readerCountReserved) ∧
      (r.count.toNat ≤ 8 → s.sourceAnswer s.unit = none → exec .readbyte s = .fault .sourceNeverAnswers) ∧
      (r.count = 0#4 → s.sourceAnswer s.unit = none → exec .readbit s = .fault .sourceNeverAnswers)) ∧
    (∀ w bit byt, s.writerOf s.unit = some w →
      (w.count = 0#4 ∨ 9 ≤ w.count.toNat →
        exec (.writebit bit) s = .fault .writerCountReserved ∧
        exec (.writebyte byt) s = .fault .writerCountReserved) ∧
      (1 ≤ w.count.toNat → w.count.toNat ≤ 8 → (∀ b, s.sinkAnswer s.unit b = none) →
        exec (.writebyte byt) s = .fault .sinkNeverAnswers) ∧
      (w.count = 1#4 → (∀ b, s.sinkAnswer s.unit b = none) →
        exec (.writebit bit) s = .fault .sinkNeverAnswers))

/-! ### Identities and isolation -/

/-- R29: a READWRITER is four registers and their bindings, accepts the union of both contracts, and neither half reads or
writes the other: a reader command gives the same outcome whatever the writer half holds and leaves it as it is, a writer
command whatever the reader half holds. -/
def Obligations.ReadWriterHalvesAreIndependent : Prop :=
  (∀ i : Instr, accepts .readWriter i = (accepts .reader i || accepts .writer i)) ∧
  ∀ (s : State) (src : StreamName) (r : Reader) (snk : StreamName) (w : Writer),
    s.unitAt s.unit = some (.readWriter src r snk w) →
    (∀ i, readerCommand i = true →
      (∀ w', exec i (s.setWriter s.unit w') = mapNext (·.setWriter s.unit w') (exec i s)) ∧
      ∀ t, exec i s = .next t → t.writerOf s.unit = some w) ∧
    (∀ i, writerCommand i = true →
      (∀ r', exec i (s.setReader s.unit r') = mapNext (·.setReader s.unit r') (exec i s)) ∧
      ∀ t, exec i s = .next t → t.readerOf s.unit = some r)

/-- R148 (e): over a sink that acknowledges, WRITEBYTE is eight WRITEBITs, the most significant bit first. -/
def Obligations.WriteByteIsEightWriteBits : Prop :=
  ∀ (s : State) (byt : Byte), s.writerOk s.unit →
    ∃ t, exec (.writebyte byt) s = .next (t.answer (.ok 0)) ∧ pseudoWriteList s.unit (bitsOf byt) s = .done 0 t

/-- R90: FLUSH is `count mod 8` times WRITEBIT 0, whatever the sink answers. -/
def Obligations.FlushIsWriteBitsOfZero : Prop :=
  ∀ (s : State) (w : Writer), s.writerOf s.unit = some w → 1 ≤ w.count.toNat → w.count.toNat ≤ 8 →
    exec .flush s = conclude (pseudoWriteList s.unit (List.replicate (w.count.toNat % 8) false) s)

/-- R270, R59: how many bytes each of the twelve commands takes from its supply and delivers to its sink when every step
succeeds. A transfer takes and delivers as READBITS and WRITEBITS of its whole length, which is what READBYTE and WRITEBYTE of
the whole bytes and READBITS and WRITEBITS of the rest come to, since the byte commands keep the counts (R116, R146). -/
def Obligations.TransactionCounts : Prop :=
  (∀ (s t : State) (r : Reader), s.readerOf s.unit = some r → r.ok = true →
    (1 ≤ (s.bitsAhead s.unit).length → exec .readbit s = .next t →
      t.supply s.unit = (s.supply s.unit).drop (if r.count = 0#4 then 1 else 0) ∧ t.sinks = s.sinks) ∧
    (8 ≤ (s.bitsAhead s.unit).length → exec .readbyte s = .next t →
      t.supply s.unit = (s.supply s.unit).drop 1 ∧ t.sinks = s.sinks) ∧
    (∀ nb, nb.toNat ≤ 64 → nb.toNat ≤ (s.bitsAhead s.unit).length → exec (.readbits nb) s = .next t →
      t.supply s.unit =
        (s.supply s.unit).drop (nb.toNat / 8 + if r.count.toNat < nb.toNat % 8 then 1 else 0) ∧
      t.sinks = s.sinks)) ∧
  (∀ s t : State, exec .rreset s = .next t →
    t.sources = s.sources ∧ t.sinks = s.sinks ∧ ∀ v, t.storeOf v = s.storeOf v) ∧
  (∀ (s t : State) (w : Writer), s.writerOf s.unit = some w → w.ok = true → s.acks s.unit = true →
    (∀ bit, exec (.writebit bit) s = .next t →
      (t.delivered s.unit).length = ((s.delivered s.unit).length + if w.count = 1#4 then 1 else 0) ∧
      t.sources = s.sources) ∧
    (∀ byt, exec (.writebyte byt) s = .next t →
      (t.delivered s.unit).length = (s.delivered s.unit).length + 1 ∧ t.sources = s.sources) ∧
    (∀ v nb, nb.toNat ≤ 64 → exec (.writebits v nb) s = .next t →
      (t.delivered s.unit).length = ((s.delivered s.unit).length +
        (nb.toNat / 8 + if w.count.toNat ≤ nb.toNat % 8 then 1 else 0)) ∧ t.sources = s.sources) ∧
    (exec .flush s = .next t →
      (t.delivered s.unit).length = ((s.delivered s.unit).length + if w.count.toNat < 8 then 1 else 0) ∧
      t.sources = s.sources)) ∧
  (∀ (s t : State) (p : UnitId) (n : U64) (r : Reader) (w : Writer), p ≠ s.unit → s.kindOf s.unit = some .buffer →
    (s.readerOf p = some r → r.ok = true → s.writerOf s.unit = some w → w.ok = true →
      n.toNat ≤ (s.bitsAhead p).length → exec (.readfrom p n) s = .next t →
      t.supply p = (s.supply p).drop (n.toNat / 8 + if r.count.toNat < n.toNat % 8 then 1 else 0) ∧
      (t.delivered s.unit).length = ((s.delivered s.unit).length +
        (n.toNat / 8 + if w.count.toNat ≤ n.toNat % 8 then 1 else 0)) ∧ t.sinks = s.sinks) ∧
    (s.readerOf s.unit = some r → r.ok = true → s.writerOf p = some w → w.ok = true → s.acks p = true →
      n.toNat ≤ (s.bitsAhead s.unit).length → exec (.writeto p n) s = .next t →
      t.supply s.unit = (s.supply s.unit).drop (n.toNat / 8 + if r.count.toNat < n.toNat % 8 then 1 else 0) ∧
      (t.delivered p).length = ((s.delivered p).length +
        (n.toNat / 8 + if w.count.toNat ≤ n.toNat % 8 then 1 else 0)) ∧ t.sources = s.sources)) ∧
  (∀ (s t : State) (p : UnitId), exec (.copy p) s = .next t → t.sources = s.sources ∧ t.sinks = s.sinks) ∧
  (∀ (s t : State) (w : Writer), s.kindOf s.unit = some .buffer → s.writerOf s.unit = some w → w.ok = true →
    exec .breset s = .next t →
    t.sources = s.sources ∧ t.sinks = s.sinks ∧
    ∃ m, exec .flush s = .next m ∧
      (m.delivered s.unit).length = ((s.delivered s.unit).length + if w.count.toNat < 8 then 1 else 0) ∧
      t = (m.setStore s.unit []).setReader s.unit ⟨0x00#8, 0#4⟩)

/-- R44, R250: the power-on reset of the block gives every unit, at its bindings, the registers and the store of R40 to R43,
clears the results, and leaves the sources, the sinks and the host's commands. -/
def Obligations.PowerOnResetIsFresh : Prop :=
  ∀ s : State,
    (∀ u, s.powerOnReset.unitAt u =
      match s.unitAt u with
      | none => none
      | some (.reader src _) => some (.reader src ⟨0x00#8, 0#4⟩)
      | some (.writer snk _) => some (.writer snk ⟨0x00#8, 8#4⟩)
      | some (.readWriter src _ snk _) => some (.readWriter src ⟨0x00#8, 0#4⟩ snk ⟨0x00#8, 8#4⟩)
      | some (.buffer _ _ _) => some (.buffer [] ⟨0x00#8, 0#4⟩ ⟨0x00#8, 8#4⟩)) ∧
    s.powerOnReset.unitTable = s.unitTable ∧ s.powerOnReset.results = [] ∧ s.powerOnReset.sources = s.sources ∧
    s.powerOnReset.sinks = s.sinks ∧ s.powerOnReset.commands = s.commands ∧ s.powerOnReset.registersOk = true

end
end

