-- ==== Sys2Proof/Laws/Table.lean ====
section
/-!
SUPPORT. The laws of tables: reading after writing, and the canonical form that every operation keeps.
-/

namespace Sys2Proof.Machine

variable {α : Type}

@[simp] theorem Table.find_nil (k : BitVec 16) : Table.find k ([] : Table α) = none := rfl

/-! ### Reading after writing -/

theorem Table.find_put_same (k : BitVec 16) (v : α) (t : Table α) : Table.find k (Table.put k v t) = some v := by
  induction t with
  | nil => simp [Table.put, Table.find]
  | cons e t ih =>
    obtain ⟨k', v'⟩ := e
    by_cases h : k = k' <;> by_cases h' : k < k' <;> simp [Table.put, Table.find, h, h', ih]

theorem Table.find_put_other {j k : BitVec 16} (h : j ≠ k) (v : α) (t : Table α) :
    Table.find j (Table.put k v t) = Table.find j t := by
  induction t with
  | nil => simp [Table.put, Table.find, h]
  | cons e t ih =>
    obtain ⟨k', v'⟩ := e
    by_cases hk : k = k'
    · subst hk; simp [Table.put, Table.find, h]
    · by_cases h' : k < k' <;> simp [Table.put, Table.find, hk, h', h, ih]

theorem Table.find_modify_same (k : BitVec 16) (f : α → α) (t : Table α) :
    Table.find k (Table.modify k f t) = (Table.find k t).map f := by
  induction t with
  | nil => rfl
  | cons e t ih =>
    obtain ⟨k', v'⟩ := e
    by_cases h : k = k' <;> simp [Table.modify, Table.find, h, ih]

theorem Table.find_modify_other {j k : BitVec 16} (h : j ≠ k) (f : α → α) (t : Table α) :
    Table.find j (Table.modify k f t) = Table.find j t := by
  induction t with
  | nil => rfl
  | cons e t ih =>
    obtain ⟨k', v'⟩ := e
    by_cases hk : k = k'
    · subst hk; simp [Table.modify, Table.find, h]
    · simp [Table.modify, Table.find, hk, ih]

theorem Table.find_erase_same (k : BitVec 16) (t : Table α) : Table.find k (Table.erase k t) = none := by
  induction t with
  | nil => rfl
  | cons e t ih =>
    obtain ⟨k', v'⟩ := e
    by_cases h : k = k' <;> simp [Table.erase, Table.find, h] <;> simpa [h] using ih

theorem Table.find_erase_other {j k : BitVec 16} (h : j ≠ k) (t : Table α) :
    Table.find j (Table.erase k t) = Table.find j t := by
  induction t with
  | nil => rfl
  | cons e t ih =>
    obtain ⟨k', v'⟩ := e
    by_cases hk : k = k'
    · subst hk; simp [Table.erase, Table.find, h, ih]
    · simp [Table.erase, Table.find, hk, ih]

@[simp] theorem Table.read_write_same [DecidableEq α] (d : α) (k : BitVec 16) (v : α) (t : Table α) :
    Table.read d k (Table.write d k v t) = v := by
  by_cases h : v = d <;> simp [Table.read, Table.write, h, Table.find_erase_same, Table.find_put_same]

theorem Table.read_write_other [DecidableEq α] (d : α) {j k : BitVec 16} (h : j ≠ k) (v : α) (t : Table α) :
    Table.read d j (Table.write d k v t) = Table.read d j t := by
  by_cases hv : v = d <;> simp [Table.read, Table.write, hv, Table.find_erase_other h, Table.find_put_other h]

/-! ### The canonical form -/

theorem Table.above_modify (j k : BitVec 16) (f : α → α) (t : Table α) :
    Table.above j (Table.modify k f t) = Table.above j t := by
  induction t with
  | nil => rfl
  | cons e t ih =>
    obtain ⟨k', v'⟩ := e
    by_cases h : k = k' <;> simp_all [Table.modify, Table.above]

theorem Table.rising_modify (k : BitVec 16) (f : α → α) (t : Table α) :
    Table.rising (Table.modify k f t) = Table.rising t := by
  induction t with
  | nil => rfl
  | cons e t ih =>
    obtain ⟨k', v'⟩ := e
    by_cases h : k = k' <;> simp [Table.modify, Table.rising, h, ih, Table.above_modify]

theorem Table.above_trans {i j : BitVec 16} (h : i < j) {t : Table α} (ht : Table.above j t = true) :
    Table.above i t = true := by
  simp only [Table.above, List.all_eq_true, decide_eq_true_eq] at ht ⊢
  exact fun e he => BitVec.lt_trans h (ht e he)

theorem Table.above_put {j k : BitVec 16} (h : j < k) (v : α) {t : Table α} (ht : Table.above j t = true) :
    Table.above j (Table.put k v t) = true := by
  induction t with
  | nil => simpa [Table.put, Table.above] using h
  | cons e t ih =>
    obtain ⟨k', v'⟩ := e
    simp only [Table.above, List.all_cons, Bool.and_eq_true, decide_eq_true_eq] at ht ih ⊢
    unfold Table.put
    split
    · simp only [List.all_cons, Bool.and_eq_true, decide_eq_true_eq]
      exact ⟨h, ht.2⟩
    · split
      · simp only [List.all_cons, Bool.and_eq_true, decide_eq_true_eq]
        exact ⟨h, ht⟩
      · simp only [List.all_cons, Bool.and_eq_true, decide_eq_true_eq]
        exact ⟨ht.1, ih ht.2⟩

theorem Table.rising_put (k : BitVec 16) (v : α) {t : Table α} (ht : Table.rising t = true) :
    Table.rising (Table.put k v t) = true := by
  induction t with
  | nil => rfl
  | cons e t ih =>
    obtain ⟨k', v'⟩ := e
    simp only [Table.rising, Bool.and_eq_true] at ht
    by_cases hk : k = k'
    · subst hk; simp [Table.put, Table.rising, ht]
    · by_cases h' : k < k'
      · have hk' : Table.above k ((k', v') :: t) = true := by
          simpa only [Table.above, List.all_cons, Bool.and_eq_true, decide_eq_true_eq]
            using And.intro h' (Table.above_trans h' ht.1)
        simp only [Table.put, hk, h', if_false, if_true, Table.rising, hk', ht, Bool.and_self]
      · have hlt : k' < k := by
          have := BitVec.not_lt.mp h'
          exact BitVec.lt_of_le_ne this (Ne.symm hk)
        simp [Table.put, Table.rising, hk, h', ih ht.2, Table.above_put hlt v ht.1]

theorem Table.above_erase {j : BitVec 16} (k : BitVec 16) {t : Table α} (ht : Table.above j t = true) :
    Table.above j (Table.erase k t) = true := by
  induction t with
  | nil => rfl
  | cons e t ih =>
    obtain ⟨k', v'⟩ := e
    simp only [Table.above, List.all_cons, Bool.and_eq_true, decide_eq_true_eq] at ht ih ⊢
    unfold Table.erase
    split
    · exact ih ht.2
    · simp only [List.all_cons, Bool.and_eq_true, decide_eq_true_eq]
      exact ⟨ht.1, ih ht.2⟩

theorem Table.rising_erase (k : BitVec 16) {t : Table α} (ht : Table.rising t = true) :
    Table.rising (Table.erase k t) = true := by
  induction t with
  | nil => rfl
  | cons e t ih =>
    obtain ⟨k', v'⟩ := e
    simp only [Table.rising, Bool.and_eq_true] at ht
    by_cases hk : k = k'
    · simp [Table.erase, hk]; simpa [hk] using ih ht.2
    · simp [Table.erase, Table.rising, hk, ih ht.2, Table.above_erase k ht.1]

theorem Table.rising_write [DecidableEq α] (d : α) (k : BitVec 16) (v : α) {t : Table α} (ht : Table.rising t = true) :
    Table.rising (Table.write d k v t) = true := by
  by_cases h : v = d <;> simp [Table.write, h, Table.rising_erase k ht, Table.rising_put k v ht]

/-- A property of entries that holds of `v` and of every entry holds of every entry once `v` is put in. -/
theorem Table.all_put (P : α → Bool) (k : BitVec 16) {v : α} (hv : P v = true) {t : Table α}
    (ht : t.all (fun e => P e.2) = true) : (Table.put k v t).all (fun e => P e.2) = true := by
  induction t with
  | nil => simpa [Table.put] using hv
  | cons e t ih =>
    obtain ⟨k', v'⟩ := e
    simp only [List.all_cons, Bool.and_eq_true] at ht
    unfold Table.put
    split
    · simp only [List.all_cons, Bool.and_eq_true]
      exact ⟨hv, ht.2⟩
    · split
      · simp only [List.all_cons, Bool.and_eq_true]
        exact ⟨hv, ht⟩
      · simp only [List.all_cons, Bool.and_eq_true]
        exact ⟨ht.1, ih ht.2⟩

theorem Table.all_erase (P : α → Bool) (k : BitVec 16) {t : Table α}
    (ht : t.all (fun e => P e.2) = true) : (Table.erase k t).all (fun e => P e.2) = true := by
  induction t with
  | nil => rfl
  | cons e t ih =>
    obtain ⟨k', v'⟩ := e
    simp only [List.all_cons, Bool.and_eq_true] at ht
    by_cases hk : k = k'
    · simpa [Table.erase, hk] using (by simpa [hk] using ih ht.2)
    · simp [Table.erase, hk, ht.1, ih ht.2]

theorem Table.all_write [DecidableEq α] (P : α → Bool) (d : α) (k : BitVec 16) {v : α} (hv : P v = true) {t : Table α}
    (ht : t.all (fun e => P e.2) = true) : (Table.write d k v t).all (fun e => P e.2) = true := by
  by_cases h : v = d
  · simpa [Table.write, h] using Table.all_erase P k ht
  · simpa [Table.write, h] using Table.all_put P k hv ht

/-- A property of entries that `f` keeps at the entry it changes is kept by `modify`. -/
theorem Table.all_modify (P : α → Bool) (k : BitVec 16) (f : α → α) {t : Table α}
    (ht : t.all (fun e => P e.2) = true)
    (hf : ∀ x, Table.find k t = some x → P x = true → P (f x) = true) :
    (Table.modify k f t).all (fun e => P e.2) = true := by
  induction t with
  | nil => rfl
  | cons e t ih =>
    obtain ⟨k', v'⟩ := e
    simp only [List.all_cons, Bool.and_eq_true] at ht
    by_cases hk : k = k'
    · simp only [Table.modify, hk, if_true, List.all_cons, Bool.and_eq_true]
      exact ⟨hf v' (by simp [Table.find, hk]) ht.1, ht.2⟩
    · simp only [Table.modify, hk, if_false, List.all_cons, Bool.and_eq_true]
      exact ⟨ht.1, ih ht.2 fun x hx => hf x (by simpa [Table.find, hk] using hx)⟩

theorem Table.trimmed_write [DecidableEq α] (d : α) (k : BitVec 16) (v : α) {t : Table α}
    (ht : Table.trimmed d t = true) : Table.trimmed d (Table.write d k v t) = true := by
  by_cases h : v = d
  · simpa [Table.write, h, Table.trimmed] using Table.all_erase (fun x => x ≠ d) k ht
  · simpa [Table.write, h, Table.trimmed] using Table.all_put (fun x => x ≠ d) k (by simpa using h) ht

/-- What `find` gives has every property that all entries have. -/
theorem Table.find_all (P : α → Bool) {k : BitVec 16} {x : α} {t : Table α}
    (ht : t.all (fun e => P e.2) = true) (h : Table.find k t = some x) : P x = true := by
  induction t with
  | nil => simp at h
  | cons e t ih =>
    obtain ⟨k', v'⟩ := e
    simp only [List.all_cons, Bool.and_eq_true] at ht
    by_cases hk : k = k'
    · simp only [Table.find, hk, if_true, Option.some.injEq] at h
      exact h ▸ ht.1
    · exact ih ht.2 (by simpa [Table.find, hk] using h)

/-- Names and entries stay in place under `modify`, up to what `f` changes. -/
theorem Table.map_modify {β : Type} (g : α → β) (k : BitVec 16) {f : α → α} (hf : ∀ x, g (f x) = g x) (t : Table α) :
    (Table.modify k f t).map (fun e => (e.1, g e.2)) = t.map (fun e => (e.1, g e.2)) := by
  induction t with
  | nil => rfl
  | cons e t ih =>
    obtain ⟨k', v'⟩ := e
    by_cases hk : k = k' <;> simp [Table.modify, hk, hf, ih]

end Sys2Proof.Machine
end

