-- ==== Sys2Proof/Laws/State.lean ====
section
/-!
SUPPORT. What each update of the state changes and what it leaves: one lemma per field and update, and per reading accessor
and update, so that no later proof unfolds a record update.
-/

namespace Sys2Proof.Machine

/-! ### One unit -/

@[simp] theorem BitUnit.kind_setReader (x : BitUnit) (r : Reader) : (x.setReader r).kind = x.kind := by cases x <;> rfl

@[simp] theorem BitUnit.spec_setReader (x : BitUnit) (r : Reader) : (x.setReader r).spec = x.spec := by cases x <;> rfl

@[simp] theorem BitUnit.reader_setReader_self (x : BitUnit) (r : Reader) :
    (x.setReader r).reader? = x.reader?.map fun _ => r := by cases x <;> rfl

@[simp] theorem BitUnit.writer_setReader (x : BitUnit) (r : Reader) : (x.setReader r).writer? = x.writer? := by cases x <;> rfl

@[simp] theorem BitUnit.store_setReader (x : BitUnit) (r : Reader) : (x.setReader r).store? = x.store? := by cases x <;> rfl

@[simp] theorem BitUnit.kind_setWriter (x : BitUnit) (w : Writer) : (x.setWriter w).kind = x.kind := by cases x <;> rfl

@[simp] theorem BitUnit.spec_setWriter (x : BitUnit) (w : Writer) : (x.setWriter w).spec = x.spec := by cases x <;> rfl

@[simp] theorem BitUnit.reader_setWriter (x : BitUnit) (w : Writer) : (x.setWriter w).reader? = x.reader? := by cases x <;> rfl

@[simp] theorem BitUnit.writer_setWriter_self (x : BitUnit) (w : Writer) :
    (x.setWriter w).writer? = x.writer?.map fun _ => w := by cases x <;> rfl

@[simp] theorem BitUnit.store_setWriter (x : BitUnit) (w : Writer) : (x.setWriter w).store? = x.store? := by cases x <;> rfl

@[simp] theorem BitUnit.kind_setStore (x : BitUnit) (l : List Byte) : (x.setStore l).kind = x.kind := by cases x <;> rfl

@[simp] theorem BitUnit.spec_setStore (x : BitUnit) (l : List Byte) : (x.setStore l).spec = x.spec := by cases x <;> rfl

@[simp] theorem BitUnit.reader_setStore (x : BitUnit) (l : List Byte) : (x.setStore l).reader? = x.reader? := by cases x <;> rfl

@[simp] theorem BitUnit.writer_setStore (x : BitUnit) (l : List Byte) : (x.setStore l).writer? = x.writer? := by cases x <;> rfl

@[simp] theorem BitUnit.store_setStore_self (x : BitUnit) (l : List Byte) :
    (x.setStore l).store? = x.store?.map fun _ => l := by cases x <;> rfl

/-! ### The fields of the state under each update -/

@[simp] theorem State.sources_updateUnit (s : State) (u : UnitId) (f : BitUnit → BitUnit) : (s.updateUnit u f).sources = s.sources := rfl

@[simp] theorem State.sinks_updateUnit (s : State) (u : UnitId) (f : BitUnit → BitUnit) : (s.updateUnit u f).sinks = s.sinks := rfl

@[simp] theorem State.unit_updateUnit (s : State) (u : UnitId) (f : BitUnit → BitUnit) : (s.updateUnit u f).unit = s.unit := rfl

@[simp] theorem State.results_updateUnit (s : State) (u : UnitId) (f : BitUnit → BitUnit) : (s.updateUnit u f).results = s.results := rfl

@[simp] theorem State.commands_updateUnit (s : State) (u : UnitId) (f : BitUnit → BitUnit) : (s.updateUnit u f).commands = s.commands := rfl

@[simp] theorem State.sources_setReader (s : State) (u : UnitId) (r : Reader) : (s.setReader u r).sources = s.sources := rfl

@[simp] theorem State.sinks_setReader (s : State) (u : UnitId) (r : Reader) : (s.setReader u r).sinks = s.sinks := rfl

@[simp] theorem State.unit_setReader (s : State) (u : UnitId) (r : Reader) : (s.setReader u r).unit = s.unit := rfl

@[simp] theorem State.results_setReader (s : State) (u : UnitId) (r : Reader) : (s.setReader u r).results = s.results := rfl

@[simp] theorem State.commands_setReader (s : State) (u : UnitId) (r : Reader) : (s.setReader u r).commands = s.commands := rfl

@[simp] theorem State.sources_setWriter (s : State) (u : UnitId) (w : Writer) : (s.setWriter u w).sources = s.sources := rfl

@[simp] theorem State.sinks_setWriter (s : State) (u : UnitId) (w : Writer) : (s.setWriter u w).sinks = s.sinks := rfl

@[simp] theorem State.unit_setWriter (s : State) (u : UnitId) (w : Writer) : (s.setWriter u w).unit = s.unit := rfl

@[simp] theorem State.results_setWriter (s : State) (u : UnitId) (w : Writer) : (s.setWriter u w).results = s.results := rfl

@[simp] theorem State.commands_setWriter (s : State) (u : UnitId) (w : Writer) : (s.setWriter u w).commands = s.commands := rfl

@[simp] theorem State.sources_setStore (s : State) (u : UnitId) (l : List Byte) : (s.setStore u l).sources = s.sources := rfl

@[simp] theorem State.sinks_setStore (s : State) (u : UnitId) (l : List Byte) : (s.setStore u l).sinks = s.sinks := rfl

@[simp] theorem State.unit_setStore (s : State) (u : UnitId) (l : List Byte) : (s.setStore u l).unit = s.unit := rfl

@[simp] theorem State.results_setStore (s : State) (u : UnitId) (l : List Byte) : (s.setStore u l).results = s.results := rfl

@[simp] theorem State.commands_setStore (s : State) (u : UnitId) (l : List Byte) : (s.setStore u l).commands = s.commands := rfl

@[simp] theorem State.units_setSource (s : State) (k : StreamName) (x : Source) : (s.setSource k x).units = s.units := rfl

@[simp] theorem State.sinks_setSource (s : State) (k : StreamName) (x : Source) : (s.setSource k x).sinks = s.sinks := rfl

@[simp] theorem State.unit_setSource (s : State) (k : StreamName) (x : Source) : (s.setSource k x).unit = s.unit := rfl

@[simp] theorem State.results_setSource (s : State) (k : StreamName) (x : Source) : (s.setSource k x).results = s.results := rfl

@[simp] theorem State.commands_setSource (s : State) (k : StreamName) (x : Source) : (s.setSource k x).commands = s.commands := rfl

@[simp] theorem State.units_setSink (s : State) (k : StreamName) (x : Sink) : (s.setSink k x).units = s.units := rfl

@[simp] theorem State.sources_setSink (s : State) (k : StreamName) (x : Sink) : (s.setSink k x).sources = s.sources := rfl

@[simp] theorem State.unit_setSink (s : State) (k : StreamName) (x : Sink) : (s.setSink k x).unit = s.unit := rfl

@[simp] theorem State.results_setSink (s : State) (k : StreamName) (x : Sink) : (s.setSink k x).results = s.results := rfl

@[simp] theorem State.commands_setSink (s : State) (k : StreamName) (x : Sink) : (s.setSink k x).commands = s.commands := rfl

@[simp] theorem State.units_answer (s : State) (r : Result) : (s.answer r).units = s.units := rfl

@[simp] theorem State.sources_answer (s : State) (r : Result) : (s.answer r).sources = s.sources := rfl

@[simp] theorem State.sinks_answer (s : State) (r : Result) : (s.answer r).sinks = s.sinks := rfl

@[simp] theorem State.unit_answer (s : State) (r : Result) : (s.answer r).unit = s.unit := rfl

@[simp] theorem State.commands_answer (s : State) (r : Result) : (s.answer r).commands = s.commands := rfl

@[simp] theorem State.units_raise (s : State) (e : Failure) : (s.raise e).units = s.units := rfl

@[simp] theorem State.sources_raise (s : State) (e : Failure) : (s.raise e).sources = s.sources := rfl

@[simp] theorem State.sinks_raise (s : State) (e : Failure) : (s.raise e).sinks = s.sinks := rfl

@[simp] theorem State.unit_raise (s : State) (e : Failure) : (s.raise e).unit = s.unit := rfl

@[simp] theorem State.commands_raise (s : State) (e : Failure) : (s.raise e).commands = s.commands := rfl

@[simp] theorem State.results_answer (s : State) (r : Result) : (s.answer r).results = s.results ++ [r] := rfl

@[simp] theorem State.results_raise (s : State) (e : Failure) : (s.raise e).results = s.results ++ [.fail e] := rfl

/-! ### The units under each update -/

@[simp] theorem State.unitAt_updateUnit_same (s : State) (u : UnitId) (f : BitUnit → BitUnit) :
    (s.updateUnit u f).unitAt u = (s.unitAt u).map f := Table.find_modify_same u f s.units

theorem State.unitAt_updateUnit_other (s : State) {u v : UnitId} (h : v ≠ u) (f : BitUnit → BitUnit) :
    (s.updateUnit u f).unitAt v = s.unitAt v := Table.find_modify_other h f s.units

/-- What `g` reads of the unit `v` is left by an update of the unit `u` that no unit shows to `g`. -/
theorem State.read_updateUnit {β : Type} (g : BitUnit → β) {f : BitUnit → BitUnit} (hf : ∀ x, g (f x) = g x)
    (s : State) (u v : UnitId) : ((s.updateUnit u f).unitAt v).map g = (s.unitAt v).map g := by
  by_cases h : v = u
  · subst h; cases hx : s.unitAt v <;> simp [hx, hf]
  · rw [State.unitAt_updateUnit_other s h]

theorem State.bind_updateUnit {β : Type} (g : BitUnit → Option β) {f : BitUnit → BitUnit} (hf : ∀ x, g (f x) = g x)
    (s : State) (u v : UnitId) : ((s.updateUnit u f).unitAt v).bind g = (s.unitAt v).bind g := by
  by_cases h : v = u
  · subst h; cases hx : s.unitAt v <;> simp [hx, hf]
  · rw [State.unitAt_updateUnit_other s h]

@[simp] theorem State.unitAt_setReader_same (s : State) (u : UnitId) (r : Reader) :
    (s.setReader u r).unitAt u = (s.unitAt u).map (BitUnit.setReader r) := State.unitAt_updateUnit_same s u _

theorem State.unitAt_setReader_other (s : State) {u v : UnitId} (h : v ≠ u) (r : Reader) :
    (s.setReader u r).unitAt v = s.unitAt v := State.unitAt_updateUnit_other s h _

@[simp] theorem State.readerOf_setReader_same (s : State) (u : UnitId) (r : Reader) :
    (s.setReader u r).readerOf u = (s.readerOf u).map fun _ => r := by
  cases hx : s.unitAt u <;> simp [State.readerOf, hx]

theorem State.readerOf_setReader_other (s : State) {u v : UnitId} (h : v ≠ u) (r : Reader) :
    (s.setReader u r).readerOf v = s.readerOf v := by simp [State.readerOf, State.unitAt_setReader_other s h]

@[simp] theorem State.writerOf_setReader (s : State) (u : UnitId) (r : Reader) (v : UnitId) :
    (s.setReader u r).writerOf v = s.writerOf v := State.bind_updateUnit _ (by simp) s u v

@[simp] theorem State.storeOf_setReader (s : State) (u : UnitId) (r : Reader) (v : UnitId) :
    (s.setReader u r).storeOf v = s.storeOf v := State.bind_updateUnit _ (by simp) s u v

@[simp] theorem State.kindOf_setReader (s : State) (u : UnitId) (r : Reader) (v : UnitId) :
    (s.setReader u r).kindOf v = s.kindOf v := State.read_updateUnit _ (by simp) s u v

@[simp] theorem State.unitTable_setReader (s : State) (u : UnitId) (r : Reader) : (s.setReader u r).unitTable = s.unitTable :=
  Table.map_modify _ u (by simp) s.units

@[simp] theorem State.source_setReader (s : State) (u : UnitId) (r : Reader) (k : StreamName) : (s.setReader u r).source k = s.source k := rfl

@[simp] theorem State.sink_setReader (s : State) (u : UnitId) (r : Reader) (k : StreamName) : (s.setReader u r).sink k = s.sink k := rfl

@[simp] theorem State.unitAt_setWriter_same (s : State) (u : UnitId) (w : Writer) :
    (s.setWriter u w).unitAt u = (s.unitAt u).map (BitUnit.setWriter w) := State.unitAt_updateUnit_same s u _

theorem State.unitAt_setWriter_other (s : State) {u v : UnitId} (h : v ≠ u) (w : Writer) :
    (s.setWriter u w).unitAt v = s.unitAt v := State.unitAt_updateUnit_other s h _

@[simp] theorem State.readerOf_setWriter (s : State) (u : UnitId) (w : Writer) (v : UnitId) :
    (s.setWriter u w).readerOf v = s.readerOf v := State.bind_updateUnit _ (by simp) s u v

@[simp] theorem State.writerOf_setWriter_same (s : State) (u : UnitId) (w : Writer) :
    (s.setWriter u w).writerOf u = (s.writerOf u).map fun _ => w := by
  cases hx : s.unitAt u <;> simp [State.writerOf, hx]

theorem State.writerOf_setWriter_other (s : State) {u v : UnitId} (h : v ≠ u) (w : Writer) :
    (s.setWriter u w).writerOf v = s.writerOf v := by simp [State.writerOf, State.unitAt_setWriter_other s h]

@[simp] theorem State.storeOf_setWriter (s : State) (u : UnitId) (w : Writer) (v : UnitId) :
    (s.setWriter u w).storeOf v = s.storeOf v := State.bind_updateUnit _ (by simp) s u v

@[simp] theorem State.kindOf_setWriter (s : State) (u : UnitId) (w : Writer) (v : UnitId) :
    (s.setWriter u w).kindOf v = s.kindOf v := State.read_updateUnit _ (by simp) s u v

@[simp] theorem State.unitTable_setWriter (s : State) (u : UnitId) (w : Writer) : (s.setWriter u w).unitTable = s.unitTable :=
  Table.map_modify _ u (by simp) s.units

@[simp] theorem State.source_setWriter (s : State) (u : UnitId) (w : Writer) (k : StreamName) : (s.setWriter u w).source k = s.source k := rfl

@[simp] theorem State.sink_setWriter (s : State) (u : UnitId) (w : Writer) (k : StreamName) : (s.setWriter u w).sink k = s.sink k := rfl

@[simp] theorem State.unitAt_setStore_same (s : State) (u : UnitId) (l : List Byte) :
    (s.setStore u l).unitAt u = (s.unitAt u).map (BitUnit.setStore l) := State.unitAt_updateUnit_same s u _

theorem State.unitAt_setStore_other (s : State) {u v : UnitId} (h : v ≠ u) (l : List Byte) :
    (s.setStore u l).unitAt v = s.unitAt v := State.unitAt_updateUnit_other s h _

@[simp] theorem State.readerOf_setStore (s : State) (u : UnitId) (l : List Byte) (v : UnitId) :
    (s.setStore u l).readerOf v = s.readerOf v := State.bind_updateUnit _ (by simp) s u v

@[simp] theorem State.writerOf_setStore (s : State) (u : UnitId) (l : List Byte) (v : UnitId) :
    (s.setStore u l).writerOf v = s.writerOf v := State.bind_updateUnit _ (by simp) s u v

@[simp] theorem State.storeOf_setStore_same (s : State) (u : UnitId) (l : List Byte) :
    (s.setStore u l).storeOf u = (s.storeOf u).map fun _ => l := by
  cases hx : s.unitAt u <;> simp [State.storeOf, hx]

theorem State.storeOf_setStore_other (s : State) {u v : UnitId} (h : v ≠ u) (l : List Byte) :
    (s.setStore u l).storeOf v = s.storeOf v := by simp [State.storeOf, State.unitAt_setStore_other s h]

@[simp] theorem State.kindOf_setStore (s : State) (u : UnitId) (l : List Byte) (v : UnitId) :
    (s.setStore u l).kindOf v = s.kindOf v := State.read_updateUnit _ (by simp) s u v

@[simp] theorem State.unitTable_setStore (s : State) (u : UnitId) (l : List Byte) : (s.setStore u l).unitTable = s.unitTable :=
  Table.map_modify _ u (by simp) s.units

@[simp] theorem State.source_setStore (s : State) (u : UnitId) (l : List Byte) (k : StreamName) : (s.setStore u l).source k = s.source k := rfl

@[simp] theorem State.sink_setStore (s : State) (u : UnitId) (l : List Byte) (k : StreamName) : (s.setStore u l).sink k = s.sink k := rfl

/-! ### The reading accessors under the updates that leave the units -/

@[simp] theorem State.unitAt_setSource (s : State) (k : StreamName) (x : Source) (v : UnitId) : (s.setSource k x).unitAt v = s.unitAt v := rfl

@[simp] theorem State.readerOf_setSource (s : State) (k : StreamName) (x : Source) (v : UnitId) : (s.setSource k x).readerOf v = s.readerOf v := rfl

@[simp] theorem State.writerOf_setSource (s : State) (k : StreamName) (x : Source) (v : UnitId) : (s.setSource k x).writerOf v = s.writerOf v := rfl

@[simp] theorem State.storeOf_setSource (s : State) (k : StreamName) (x : Source) (v : UnitId) : (s.setSource k x).storeOf v = s.storeOf v := rfl

@[simp] theorem State.kindOf_setSource (s : State) (k : StreamName) (x : Source) (v : UnitId) : (s.setSource k x).kindOf v = s.kindOf v := rfl

@[simp] theorem State.unitTable_setSource (s : State) (k : StreamName) (x : Source) : (s.setSource k x).unitTable = s.unitTable := rfl

@[simp] theorem State.sink_setSource (s : State) (k : StreamName) (x : Source) (j : StreamName) : (s.setSource k x).sink j = s.sink j := rfl

@[simp] theorem State.unitAt_setSink (s : State) (k : StreamName) (x : Sink) (v : UnitId) : (s.setSink k x).unitAt v = s.unitAt v := rfl

@[simp] theorem State.readerOf_setSink (s : State) (k : StreamName) (x : Sink) (v : UnitId) : (s.setSink k x).readerOf v = s.readerOf v := rfl

@[simp] theorem State.writerOf_setSink (s : State) (k : StreamName) (x : Sink) (v : UnitId) : (s.setSink k x).writerOf v = s.writerOf v := rfl

@[simp] theorem State.storeOf_setSink (s : State) (k : StreamName) (x : Sink) (v : UnitId) : (s.setSink k x).storeOf v = s.storeOf v := rfl

@[simp] theorem State.kindOf_setSink (s : State) (k : StreamName) (x : Sink) (v : UnitId) : (s.setSink k x).kindOf v = s.kindOf v := rfl

@[simp] theorem State.unitTable_setSink (s : State) (k : StreamName) (x : Sink) : (s.setSink k x).unitTable = s.unitTable := rfl

@[simp] theorem State.source_setSink (s : State) (k : StreamName) (x : Sink) (j : StreamName) : (s.setSink k x).source j = s.source j := rfl

@[simp] theorem State.unitAt_answer (s : State) (r : Result) (v : UnitId) : (s.answer r).unitAt v = s.unitAt v := rfl

@[simp] theorem State.readerOf_answer (s : State) (r : Result) (v : UnitId) : (s.answer r).readerOf v = s.readerOf v := rfl

@[simp] theorem State.writerOf_answer (s : State) (r : Result) (v : UnitId) : (s.answer r).writerOf v = s.writerOf v := rfl

@[simp] theorem State.storeOf_answer (s : State) (r : Result) (v : UnitId) : (s.answer r).storeOf v = s.storeOf v := rfl

@[simp] theorem State.kindOf_answer (s : State) (r : Result) (v : UnitId) : (s.answer r).kindOf v = s.kindOf v := rfl

@[simp] theorem State.unitTable_answer (s : State) (r : Result) : (s.answer r).unitTable = s.unitTable := rfl

@[simp] theorem State.source_answer (s : State) (r : Result) (j : StreamName) : (s.answer r).source j = s.source j := rfl

@[simp] theorem State.sink_answer (s : State) (r : Result) (j : StreamName) : (s.answer r).sink j = s.sink j := rfl

@[simp] theorem State.unitAt_raise (s : State) (e : Failure) (v : UnitId) : (s.raise e).unitAt v = s.unitAt v := rfl

@[simp] theorem State.readerOf_raise (s : State) (e : Failure) (v : UnitId) : (s.raise e).readerOf v = s.readerOf v := rfl

@[simp] theorem State.writerOf_raise (s : State) (e : Failure) (v : UnitId) : (s.raise e).writerOf v = s.writerOf v := rfl

@[simp] theorem State.storeOf_raise (s : State) (e : Failure) (v : UnitId) : (s.raise e).storeOf v = s.storeOf v := rfl

@[simp] theorem State.kindOf_raise (s : State) (e : Failure) (v : UnitId) : (s.raise e).kindOf v = s.kindOf v := rfl

@[simp] theorem State.unitTable_raise (s : State) (e : Failure) : (s.raise e).unitTable = s.unitTable := rfl

@[simp] theorem State.source_raise (s : State) (e : Failure) (j : StreamName) : (s.raise e).source j = s.source j := rfl

@[simp] theorem State.sink_raise (s : State) (e : Failure) (j : StreamName) : (s.raise e).sink j = s.sink j := rfl

@[simp] theorem State.source_setSource_same (s : State) (k : StreamName) (x : Source) : (s.setSource k x).source k = x :=
  Table.read_write_same _ k x s.sources

theorem State.source_setSource_other (s : State) {j k : StreamName} (h : j ≠ k) (x : Source) :
    (s.setSource k x).source j = s.source j := Table.read_write_other _ h x s.sources

@[simp] theorem State.sink_setSink_same (s : State) (k : StreamName) (x : Sink) : (s.setSink k x).sink k = x :=
  Table.read_write_same _ k x s.sinks

theorem State.sink_setSink_other (s : State) {j k : StreamName} (h : j ≠ k) (x : Sink) :
    (s.setSink k x).sink j = s.sink j := Table.read_write_other _ h x s.sinks

/-- The unit `v` is the same in the two states, up to what its accessors read. -/
theorem State.readers_of_unitAt {s t : State} {v : UnitId} (h : t.unitAt v = s.unitAt v) :
    t.readerOf v = s.readerOf v ∧ t.writerOf v = s.writerOf v ∧ t.storeOf v = s.storeOf v ∧ t.kindOf v = s.kindOf v := by
  simp [State.readerOf, State.writerOf, State.storeOf, State.kindOf, h]

end Sys2Proof.Machine
end

