-- ==== Sys2Proof/Laws/Ports.lean ====
section
/-!
SUPPORT. The two ports: what one pull and one push can do (R52, R55, R60, R61), said once; later proofs cite these and
do not unfold `afterPull` and `afterPush`.
-/

namespace Sys2Proof.Machine

/-! ### A pull -/

/-- A pull moves on the external source the unit is bound to, or takes the oldest byte of its store, or, on a unit without
a reader, does nothing. -/
theorem State.afterPull_cases (s : State) (u : UnitId) (a : SrcResp) :
    (∃ k, s.sourceNameOf u = some k ∧ s.afterPull u a = s.setSource k ((s.source k).answered a)) ∨
    (∃ l, s.storeOf u = some l ∧ s.afterPull u a = s.setStore u l.tail) ∨
    (s.readerOf u = none ∧ s.afterPull u a = s) := by
  rcases h : s.unitAt u with _ | (_ | _ | _ | _) <;>
    simp [State.afterPull, State.sourceNameOf, State.storeOf, State.readerOf, BitUnit.store?, BitUnit.reader?, h]

@[simp] theorem State.readerOf_afterPull (s : State) (u : UnitId) (a : SrcResp) (v : UnitId) :
    (s.afterPull u a).readerOf v = s.readerOf v := by
  obtain ⟨k, -, h⟩ | ⟨l, -, h⟩ | ⟨-, h⟩ := s.afterPull_cases u a <;> simp [h]

@[simp] theorem State.writerOf_afterPull (s : State) (u : UnitId) (a : SrcResp) (v : UnitId) :
    (s.afterPull u a).writerOf v = s.writerOf v := by
  obtain ⟨k, -, h⟩ | ⟨l, -, h⟩ | ⟨-, h⟩ := s.afterPull_cases u a <;> simp [h]

@[simp] theorem State.kindOf_afterPull (s : State) (u : UnitId) (a : SrcResp) (v : UnitId) :
    (s.afterPull u a).kindOf v = s.kindOf v := by
  obtain ⟨k, -, h⟩ | ⟨l, -, h⟩ | ⟨-, h⟩ := s.afterPull_cases u a <;> simp [h]

@[simp] theorem State.unitTable_afterPull (s : State) (u : UnitId) (a : SrcResp) :
    (s.afterPull u a).unitTable = s.unitTable := by
  obtain ⟨k, -, h⟩ | ⟨l, -, h⟩ | ⟨-, h⟩ := s.afterPull_cases u a <;> simp [h]

@[simp] theorem State.sinks_afterPull (s : State) (u : UnitId) (a : SrcResp) : (s.afterPull u a).sinks = s.sinks := by
  obtain ⟨k, -, h⟩ | ⟨l, -, h⟩ | ⟨-, h⟩ := s.afterPull_cases u a <;> simp [h]

@[simp] theorem State.sink_afterPull (s : State) (u : UnitId) (a : SrcResp) (k : StreamName) :
    (s.afterPull u a).sink k = s.sink k := by simp [State.sink]

@[simp] theorem State.unit_afterPull (s : State) (u : UnitId) (a : SrcResp) : (s.afterPull u a).unit = s.unit := by
  obtain ⟨k, -, h⟩ | ⟨l, -, h⟩ | ⟨-, h⟩ := s.afterPull_cases u a <;> simp [h]

@[simp] theorem State.results_afterPull (s : State) (u : UnitId) (a : SrcResp) :
    (s.afterPull u a).results = s.results := by
  obtain ⟨k, -, h⟩ | ⟨l, -, h⟩ | ⟨-, h⟩ := s.afterPull_cases u a <;> simp [h]

@[simp] theorem State.commands_afterPull (s : State) (u : UnitId) (a : SrcResp) :
    (s.afterPull u a).commands = s.commands := by
  obtain ⟨k, -, h⟩ | ⟨l, -, h⟩ | ⟨-, h⟩ := s.afterPull_cases u a <;> simp [h]

theorem State.unitAt_afterPull_other (s : State) {u v : UnitId} (h : v ≠ u) (a : SrcResp) :
    (s.afterPull u a).unitAt v = s.unitAt v := by
  obtain ⟨k, -, h'⟩ | ⟨l, -, h'⟩ | ⟨-, h'⟩ := s.afterPull_cases u a <;> simp [h', State.unitAt_setStore_other s h]

theorem State.source_afterPull_other (s : State) {u : UnitId} {k : StreamName} (h : s.sourceNameOf u ≠ some k)
    (a : SrcResp) : (s.afterPull u a).source k = s.source k := by
  obtain ⟨j, hj, h'⟩ | ⟨l, -, h'⟩ | ⟨-, h'⟩ := s.afterPull_cases u a
  · have : k ≠ j := fun e => h (e ▸ hj)
    simp [h', State.source_setSource_other s this]
  · simp [h']
  · simp [h']

/-- `SrcPull` answers what the source answers and leaves the state after the pull, or the source never answers. -/
theorem srcPull_eq (u : UnitId) (s : State) :
    (∃ a, s.sourceAnswer u = some a ∧ srcPull u s = .done a (s.afterPull u a)) ∨
    (s.sourceAnswer u = none ∧ srcPull u s = .stuck .sourceNeverAnswers) := by
  cases h : s.sourceAnswer u <;> simp [srcPull, h]

/-! ### A push -/

/-- A push moves on the external sink the unit is bound to, or appends to its store, or, on a unit without a writer, does
nothing. -/
theorem State.afterPush_cases (s : State) (u : UnitId) (b : Byte) (a : SinkResp) :
    (∃ k, s.sinkNameOf u = some k ∧ s.afterPush u b a = s.setSink k ((s.sink k).answered b a)) ∨
    (∃ l, s.storeOf u = some l ∧ s.afterPush u b a = s.setStore u (l ++ [b])) ∨
    (s.writerOf u = none ∧ s.afterPush u b a = s) := by
  rcases h : s.unitAt u with _ | (_ | _ | _ | _) <;>
    simp [State.afterPush, State.sinkNameOf, State.storeOf, State.writerOf, BitUnit.store?, BitUnit.writer?, h]

@[simp] theorem State.readerOf_afterPush (s : State) (u : UnitId) (b : Byte) (a : SinkResp) (v : UnitId) :
    (s.afterPush u b a).readerOf v = s.readerOf v := by
  obtain ⟨k, -, h⟩ | ⟨l, -, h⟩ | ⟨-, h⟩ := s.afterPush_cases u b a <;> simp [h]

@[simp] theorem State.writerOf_afterPush (s : State) (u : UnitId) (b : Byte) (a : SinkResp) (v : UnitId) :
    (s.afterPush u b a).writerOf v = s.writerOf v := by
  obtain ⟨k, -, h⟩ | ⟨l, -, h⟩ | ⟨-, h⟩ := s.afterPush_cases u b a <;> simp [h]

@[simp] theorem State.kindOf_afterPush (s : State) (u : UnitId) (b : Byte) (a : SinkResp) (v : UnitId) :
    (s.afterPush u b a).kindOf v = s.kindOf v := by
  obtain ⟨k, -, h⟩ | ⟨l, -, h⟩ | ⟨-, h⟩ := s.afterPush_cases u b a <;> simp [h]

@[simp] theorem State.unitTable_afterPush (s : State) (u : UnitId) (b : Byte) (a : SinkResp) :
    (s.afterPush u b a).unitTable = s.unitTable := by
  obtain ⟨k, -, h⟩ | ⟨l, -, h⟩ | ⟨-, h⟩ := s.afterPush_cases u b a <;> simp [h]

@[simp] theorem State.sources_afterPush (s : State) (u : UnitId) (b : Byte) (a : SinkResp) :
    (s.afterPush u b a).sources = s.sources := by
  obtain ⟨k, -, h⟩ | ⟨l, -, h⟩ | ⟨-, h⟩ := s.afterPush_cases u b a <;> simp [h]

@[simp] theorem State.source_afterPush (s : State) (u : UnitId) (b : Byte) (a : SinkResp) (k : StreamName) :
    (s.afterPush u b a).source k = s.source k := by simp [State.source]

@[simp] theorem State.unit_afterPush (s : State) (u : UnitId) (b : Byte) (a : SinkResp) :
    (s.afterPush u b a).unit = s.unit := by
  obtain ⟨k, -, h⟩ | ⟨l, -, h⟩ | ⟨-, h⟩ := s.afterPush_cases u b a <;> simp [h]

@[simp] theorem State.results_afterPush (s : State) (u : UnitId) (b : Byte) (a : SinkResp) :
    (s.afterPush u b a).results = s.results := by
  obtain ⟨k, -, h⟩ | ⟨l, -, h⟩ | ⟨-, h⟩ := s.afterPush_cases u b a <;> simp [h]

@[simp] theorem State.commands_afterPush (s : State) (u : UnitId) (b : Byte) (a : SinkResp) :
    (s.afterPush u b a).commands = s.commands := by
  obtain ⟨k, -, h⟩ | ⟨l, -, h⟩ | ⟨-, h⟩ := s.afterPush_cases u b a <;> simp [h]

theorem State.unitAt_afterPush_other (s : State) {u v : UnitId} (h : v ≠ u) (b : Byte) (a : SinkResp) :
    (s.afterPush u b a).unitAt v = s.unitAt v := by
  obtain ⟨k, -, h'⟩ | ⟨l, -, h'⟩ | ⟨-, h'⟩ := s.afterPush_cases u b a <;> simp [h', State.unitAt_setStore_other s h]

theorem State.sink_afterPush_other (s : State) {u : UnitId} {k : StreamName} (h : s.sinkNameOf u ≠ some k)
    (b : Byte) (a : SinkResp) : (s.afterPush u b a).sink k = s.sink k := by
  obtain ⟨j, hj, h'⟩ | ⟨l, -, h'⟩ | ⟨-, h'⟩ := s.afterPush_cases u b a
  · have : k ≠ j := fun e => h (e ▸ hj)
    simp [h', State.sink_setSink_other s this]
  · simp [h']
  · simp [h']

/-- The helper `Push` by the answer of the sink: acknowledged, failed, or never answered. -/
theorem push_eq (u : UnitId) (b : Byte) (s : State) :
    (s.sinkAnswer u b = some .ack ∧ push u b s = .done ⟨⟩ (s.afterPush u b .ack)) ∨
    (s.sinkAnswer u b = some .short ∧ push u b s = .fail Failure.short (s.afterPush u b .short)) ∨
    (∃ e, s.sinkAnswer u b = some (.nak e) ∧ push u b s = .fail (Failure.io e) (s.afterPush u b (.nak e))) ∨
    (s.sinkAnswer u b = none ∧ push u b s = .stuck .sinkNeverAnswers) := by
  rcases h : s.sinkAnswer u b with _ | (_ | _ | e) <;> simp [push, sinkPush, Act.bind, h]

end Sys2Proof.Machine
end

