-- ==== Sys2Proof/Laws/Steps.lean ====
section
/-!
SUPPORT. What the steps of a command can do, said once: `Act.All Q x` says that wherever `x` ends, in success or in a raised
failure, it ends in a state with `Q`; each step keeps every `Q` that its own port and register moves keep. Frames and
invariants are instances.
-/

namespace Sys2Proof.Machine

/-- Wherever `x` ends, it ends in a state with `Q`. -/
def Act.All {α : Type} (Q : State → Prop) : Act α → Prop
  | .done _ s => Q s
  | .fail _ s => Q s
  | .stuck _ => True

theorem Act.all_bind {α β : Type} {Q : State → Prop} {x : Act α} {f : α → State → Act β} (hx : x.All Q)
    (hf : ∀ a s, Q s → (f a s).All Q) : (x.bind f).All Q := by
  cases x with
  | done a s => exact hf a s hx
  | fail e s => exact hx
  | stuck r => trivial

theorem Act.all_inContext {α : Type} {Q : State → Prop} {x : Act α} (c : Ctx) (hx : x.All Q) :
    (x.inContext c).All Q := by
  cases x <;> exact hx

theorem Act.all_mono {α : Type} {P Q : State → Prop} {x : Act α} (hx : x.All P) (h : ∀ s, P s → Q s) : x.All Q := by
  cases x with
  | done a s => exact h s hx
  | fail e s => exact h s hx
  | stuck r => trivial

/-- Two continuations that agree wherever `x` ends make the same command. -/
theorem Act.bind_congr {α β : Type} {Q : State → Prop} {x : Act α} {f g : α → State → Act β} (hx : x.All Q)
    (h : ∀ a s, Q s → f a s = g a s) : x.bind f = x.bind g := by
  cases x with
  | done a s => exact h a s hx
  | fail e s => rfl
  | stuck r => rfl

theorem Act.bind_assoc {α β γ : Type} (x : Act α) (f : α → State → Act β) (g : β → State → Act γ) :
    (x.bind f).bind g = x.bind fun a s => (f a s).bind g := by cases x <;> rfl

/-! ### The moves of the registers -/

/-- How a reader's registers can move in one READBIT or READBYTE (R110, R113). -/
inductive ReaderMove (r : Reader) : Reader → Prop where
  | consume (h : r.countLegal = true) (h0 : r.count ≠ 0#4) : ReaderMove r ⟨r.pending <<< 1, r.count - 1#4⟩
  | load (b : Byte) (h0 : r.count = 0#4) : ReaderMove r ⟨b <<< 1, 7#4⟩
  | splice (b : Byte) (h : r.countLegal = true) (h0 : r.count ≠ 0#4) :
      ReaderMove r ⟨b <<< (8 - r.count.toNat), r.count⟩

/-- How a writer's registers can move in one WRITEBIT or WRITEBYTE (R140, R145). -/
inductive WriterMove (w : Writer) : Writer → Prop where
  | slot (bit : Bit) (h : w.countLegal = true) (h1 : w.count ≠ 1#4) : WriterMove w ⟨slotIn w bit, w.count - 1#4⟩
  | complete (h : w.count = 1#4) : WriterMove w Writer.fresh
  | splice (byt : Byte) (h : w.countLegal = true) : WriterMove w ⟨byt <<< w.count.toNat, w.count⟩

/-- `Q` is kept by every pull of the unit `u` and by every move of its reader. -/
structure ReadStable (u : UnitId) (Q : State → Prop) : Prop where
  pull : ∀ s a, Q s → Q (s.afterPull u a)
  move : ∀ s r r', Q s → s.readerOf u = some r → ReaderMove r r' → Q (s.setReader u r')

/-- `Q` is kept by every push of the unit `u` and by every move of its writer. -/
structure WriteStable (u : UnitId) (Q : State → Prop) : Prop where
  push : ∀ s b a, Q s → Q (s.afterPush u b a)
  move : ∀ s w w', Q s → s.writerOf u = some w → WriterMove w w' → Q (s.setWriter u w')

/-! ### The reader's steps -/

theorem readBit_all {u : UnitId} {Q : State → Prop} (h : ReadStable u Q) {s : State} (hs : Q s) :
    (readBit u s).All Q := by
  unfold readBit
  cases hr : s.readerOf u with
  | none => exact hs
  | some r =>
    dsimp only
    split
    · trivial
    · rename_i hl
      have hl : r.countLegal = true := by simpa using hl
      split
      · rename_i h0
        obtain ⟨a, -, hp⟩ | ⟨-, hp⟩ := srcPull_eq u s
        · have hq := h.pull s a hs
          rw [hp]
          cases a with
          | byte b =>
            simpa [Act.bind, consumeBit, Act.All] using h.move _ r _ hq (by simpa using hr) (ReaderMove.load b h0)
          | byteEof b => exact hq
          | eof => exact hq
          | err e => exact hq
        · rw [hp]; trivial
      · rename_i h0
        exact h.move s r _ hs hr (ReaderMove.consume hl h0)

theorem readByte_all {u : UnitId} {Q : State → Prop} (h : ReadStable u Q) {s : State} (hs : Q s) :
    (readByte u s).All Q := by
  unfold readByte
  cases hr : s.readerOf u with
  | none => exact hs
  | some r =>
    dsimp only
    split
    · trivial
    · rename_i hl
      have hl : r.countLegal = true := by simpa using hl
      obtain ⟨a, -, hp⟩ | ⟨-, hp⟩ := srcPull_eq u s
      · have hq := h.pull s a hs
        rw [hp]
        cases a with
        | byte b =>
          by_cases h0 : r.count = 0#4
          · simpa [Act.bind, h0, Act.All] using hq
          · simpa [Act.bind, h0, Act.All] using h.move _ r _ hq (by simpa using hr) (ReaderMove.splice b hl h0)
        | byteEof b => by_cases h0 : r.count = 0#4 <;> simpa [Act.bind, h0, Act.All] using hq
        | eof => exact hq
        | err e => exact hq
      · rw [hp]; trivial

theorem readByteRun_all {u : UnitId} {Q : State → Prop} (h : ReadStable u Q) (k : Nat) (acc : U64) {s : State}
    (hs : Q s) : (readByteRun u k acc s).All Q := by
  induction k generalizing acc s with
  | zero => exact hs
  | succ k ih => exact Act.all_bind (readByte_all h hs) fun b s' hs' => ih _ hs'

theorem shortRead_all {Q : State → Prop} (acc : U64) {x : Act U64} (hx : x.All Q) : (shortRead acc x).All Q := by
  cases x with
  | done a s => exact hx
  | fail e s => by_cases h : e.cause = .eof <;> simpa [shortRead, h, Act.All] using hx
  | stuck r => trivial

theorem readTail_all {u : UnitId} {Q : State → Prop} (h : ReadStable u Q) (n : Nat) (acc : U64) {s : State}
    (hs : Q s) : (readTail u n acc s).All Q := by
  induction n, acc, s using readTail.induct with
  | case1 acc s => exact hs
  | case2 acc s => exact shortRead_all acc (Act.all_bind (readBit_all h hs) fun b s' hs' => hs')
  | case3 n acc s ih => exact Act.all_bind (readBit_all h hs) fun b s' hs' => ih b s' hs'

theorem readBits_all {u : UnitId} {Q : State → Prop} (h : ReadStable u Q) (n : Nat) {s : State} (hs : Q s) :
    (readBits u n s).All Q :=
  Act.all_bind (readByteRun_all h _ _ hs) fun acc _ hs' => readTail_all h _ acc hs'

/-! ### The writer's steps -/

theorem push_all {u : UnitId} {Q : State → Prop} (h : ∀ s b a, Q s → Q (s.afterPush u b a)) (b : Byte) {s : State}
    (hs : Q s) : (push u b s).All Q := by
  obtain ⟨-, hp⟩ | ⟨-, hp⟩ | ⟨e, -, hp⟩ | ⟨-, hp⟩ := push_eq u b s <;> rw [hp]
  · exact h s b _ hs
  · exact h s b _ hs
  · exact h s b _ hs
  · trivial

/-- A push that goes through leaves the state after it, acknowledged. -/
theorem push_done {u : UnitId} {b : Byte} {s s' : State} {x : PUnit} (h : push u b s = .done x s') :
    s' = s.afterPush u b .ack := by
  obtain ⟨-, hp⟩ | ⟨-, hp⟩ | ⟨e, -, hp⟩ | ⟨-, hp⟩ := push_eq u b s <;> rw [hp] at h <;> cases h
  rfl

theorem writeBit_all {u : UnitId} {Q : State → Prop} (h : WriteStable u Q) (bit : Bit) {s : State} (hs : Q s) :
    (writeBit u bit s).All Q := by
  unfold writeBit
  cases hw : s.writerOf u with
  | none => exact hs
  | some w =>
    dsimp only
    split
    · trivial
    · rename_i hl
      have hl : w.countLegal = true := by simpa using hl
      split
      · rename_i h1
        have hq := push_all h.push (slotIn w bit) hs
        cases hp : push u (slotIn w bit) s with
        | done x s' =>
          have hs' := push_done hp
          rw [hp] at hq
          exact h.move s' w _ hq (by simpa [hs'] using hw) (WriterMove.complete h1)
        | fail e s' => rw [hp] at hq; exact hq
        | stuck r => trivial
      · rename_i h1
        exact h.move s w _ hs hw (WriterMove.slot bit hl h1)

theorem writeByte_all {u : UnitId} {Q : State → Prop} (h : WriteStable u Q) (byt : Byte) {s : State} (hs : Q s) :
    (writeByte u byt s).All Q := by
  unfold writeByte
  cases hw : s.writerOf u with
  | none => exact hs
  | some w =>
    dsimp only
    split
    · trivial
    · rename_i hl
      have hl : w.countLegal = true := by simpa using hl
      have hq := push_all h.push (spliceWrite w byt) hs
      cases hp : push u (spliceWrite w byt) s with
      | done x s' =>
        have hs' := push_done hp
        rw [hp] at hq
        exact h.move s' w _ hq (by simpa [hs'] using hw) (WriterMove.splice byt hl)
      | fail e s' => rw [hp] at hq; exact hq
      | stuck r => trivial

theorem writeByteRun_all {u : UnitId} {Q : State → Prop} (h : WriteStable u Q) (v : U64) (t k : Nat) {s : State}
    (hs : Q s) : (writeByteRun u v t k s).All Q := by
  induction k generalizing s with
  | zero => exact hs
  | succ k ih => exact Act.all_bind (writeByte_all h _ hs) fun _ s' hs' => ih hs'

theorem writeTail_all {u : UnitId} {Q : State → Prop} (h : WriteStable u Q) (v : U64) (n : Nat) {s : State}
    (hs : Q s) : (writeTail u v n s).All Q := by
  induction n generalizing s with
  | zero => exact hs
  | succ n ih => exact Act.all_bind (writeBit_all h _ hs) fun _ s' hs' => ih hs'

theorem writeBits_all {u : UnitId} {Q : State → Prop} (h : WriteStable u Q) (v : U64) (n : Nat) {s : State}
    (hs : Q s) : (writeBits u v n s).All Q :=
  Act.all_bind (writeByteRun_all h v _ _ hs) fun _ _ hs' => writeTail_all h v _ hs'

theorem flushLoop_all {u : UnitId} {Q : State → Prop} (h : WriteStable u Q) (n : Nat) {s : State} (hs : Q s) :
    (flushLoop u n s).All Q := by
  induction n generalizing s with
  | zero => exact hs
  | succ n ih =>
    unfold flushLoop
    cases hw : s.writerOf u with
    | none => exact hs
    | some w =>
      dsimp only
      split
      · exact hs
      · exact Act.all_bind (writeBit_all h _ hs) fun _ s' hs' => ih hs'

theorem flush_all {u : UnitId} {Q : State → Prop} (h : WriteStable u Q) {s : State} (hs : Q s) : (flush u s).All Q :=
  flushLoop_all h 8 hs

/-! ### The buffer's steps -/

theorem transferBytes_all {src dst : UnitId} {Q : State → Prop} (hr : ReadStable src Q) (hw : WriteStable dst Q)
    (rc wc : Ctx) (k : Nat) {s : State} (hs : Q s) : (transferBytes rc wc src dst k s).All Q := by
  induction k generalizing s with
  | zero => exact hs
  | succ k ih =>
    refine Act.all_bind (Act.all_inContext rc (readByte_all hr hs)) fun b s' hs' => ?_
    exact Act.all_bind (Act.all_inContext wc (writeByte_all hw b hs')) fun _ s'' hs'' => ih hs''

theorem transfer_all {src dst : UnitId} {Q : State → Prop} (hr : ReadStable src Q) (hw : WriteStable dst Q)
    (rc wc : Ctx) (n : Nat) {s : State} (hs : Q s) : (transfer rc wc src dst n s).All Q := by
  refine Act.all_bind (transferBytes_all hr hw rc wc _ hs) fun _ s' hs' => ?_
  unfold transferChunk
  split
  · exact hs'
  · refine Act.all_bind (Act.all_inContext rc (readBits_all hr _ hs')) fun v s'' hs'' => ?_
    exact Act.all_inContext wc (writeBits_all hw v _ hs'')

/-- `Q` is kept by making the unit `p` an empty buffer and by giving it a store. -/
structure ClearStable (p : UnitId) (Q : State → Prop) : Prop where
  store : ∀ s l, Q s → Q (s.setStore p l)
  reader : ∀ s, Q s → Q (s.setReader p Reader.fresh)
  writer : ∀ s, Q s → Q (s.setWriter p Writer.fresh)

theorem copyStore_all {b p : UnitId} {Q : State → Prop} (h : ClearStable p Q) {s : State} (hs : Q s) :
    (copyStore b p s).All Q := by
  unfold copyStore
  cases s.storeOf b with
  | none => exact hs
  | some l => exact h.writer _ (h.reader _ (h.store s l hs))

theorem resetBuffer_all {b : UnitId} {Q : State → Prop} (hw : WriteStable b Q) (h : ClearStable b Q) {s : State}
    (hs : Q s) : (resetBuffer b s).All Q :=
  Act.all_bind (flush_all hw hs) fun _ s' hs' => h.reader _ (h.store s' [] hs')

end Sys2Proof.Machine
end

