-- ==== Sys2Proof/Laws/Registers.lean ====
section
/-!
SUPPORT. The registers bit by bit: every move of a reader and of a writer keeps its invariant (R128, R156), and moves the
bits R22 and R26 speak of by exactly the bits delivered or accepted.
-/

namespace Sys2Proof.Machine

/-! ### The invariants in terms of bits -/

theorem allOnes_getLsbD (n : Nat) : (0xFF#8).getLsbD n = decide (n < 8) := by
  rw [show (0xFF#8) = BitVec.allOnes 8 from rfl, BitVec.getLsbD_allOnes]

/-- The low `8 - n` bits of a byte are zero. -/
theorem low_zero_iff (p : Byte) (n : Nat) :
    p &&& (0xFF#8 >>> n) = 0#8 ↔ ∀ i, i + n < 8 → p.getLsbD i = false := by
  rw [BitVec.eq_of_getLsbD_eq_iff]
  simp only [BitVec.getLsbD_and, BitVec.getLsbD_ushiftRight, allOnes_getLsbD, BitVec.getLsbD_zero, Bool.and_eq_false_iff,
    decide_eq_false_iff_not]
  constructor
  · intro h i hi
    exact (h i (by omega)).resolve_right (by omega)
  · intro h i hi
    by_cases hn : n + i < 8
    · exact .inl (h i (by omega))
    · exact .inr hn

theorem Reader.ok_iff (r : Reader) :
    r.ok = true ↔ r.count.toNat ≤ 7 ∧ ∀ i, i + r.count.toNat < 8 → r.pending.getLsbD i = false := by
  simp only [Reader.ok, Bool.and_eq_true, decide_eq_true_eq, low_zero_iff]

theorem Writer.ok_iff (w : Writer) :
    w.ok = true ↔ 1 ≤ w.count.toNat ∧ w.count.toNat ≤ 8 ∧ ∀ i, i < w.count.toNat → w.pending.getLsbD i = false := by
  simp only [Writer.ok, Bool.and_eq_true, decide_eq_true_eq, low_zero_iff, and_assoc]
  refine and_congr_right fun h1 => and_congr_right fun h8 => ?_
  exact ⟨fun h i hi => h i (by omega), fun h i hi => h i (by omega)⟩

theorem Reader.countLegal_iff (r : Reader) : r.countLegal = true ↔ r.count.toNat ≤ 8 := by simp [Reader.countLegal]

theorem Writer.countLegal_iff (w : Writer) : w.countLegal = true ↔ 1 ≤ w.count.toNat ∧ w.count.toNat ≤ 8 := by
  simp [Writer.countLegal]

theorem Reader.ok_countLegal {r : Reader} (h : r.ok = true) : r.countLegal = true :=
  (Reader.countLegal_iff r).mpr (by have := ((Reader.ok_iff r).mp h).1; omega)

theorem Writer.ok_countLegal {w : Writer} (h : w.ok = true) : w.countLegal = true :=
  (Writer.countLegal_iff w).mpr ⟨((Writer.ok_iff w).mp h).1, ((Writer.ok_iff w).mp h).2.1⟩

@[simp] theorem Reader.ok_fresh : Reader.fresh.ok = true := by decide

@[simp] theorem Writer.ok_fresh : Writer.fresh.ok = true := by decide

/-! ### Counts -/

theorem count_ne {c d : Count} : c ≠ d ↔ c.toNat ≠ d.toNat := by simp [BitVec.toNat_eq]

theorem count_pred {c : Count} (h : c ≠ 0#4) : (c - 1#4).toNat = c.toNat - 1 := by
  have h0 : c.toNat ≠ 0 := by simpa using count_ne.mp h
  have hc := c.isLt
  simp only [BitVec.toNat_sub, BitVec.toNat_ofNat]
  omega

theorem count_cases (c : Count) (h : c.toNat ≤ 8) :
    c = 0#4 ∨ c = 1#4 ∨ c = 2#4 ∨ c = 3#4 ∨ c = 4#4 ∨ c = 5#4 ∨ c = 6#4 ∨ c = 7#4 ∨ c = 8#4 := by
  revert c; decide

/-! ### Every move keeps the invariant -/

/-- Every move of a reader keeps its invariant (R128). -/
theorem ReaderMove.keeps_ok {r r' : Reader} (h : ReaderMove r r') (hr : r.ok = true) : r'.ok = true := by
  rw [Reader.ok_iff] at hr ⊢
  cases h with
  | consume hl h0 =>
    have hc := count_ne.mp h0
    simp only [count_pred h0, BitVec.getLsbD_shiftLeft, Bool.and_eq_false_iff] at hc ⊢
    refine ⟨by omega, fun i hi => ?_⟩
    by_cases h1 : i < 1
    · simp [h1]
    · exact .inr (hr.2 _ (by simp at hc; omega))
  | load b h0 =>
    refine ⟨by simp, fun i hi => ?_⟩
    have : i = 0 := by simp at hi; omega
    simp [this]
  | splice b hl h0 =>
    refine ⟨hr.1, fun i hi => ?_⟩
    have : i < 8 - r.count.toNat := by simp at hi; omega
    simp [this]

theorem slotIn_getLsbD (w : Writer) (bit : Bool) (i : Nat) :
    (slotIn w bit).getLsbD i =
      (w.pending.getLsbD i || (decide (i < 8) && (decide (i = w.count.toNat - 1) && bit))) := by
  simp only [slotIn, BitVec.getLsbD_or, BitVec.getLsbD_shiftLeft, BitVec.getLsbD_setWidth, BitVec.getLsbD_ofBool]
  congr 1
  by_cases h : i < w.count.toNat - 1
  · simp [h, show i ≠ w.count.toNat - 1 by omega]
  · by_cases h8 : i < 8 <;> by_cases he : i = w.count.toNat - 1
    · simp [he]
    · have : i - (w.count.toNat - 1) ≠ 0 := by omega
      simp [he, this]
    · simp [h8]
    · simp [h8]

/-- Every move of a writer keeps its invariant (R156). -/
theorem WriterMove.keeps_ok {w w' : Writer} (h : WriterMove w w') (hw : w.ok = true) : w'.ok = true := by
  cases h with
  | slot bit hl h1 =>
    rw [Writer.ok_iff] at hw ⊢
    have hne : w.count.toNat ≠ 1 := by simpa using count_ne.mp h1
    have h0 : w.count ≠ 0#4 := count_ne.mpr (by simp; omega)
    simp only [count_pred h0, slotIn_getLsbD]
    refine ⟨by omega, by omega, fun i hi => ?_⟩
    simp [hw.2.2 i (by omega), show i ≠ w.count.toNat - 1 by omega]
  | complete h1 => exact Writer.ok_fresh
  | splice byt hl =>
    rw [Writer.ok_iff] at hw ⊢
    refine ⟨hw.1, hw.2.1, fun i hi => ?_⟩
    have hi' : i < w.count.toNat := hi
    simp [hi']

/-! ### The bits a move delivers or accepts -/

@[simp] theorem bits_fresh_reader : Reader.fresh.bits = [] := by decide

@[simp] theorem bits_fresh_writer : Writer.fresh.bits = [] := by decide

@[simp] theorem length_bitsOf (b : Byte) : (bitsOf b).length = 8 := rfl

/-- A reader whose `count` is 0 has no bits left. -/
theorem bits_aligned_reader {r : Reader} (h : r.count = 0#4) : r.bits = [] := by simp [Reader.bits, h]

/-- A writer whose `count` is 8 has no bits queued. -/
theorem bits_aligned_writer {w : Writer} (h : w.count = 8#4) : w.bits = [] := by simp [Writer.bits, h]

theorem length_reader_bits {r : Reader} (h : r.countLegal = true) : r.bits.length = r.count.toNat := by
  have := (Reader.countLegal_iff r).mp h
  simp [Reader.bits, this]

theorem length_writer_bits {w : Writer} (h : w.countLegal = true) : w.bits.length = 8 - w.count.toNat := by
  have := (Writer.countLegal_iff w).mp h
  simp [Writer.bits]

/-- Consuming takes the first unconsumed bit (R110). -/
theorem bits_consume {r : Reader} (h : r.countLegal = true) (h0 : r.count ≠ 0#4) :
    r.bits = r.pending.msb :: Reader.bits ⟨r.pending <<< 1, r.count - 1#4⟩ := by
  obtain ⟨p, c⟩ := r
  rcases count_cases c ((Reader.countLegal_iff _).mp h) with rfl | rfl | rfl | rfl | rfl | rfl | rfl | rfl | rfl
  · exact absurd rfl h0
  all_goals simp [bitsOf, Reader.bits, BitVec.msb_eq_getLsbD_last]

/-- A freshly pulled byte is all unconsumed; consuming takes its first bit (R110). -/
theorem bits_load (b : Byte) : bitsOf b = b.msb :: Reader.bits ⟨b <<< 1, 7#4⟩ := by
  simp [bitsOf, Reader.bits, BitVec.msb_eq_getLsbD_last]

/-- An unaligned READBYTE delivers the leftover bits and the top of the new byte, and keeps the rest (R113). -/
theorem bits_spliceRead {r : Reader} (h : r.countLegal = true) (h0 : r.count ≠ 0#4) (b : Byte) :
    bitsOf (spliceRead r b) ++ Reader.bits ⟨b <<< (8 - r.count.toNat), r.count⟩ = r.bits ++ bitsOf b := by
  obtain ⟨p, c⟩ := r
  rcases count_cases c ((Reader.countLegal_iff _).mp h) with rfl | rfl | rfl | rfl | rfl | rfl | rfl | rfl | rfl
  · exact absurd rfl h0
  all_goals simp [bitsOf, Reader.bits, spliceRead]

theorem free_slot_zero {p : Byte} {n : Nat} (h : ∀ i, i < n → p.getLsbD i = false) (i : Nat) (hi : i < 8)
    (hn : i < n) : p[i] = false := by
  rw [← BitVec.getLsbD_eq_getElem]; exact h i hn

/-- WRITEBIT queues one bit (R140). -/
theorem bits_slot {w : Writer} (hw : w.ok = true) (h1 : w.count ≠ 1#4) (bit : Bit) :
    Writer.bits ⟨slotIn w bit, w.count - 1#4⟩ = w.bits ++ [bit] := by
  obtain ⟨p, c⟩ := w
  rw [Writer.ok_iff] at hw
  rcases count_cases c hw.2.1 with rfl | rfl | rfl | rfl | rfl | rfl | rfl | rfl | rfl
  · exact absurd hw.1 (by simp)
  · exact absurd rfl h1
  all_goals simp [bitsOf, Writer.bits, slotIn, free_slot_zero hw.2.2]

/-- The WRITEBIT that completes a byte pushes the queued bits and its own (R140). -/
theorem bits_complete {w : Writer} (hw : w.ok = true) (h1 : w.count = 1#4) (bit : Bit) :
    bitsOf (slotIn w bit) = w.bits ++ [bit] := by
  obtain ⟨p, c⟩ := w
  rw [Writer.ok_iff] at hw
  obtain rfl : c = 1#4 := h1
  simp [bitsOf, Writer.bits, slotIn, free_slot_zero hw.2.2]

/-- WRITEBYTE pushes the queued bits and the top of its operand, and queues the rest (R145). -/
theorem bits_spliceWrite {w : Writer} (hw : w.ok = true) (byt : Byte) :
    bitsOf (spliceWrite w byt) ++ Writer.bits ⟨byt <<< w.count.toNat, w.count⟩ = w.bits ++ bitsOf byt := by
  obtain ⟨p, c⟩ := w
  rw [Writer.ok_iff] at hw
  rcases count_cases c hw.2.1 with rfl | rfl | rfl | rfl | rfl | rfl | rfl | rfl | rfl
  · exact absurd hw.1 (by simp)
  all_goals simp [bitsOf, Writer.bits, spliceWrite, free_slot_zero hw.2.2]

end Sys2Proof.Machine
end

