-- ==== Sys2Proof/Laws/Canonical.lean ====
section
/-!
SUPPORT. The canonical form of the three tables: every operation on a state keeps it, and the state after power-on has it
over every `UNITS` table.
-/

namespace Sys2Proof.Machine

theorem State.wf_iff (s : State) :
    s.wf = true ↔ s.units.rising = true ∧ s.sources.rising = true ∧ s.sinks.rising = true ∧
      s.sources.trimmed Source.open = true ∧ s.sinks.trimmed Sink.open = true := by
  simp [State.wf, and_assoc]

/-! ### The operations -/

theorem State.wf_updateUnit {s : State} (h : s.wf = true) (u : UnitId) (f : BitUnit → BitUnit) :
    (s.updateUnit u f).wf = true := by
  rw [State.wf_iff] at h ⊢
  exact ⟨Table.rising_modify u f s.units ▸ h.1, h.2⟩

theorem State.wf_setReader {s : State} (h : s.wf = true) (u : UnitId) (r : Reader) : (s.setReader u r).wf = true :=
  State.wf_updateUnit h u _

theorem State.wf_setWriter {s : State} (h : s.wf = true) (u : UnitId) (w : Writer) : (s.setWriter u w).wf = true :=
  State.wf_updateUnit h u _

theorem State.wf_setStore {s : State} (h : s.wf = true) (u : UnitId) (l : List Byte) : (s.setStore u l).wf = true :=
  State.wf_updateUnit h u _

theorem State.wf_setSource {s : State} (h : s.wf = true) (k : StreamName) (x : Source) : (s.setSource k x).wf = true := by
  rw [State.wf_iff] at h ⊢
  obtain ⟨hu, hs, hk, ts, tk⟩ := h
  exact ⟨hu, Table.rising_write _ k x hs, hk, Table.trimmed_write _ k x ts, tk⟩

theorem State.wf_setSink {s : State} (h : s.wf = true) (k : StreamName) (x : Sink) : (s.setSink k x).wf = true := by
  rw [State.wf_iff] at h ⊢
  obtain ⟨hu, hs, hk, ts, tk⟩ := h
  exact ⟨hu, hs, Table.rising_write _ k x hk, ts, Table.trimmed_write _ k x tk⟩

theorem State.wf_afterPull {s : State} (h : s.wf = true) (u : UnitId) (a : SrcResp) : (s.afterPull u a).wf = true := by
  obtain ⟨k, -, h'⟩ | ⟨l, -, h'⟩ | ⟨-, h'⟩ := s.afterPull_cases u a <;> rw [h']
  · exact State.wf_setSource h _ _
  · exact State.wf_setStore h _ _
  · exact h

theorem State.wf_afterPush {s : State} (h : s.wf = true) (u : UnitId) (b : Byte) (a : SinkResp) :
    (s.afterPush u b a).wf = true := by
  obtain ⟨k, -, h'⟩ | ⟨l, -, h'⟩ | ⟨-, h'⟩ := s.afterPush_cases u b a <;> rw [h']
  · exact State.wf_setSink h _ _
  · exact State.wf_setStore h _ _
  · exact h

@[simp] theorem State.wf_answer (s : State) (r : Result) : (s.answer r).wf = s.wf := rfl

@[simp] theorem State.wf_raise (s : State) (e : Failure) : (s.raise e).wf = s.wf := rfl

@[simp] theorem State.wf_issueNext (s : State) (c : Command) : (s.issueNext c).wf = s.wf := rfl

/-! ### The reset -/

theorem freshUnits_rising (table : List (UnitId × UnitSpec)) : Table.rising (freshUnits table) = true := by
  induction table with
  | nil => rfl
  | cons e table ih => exact Table.rising_put e.1 _ ih

/-- The state after power-on is canonical, whatever the `UNITS` table. -/
theorem State.wf_powerOn (table : List (UnitId × UnitSpec)) : (State.powerOn table).wf = true :=
  (State.wf_iff _).mpr ⟨freshUnits_rising table, rfl, rfl, rfl, rfl⟩

end Sys2Proof.Machine
end

