-- ==== Sys2Proof/Laws/Control.lean ====
section
/-!
SUPPORT. How a command begins and ends: legality (R85), the result (R80, R88), and what a next state of `exec` can be.
-/

namespace Sys2Proof.Machine

/-! ### Legality -/

/-- A legal command: its unit exists and accepts it, its count is in range, its peer is legal (R85). -/
theorem State.legal_iff (s : State) (i : Instr) :
    s.illegal? i = none ↔
      ∃ k, s.kindOf s.unit = some k ∧ accepts k i = true ∧ WellFormed i = true ∧ s.peerLegal i = true := by
  unfold State.illegal?
  cases s.kindOf s.unit with
  | none => simp
  | some k =>
    cases ha : accepts k i <;> cases hw : WellFormed i <;> cases hp : s.peerLegal i <;> simp [ha]

/-- An illegal command does nothing but answer `Fail(ILLEGAL, NONE, 0)`; a legal one runs. -/
theorem State.ifLegal_eq (s : State) (i : Instr) (run : Host.Outcome State Fault Refusal) :
    (s.illegal? i = none ∧ s.ifLegal i run = run) ∨
    (s.illegal? i ≠ none ∧ s.ifLegal i run = .next (s.raise Failure.illegal)) := by
  cases h : s.illegal? i <;> simp [State.ifLegal, h]

theorem State.ifLegal_legal {s : State} {i : Instr} (h : s.illegal? i = none) (run : Host.Outcome State Fault Refusal) :
    s.ifLegal i run = run := by simp [State.ifLegal, h]

theorem State.ifLegal_illegal {s : State} {i : Instr} (h : s.illegal? i ≠ none)
    (run : Host.Outcome State Fault Refusal) : s.ifLegal i run = .next (s.raise Failure.illegal) := by
  cases h' : s.illegal? i with
  | none => exact absurd h' h
  | some r => simp [State.ifLegal, h']

/-- A unit of a readable kind has a reader. -/
theorem State.readerOf_of_kind {s : State} {u : UnitId} {k : UnitKind} (h : s.kindOf u = some k)
    (hk : readable k = true) : ∃ r, s.readerOf u = some r := by
  unfold State.kindOf at h
  rcases hx : s.unitAt u with _ | (_ | _ | _ | _) <;> simp [hx, BitUnit.kind] at h <;> subst h <;>
    simp_all [State.readerOf, BitUnit.reader?, readable]

/-- A unit of a writable kind has a writer. -/
theorem State.writerOf_of_kind {s : State} {u : UnitId} {k : UnitKind} (h : s.kindOf u = some k)
    (hk : writable k = true) : ∃ w, s.writerOf u = some w := by
  unfold State.kindOf at h
  rcases hx : s.unitAt u with _ | (_ | _ | _ | _) <;> simp [hx, BitUnit.kind] at h <;> subst h <;>
    simp_all [State.writerOf, BitUnit.writer?, writable]

/-- A unit of the kind BUFFER is one. -/
theorem State.unitAt_of_buffer {s : State} {u : UnitId} {k : UnitKind} (h : s.kindOf u = some k)
    (hk : isBuffer k = true) : ∃ l r w, s.unitAt u = some (.buffer l r w) := by
  unfold State.kindOf at h
  rcases hx : s.unitAt u with _ | (_ | _ | _ | _) <;> simp [hx, BitUnit.kind] at h <;> subst h <;>
    simp_all [isBuffer]

/-! ### The end of a command -/

/-- Where a concluded command answers a next state, it is the state its steps left with one result appended. -/
theorem conclude_next {x : Act U64} {t : State} (h : conclude x = .next t) :
    (∃ v s, x = .done v s ∧ t = s.answer (.ok v)) ∨ (∃ e s, x = .fail e s ∧ t = s.raise e) := by
  cases x with
  | done v s => exact .inl ⟨v, s, rfl, by simpa [conclude] using h.symm⟩
  | fail e s => exact .inr ⟨e, s, rfl, by simpa [conclude] using h.symm⟩
  | stuck r => simp [conclude] at h

theorem concludeVoid_next {x : Act PUnit} {t : State} (h : concludeVoid x = .next t) :
    (∃ s, x = .done ⟨⟩ s ∧ t = s.answer (.ok 0)) ∨ (∃ e s, x = .fail e s ∧ t = s.raise e) := by
  cases x with
  | done v s => exact .inl ⟨s, rfl, by simpa [concludeVoid, conclude, Act.bind] using h.symm⟩
  | fail e s => exact .inr ⟨e, s, rfl, by simpa [concludeVoid, conclude, Act.bind] using h.symm⟩
  | stuck r => simp [concludeVoid, conclude, Act.bind] at h

theorem conclude_all {Q : State → Prop} {x : Act U64} {t : State} (hx : x.All Q) (h : conclude x = .next t) :
    ∃ s r, Q s ∧ t = s.answer r := by
  obtain ⟨v, s, rfl, rfl⟩ | ⟨e, s, rfl, rfl⟩ := conclude_next h
  · exact ⟨s, _, hx, rfl⟩
  · exact ⟨s, _, hx, rfl⟩

theorem concludeVoid_all {Q : State → Prop} {x : Act PUnit} {t : State} (hx : x.All Q)
    (h : concludeVoid x = .next t) : ∃ s r, Q s ∧ t = s.answer r := by
  obtain ⟨s, rfl, rfl⟩ | ⟨e, s, rfl, rfl⟩ := concludeVoid_next h
  · exact ⟨s, _, hx, rfl⟩
  · exact ⟨s, _, hx, rfl⟩

theorem ifLegal_next {Q : State → Prop} {s t : State} {i : Instr} {run : Host.Outcome State Fault Refusal} (hs : Q s)
    (hrun : s.illegal? i = none → run = .next t → ∃ s' r, Q s' ∧ t = s'.answer r)
    (h : s.ifLegal i run = .next t) : ∃ s' r, Q s' ∧ t = s'.answer r := by
  obtain ⟨hl, hr⟩ | ⟨-, hr⟩ := s.ifLegal_eq i run
  · exact hrun hl (hr ▸ h)
  · rw [hr] at h
    cases h
    exact ⟨s, _, hs, rfl⟩

/-- `Q` is kept by every port and register move the command `i` can make at the unit `u`. -/
def Keeps (u : UnitId) (i : Instr) (Q : State → Prop) : Prop :=
  match i with
  | .readbit => ReadStable u Q
  | .readbyte => ReadStable u Q
  | .readbits _ => ReadStable u Q
  | .rreset => ∀ s, Q s → Q (s.setReader u Reader.fresh)
  | .writebit _ => WriteStable u Q
  | .writebyte _ => WriteStable u Q
  | .writebits _ _ => WriteStable u Q
  | .flush => WriteStable u Q
  | .readfrom p _ => ReadStable p Q ∧ WriteStable u Q
  | .writeto p _ => ReadStable u Q ∧ WriteStable p Q
  | .copy p => ClearStable p Q
  | .breset => WriteStable u Q ∧ ClearStable u Q

/-- What a command can do: its next state is one that its port and register moves lead to, with one result appended. -/
theorem exec_next {Q : State → Prop} {s t : State} {i : Instr} (hq : Keeps s.unit i Q) (hs : Q s)
    (h : exec i s = .next t) : ∃ s' r, Q s' ∧ t = s'.answer r := by
  cases i with
  | readbit =>
    exact ifLegal_next hs (fun _ => conclude_all (Act.all_bind (readBit_all hq hs) fun _ _ h' => by exact h')) h
  | readbyte =>
    exact ifLegal_next hs (fun _ => conclude_all (Act.all_bind (readByte_all hq hs) fun _ _ h' => by exact h')) h
  | readbits nb => exact ifLegal_next hs (fun _ => conclude_all (readBits_all hq _ hs)) h
  | rreset => exact ifLegal_next hs (fun _ => concludeVoid_all (x := resetReader s.unit s) (hq s hs)) h
  | writebit bit => exact ifLegal_next hs (fun _ => concludeVoid_all (writeBit_all hq bit hs)) h
  | writebyte byt => exact ifLegal_next hs (fun _ => concludeVoid_all (writeByte_all hq byt hs)) h
  | writebits v nb => exact ifLegal_next hs (fun _ => concludeVoid_all (writeBits_all hq v _ hs)) h
  | flush => exact ifLegal_next hs (fun _ => concludeVoid_all (flush_all hq hs)) h
  | readfrom p n => exact ifLegal_next hs (fun _ => concludeVoid_all (transfer_all hq.1 hq.2 _ _ _ hs)) h
  | writeto p n => exact ifLegal_next hs (fun _ => concludeVoid_all (transfer_all hq.1 hq.2 _ _ _ hs)) h
  | copy p => exact ifLegal_next hs (fun _ => concludeVoid_all (copyStore_all hq hs)) h
  | breset => exact ifLegal_next hs (fun _ => concludeVoid_all (resetBuffer_all hq.1 hq.2 hs)) h

/-- A step issues the next command and performs it, or answers that its descriptor is illegal, or, with no command to
issue, does nothing. -/
theorem step_next {s t : State} (h : step s = .next t) :
    (s.commands = [] ∧ t = s) ∨
    (∃ c rest, s.commands = c :: rest ∧
      ((∃ i, decode c.desc = .ok i ∧ exec i { s with unit := c.unit, commands := rest } = .next t) ∨
       ((∃ e, decode c.desc = .error e) ∧
         t = ({ s with unit := c.unit, commands := rest } : State).raise Failure.illegal))) := by
  unfold step State.fetch at h
  rcases hc : s.commands with _ | ⟨c, rest⟩
  · simp [hc] at h; exact .inl ⟨rfl, h.symm⟩
  · simp only [hc] at h
    refine .inr ⟨c, rest, rfl, ?_⟩
    cases hd : decode c.desc with
    | ok i => exact .inl ⟨i, rfl, by simpa [hd] using h⟩
    | error e => exact .inr ⟨⟨e, rfl⟩, by simpa [hd] using h.symm⟩

end Sys2Proof.Machine
end

