-- ==== Sys2Proof/Laws/Commute.lean ====
section
/-!
SUPPORT. A change `f` of the state that a step's ports and registers do not see goes through the step unchanged: what the
independence of the two halves of a unit (R29, R171) and the calls of one command by another (R12) both come down to.
-/

namespace Sys2Proof.Machine

/-- The state at the end of `x` changed by `f`. -/
def Act.mapState {α : Type} (f : State → State) : Act α → Act α
  | .done a s => .done a (f s)
  | .fail e s => .fail e (f s)
  | .stuck r => .stuck r

theorem Act.bind_mapState {α β : Type} {f : State → State} (x : Act α) {g : α → State → Act β}
    (hg : ∀ a s, g a (f s) = (g a s).mapState f) : (x.mapState f).bind g = (x.bind g).mapState f := by
  cases x with
  | done a s => exact hg a s
  | fail e s => rfl
  | stuck r => rfl

theorem Act.inContext_mapState {α : Type} (f : State → State) (c : Ctx) (x : Act α) :
    (x.mapState f).inContext c = (x.inContext c).mapState f := by cases x <;> rfl

theorem shortRead_mapState (f : State → State) (acc : U64) (x : Act U64) :
    shortRead acc (x.mapState f) = (shortRead acc x).mapState f := by
  cases x with
  | done a s => rfl
  | fail e s => by_cases h : e.cause = .eof <;> simp [shortRead, Act.mapState, h]
  | stuck r => rfl

/-- The reader of the unit `u` and its port do not see `f`. -/
structure ReadCommutes (u : UnitId) (f : State → State) : Prop where
  reader : ∀ s, (f s).readerOf u = s.readerOf u
  answer : ∀ s, (f s).sourceAnswer u = s.sourceAnswer u
  pull : ∀ s a, (f s).afterPull u a = f (s.afterPull u a)
  move : ∀ s r, (f s).setReader u r = f (s.setReader u r)

/-- The writer of the unit `u` and its port do not see `f`. -/
structure WriteCommutes (u : UnitId) (f : State → State) : Prop where
  writer : ∀ s, (f s).writerOf u = s.writerOf u
  answer : ∀ s b, (f s).sinkAnswer u b = s.sinkAnswer u b
  push : ∀ s b a, (f s).afterPush u b a = f (s.afterPush u b a)
  move : ∀ s w, (f s).setWriter u w = f (s.setWriter u w)

/-! ### The reader's steps -/

theorem srcPull_commutes {u : UnitId} {f : State → State} (h : ReadCommutes u f) (s : State) :
    srcPull u (f s) = (srcPull u s).mapState f := by
  unfold srcPull
  rw [h.answer]
  cases s.sourceAnswer u with
  | none => rfl
  | some a => simp [Act.mapState, h.pull]

theorem readBit_commutes {u : UnitId} {f : State → State} (h : ReadCommutes u f) (s : State) :
    readBit u (f s) = (readBit u s).mapState f := by
  unfold readBit
  rw [h.reader]
  cases s.readerOf u with
  | none => rfl
  | some r =>
    dsimp only
    split
    · rfl
    · split
      · rw [srcPull_commutes h]
        refine Act.bind_mapState _ fun a t => ?_
        cases a <;> simp [consumeBit, Act.mapState, h.move]
      · simp [consumeBit, Act.mapState, h.move]

theorem readByte_commutes {u : UnitId} {f : State → State} (h : ReadCommutes u f) (s : State) :
    readByte u (f s) = (readByte u s).mapState f := by
  unfold readByte
  rw [h.reader]
  cases s.readerOf u with
  | none => rfl
  | some r =>
    dsimp only
    split
    · rfl
    · rw [srcPull_commutes h]
      refine Act.bind_mapState _ fun a t => ?_
      by_cases h0 : r.count = 0#4 <;> cases a <;> simp [Act.mapState, h.move, h0]

theorem readByteRun_commutes {u : UnitId} {f : State → State} (h : ReadCommutes u f) (k : Nat) (acc : U64) (s : State) :
    readByteRun u k acc (f s) = (readByteRun u k acc s).mapState f := by
  induction k generalizing acc s with
  | zero => rfl
  | succ k ih =>
    rw [readByteRun, readByteRun, readByte_commutes h]
    exact Act.bind_mapState _ fun b t => ih _ t

theorem readTail_commutes {u : UnitId} {f : State → State} (h : ReadCommutes u f) (n : Nat) (acc : U64) (s : State) :
    readTail u n acc (f s) = (readTail u n acc s).mapState f := by
  induction n, acc, s using readTail.induct with
  | case1 acc s => rfl
  | case2 acc s =>
    rw [readTail, readTail, readBit_commutes h, Act.bind_mapState _ (fun b t => rfl), shortRead_mapState]
  | case3 n acc s ih =>
    rw [readTail, readTail, readBit_commutes h]
    exact Act.bind_mapState _ fun b t => ih b t

theorem readBits_commutes {u : UnitId} {f : State → State} (h : ReadCommutes u f) (n : Nat) (s : State) :
    readBits u n (f s) = (readBits u n s).mapState f := by
  rw [readBits, readBits, readByteRun_commutes h]
  exact Act.bind_mapState _ fun acc t => readTail_commutes h _ acc t

/-! ### The writer's steps -/

theorem push_commutes {u : UnitId} {f : State → State} (h : WriteCommutes u f) (b : Byte) (s : State) :
    push u b (f s) = (push u b s).mapState f := by
  unfold push sinkPush
  rw [h.answer]
  cases s.sinkAnswer u b with
  | none => rfl
  | some a => cases a <;> simp [Act.bind, Act.mapState, h.push]

theorem writeBit_commutes {u : UnitId} {f : State → State} (h : WriteCommutes u f) (bit : Bit) (s : State) :
    writeBit u bit (f s) = (writeBit u bit s).mapState f := by
  unfold writeBit
  rw [h.writer]
  cases s.writerOf u with
  | none => rfl
  | some w =>
    dsimp only
    split
    · rfl
    · split
      · rw [push_commutes h]
        exact Act.bind_mapState _ fun a t => by simp [Act.mapState, h.move]
      · simp [Act.mapState, h.move]

theorem writeByte_commutes {u : UnitId} {f : State → State} (h : WriteCommutes u f) (byt : Byte) (s : State) :
    writeByte u byt (f s) = (writeByte u byt s).mapState f := by
  unfold writeByte
  rw [h.writer]
  cases s.writerOf u with
  | none => rfl
  | some w =>
    dsimp only
    split
    · rfl
    · rw [push_commutes h]
      exact Act.bind_mapState _ fun a t => by simp [Act.mapState, h.move]

theorem writeByteRun_commutes {u : UnitId} {f : State → State} (h : WriteCommutes u f) (v : U64) (m k : Nat)
    (s : State) : writeByteRun u v m k (f s) = (writeByteRun u v m k s).mapState f := by
  induction k generalizing s with
  | zero => rfl
  | succ k ih =>
    rw [writeByteRun, writeByteRun, writeByte_commutes h]
    exact Act.bind_mapState _ fun _ t => ih t

theorem writeTail_commutes {u : UnitId} {f : State → State} (h : WriteCommutes u f) (v : U64) (n : Nat) (s : State) :
    writeTail u v n (f s) = (writeTail u v n s).mapState f := by
  induction n generalizing s with
  | zero => rfl
  | succ n ih =>
    rw [writeTail, writeTail, writeBit_commutes h]
    exact Act.bind_mapState _ fun _ t => ih t

theorem writeBits_commutes {u : UnitId} {f : State → State} (h : WriteCommutes u f) (v : U64) (n : Nat) (s : State) :
    writeBits u v n (f s) = (writeBits u v n s).mapState f := by
  rw [writeBits, writeBits, writeByteRun_commutes h]
  exact Act.bind_mapState _ fun _ t => writeTail_commutes h v _ t

theorem flushLoop_commutes {u : UnitId} {f : State → State} (h : WriteCommutes u f) (n : Nat) (s : State) :
    flushLoop u n (f s) = (flushLoop u n s).mapState f := by
  induction n generalizing s with
  | zero => rfl
  | succ n ih =>
    rw [flushLoop, flushLoop, h.writer]
    cases s.writerOf u with
    | none => rfl
    | some w =>
      dsimp only
      split
      · rfl
      · rw [writeBit_commutes h]
        exact Act.bind_mapState _ fun _ t => ih t

theorem flush_commutes {u : UnitId} {f : State → State} (h : WriteCommutes u f) (s : State) :
    flush u (f s) = (flush u s).mapState f := flushLoop_commutes h 8 s

/-! ### One command called by another -/

/-- The state with `u` on the `unit` lines and `rs` as the results: what the calls of one command by another change. -/
def State.onPort (s : State) (u : UnitId) (rs : List Result) : State := { s with unit := u, results := rs }

theorem readCommutes_onPort (u v : UnitId) (rs : List Result) : ReadCommutes u (·.onPort v rs) where
  reader _ := rfl
  answer _ := rfl
  pull s a := by
    rcases h : s.unitAt u with _ | (_ | _ | _ | _) <;>
      · have h' : (s.onPort v rs).unitAt u = _ := h
        simp only [State.afterPull, h, h'] <;> rfl
  move _ _ := rfl

theorem writeCommutes_onPort (u v : UnitId) (rs : List Result) : WriteCommutes u (·.onPort v rs) where
  writer _ := rfl
  answer _ _ := rfl
  push s b a := by
    rcases h : s.unitAt u with _ | (_ | _ | _ | _) <;>
      · have h' : (s.onPort v rs).unitAt u = _ := h
        simp only [State.afterPush, h, h'] <;> rfl
  move _ _ := rfl

/-- The `unit` lines and the results as they are in `s`. -/
def State.samePort (s t : State) : Prop := t.unit = s.unit ∧ t.results = s.results

theorem readStable_samePort (u : UnitId) (s : State) : ReadStable u s.samePort where
  pull t a h := by simpa [State.samePort] using h
  move t r r' h _ _ := by simpa [State.samePort] using h

theorem writeStable_samePort (u : UnitId) (s : State) : WriteStable u s.samePort where
  push t b a h := by simpa [State.samePort] using h
  move t w w' h _ _ := by simpa [State.samePort] using h

theorem State.samePort_refl (s : State) : s.samePort s := ⟨rfl, rfl⟩

/-- A command performed as `x`, which neither sees nor changes the command port, is issued as `x`. -/
theorem issue_eq {u : UnitId} {i : Instr} {s : State} {x : Act U64}
    (hx : exec i (s.onPort u []) = conclude (x.mapState (·.onPort u []))) (hall : x.All s.samePort) :
    issue u i s = x := by
  have hx' : exec i { s with unit := u, results := [] } = _ := hx
  unfold issue
  rw [hx']
  cases x with
  | done v t =>
    obtain ⟨hu, hr⟩ := hall
    simp [conclude, Act.mapState, State.onPort, State.answer, ← hu, ← hr]
  | fail e t =>
    obtain ⟨hu, hr⟩ := hall
    simp [conclude, Act.mapState, State.onPort, State.raise, State.answer, ← hu, ← hr]
  | stuck r => rfl

end Sys2Proof.Machine
end

