-- ==== Sys2Proof/Laws/Reader.lean ====
section
/-!
SUPPORT. READBIT and READBYTE by the state of the reader and the answer of the source, one equation per case of R110 and
R113; later proofs cite these and do not unfold the steps.
-/

namespace Sys2Proof.Machine

theorem srcPull_some {u : UnitId} {s : State} {a : SrcResp} (h : s.sourceAnswer u = some a) :
    srcPull u s = .done a (s.afterPull u a) := by simp [srcPull, h]

theorem srcPull_none {u : UnitId} {s : State} (h : s.sourceAnswer u = none) :
    srcPull u s = .stuck .sourceNeverAnswers := by simp [srcPull, h]

/-! ### READBIT -/

/-- With bits left no port is touched (R110, R112 (b)). -/
theorem readBit_buffered {u : UnitId} {s : State} {r : Reader} (hr : s.readerOf u = some r)
    (hl : r.countLegal = true) (h0 : r.count ≠ 0#4) :
    readBit u s = .done r.pending.msb (s.setReader u ⟨r.pending <<< 1, r.count - 1#4⟩) := by
  simp [readBit, hr, hl, h0, consumeBit]

/-- An empty reader pulls (R110). -/
theorem readBit_empty {u : UnitId} {s : State} {r : Reader} (hr : s.readerOf u = some r) (h0 : r.count = 0#4)
    {a : SrcResp} :
    s.sourceAnswer u = some a →
    readBit u s =
      match a with
      | .byte b => .done b.msb ((s.afterPull u a).setReader u ⟨b <<< 1, 7#4⟩)
      | .byteEof _ => .fail Failure.eof (s.afterPull u a)
      | .eof => .fail Failure.eof (s.afterPull u a)
      | .err e => .fail (Failure.io e) (s.afterPull u a) := by
  intro ha
  have hl : r.countLegal = true := (Reader.countLegal_iff r).mpr (by simp [h0])
  cases a <;> simp [readBit, hr, hl, h0, srcPull_some ha, Act.bind, consumeBit]

theorem readBit_stuck {u : UnitId} {s : State} {r : Reader} (hr : s.readerOf u = some r) (h0 : r.count = 0#4)
    (ha : s.sourceAnswer u = none) : readBit u s = .stuck .sourceNeverAnswers := by
  have hl : r.countLegal = true := (Reader.countLegal_iff r).mpr (by simp [h0])
  simp [readBit, hr, hl, h0, srcPull_none ha, Act.bind]

theorem readBit_reserved {u : UnitId} {s : State} {r : Reader} (hr : s.readerOf u = some r)
    (hl : r.countLegal = false) : readBit u s = .stuck .readerCountReserved := by simp [readBit, hr, hl]

/-! ### READBYTE -/

/-- Aligned: the byte verbatim, an end-of-input signal with it masked (R113, R115). -/
theorem readByte_aligned {u : UnitId} {s : State} {r : Reader} (hr : s.readerOf u = some r) (h0 : r.count = 0#4)
    {a : SrcResp} :
    s.sourceAnswer u = some a →
    readByte u s =
      match a with
      | .byte b => .done b (s.afterPull u a)
      | .byteEof b => .done b (s.afterPull u a)
      | .eof => .fail Failure.eof (s.afterPull u a)
      | .err e => .fail (Failure.io e) (s.afterPull u a) := by
  intro ha
  have hl : r.countLegal = true := (Reader.countLegal_iff r).mpr (by simp [h0])
  cases a <;> simp [readByte, hr, hl, h0, srcPull_some ha, Act.bind]

/-- Unaligned: the leftover bits and the top of the new byte (R113, R115). -/
theorem readByte_unaligned {u : UnitId} {s : State} {r : Reader} (hr : s.readerOf u = some r)
    (hl : r.countLegal = true) (h0 : r.count ≠ 0#4) {a : SrcResp} :
    s.sourceAnswer u = some a →
    readByte u s =
      match a with
      | .byte b => .done (spliceRead r b) ((s.afterPull u a).setReader u ⟨b <<< (8 - r.count.toNat), r.count⟩)
      | .byteEof _ => .fail Failure.eof (s.afterPull u a)
      | .eof => .fail Failure.eof (s.afterPull u a)
      | .err e => .fail (Failure.io e) (s.afterPull u a) := by
  intro ha
  cases a <;> simp [readByte, hr, hl, h0, srcPull_some ha, Act.bind]

theorem readByte_stuck {u : UnitId} {s : State} {r : Reader} (hr : s.readerOf u = some r) (hl : r.countLegal = true)
    (ha : s.sourceAnswer u = none) : readByte u s = .stuck .sourceNeverAnswers := by
  simp [readByte, hr, hl, srcPull_none ha, Act.bind]

theorem readByte_reserved {u : UnitId} {s : State} {r : Reader} (hr : s.readerOf u = some r)
    (hl : r.countLegal = false) : readByte u s = .stuck .readerCountReserved := by simp [readByte, hr, hl]

/-! ### READBITS -/

theorem readByteRun_succ (u : UnitId) (k : Nat) (acc : U64) (s : State) :
    readByteRun u (k + 1) acc s =
      (readByte u s).bind fun b s' => readByteRun u k ((acc <<< 8) ||| byteValue b) s' := rfl

theorem readTail_one (u : UnitId) (acc : U64) (s : State) :
    readTail u 1 acc s =
      shortRead acc ((readBit u s).bind fun b s' => .done ((acc <<< 1) ||| bitValue b) s') := rfl

theorem readTail_succ (u : UnitId) (n : Nat) (acc : U64) (s : State) :
    readTail u (n + 2) acc s =
      (readBit u s).bind fun b s' => readTail u (n + 1) ((acc <<< 1) ||| bitValue b) s' := rfl

end Sys2Proof.Machine
end

