-- ==== Sys2Proof/Laws/Writer.lean ====
section
/-!
SUPPORT. WRITEBIT, WRITEBYTE and FLUSH by the state of the writer and the answer of the sink, one equation per case of
R140, R143, R145, R147 and R152; later proofs cite these and do not unfold the steps.
-/

namespace Sys2Proof.Machine

theorem push_ack {u : UnitId} {b : Byte} {s : State} (h : s.sinkAnswer u b = some .ack) :
    push u b s = .done ⟨⟩ (s.afterPush u b .ack) := by simp [push, sinkPush, Act.bind, h]

theorem push_short {u : UnitId} {b : Byte} {s : State} (h : s.sinkAnswer u b = some .short) :
    push u b s = .fail Failure.short (s.afterPush u b .short) := by simp [push, sinkPush, Act.bind, h]

theorem push_nak {u : UnitId} {b : Byte} {s : State} {e : ECode} (h : s.sinkAnswer u b = some (.nak e)) :
    push u b s = .fail (Failure.io e) (s.afterPush u b (.nak e)) := by simp [push, sinkPush, Act.bind, h]

theorem push_stuck {u : UnitId} {b : Byte} {s : State} (h : s.sinkAnswer u b = none) :
    push u b s = .stuck .sinkNeverAnswers := by simp [push, sinkPush, Act.bind, h]

/-! ### WRITEBIT -/

/-- A bit that does not complete the byte is queued and touches no port (R140, R144 (c)). -/
theorem writeBit_queued {u : UnitId} {s : State} {w : Writer} (hw : s.writerOf u = some w)
    (hl : w.countLegal = true) (h1 : w.count ≠ 1#4) (bit : Bit) :
    writeBit u bit s = .done ⟨⟩ (s.setWriter u ⟨slotIn w bit, w.count - 1#4⟩) := by
  simp [writeBit, hw, hl, h1]

/-- The bit that completes the byte pushes it; the registers move only on an acknowledged push (R140, R143). -/
theorem writeBit_complete {u : UnitId} {s : State} {w : Writer} (hw : s.writerOf u = some w) (h1 : w.count = 1#4)
    (bit : Bit) {a : SinkResp} :
    s.sinkAnswer u (slotIn w bit) = some a →
    writeBit u bit s =
      match a with
      | .ack => .done ⟨⟩ ((s.afterPush u (slotIn w bit) a).setWriter u Writer.fresh)
      | .short => .fail Failure.short (s.afterPush u (slotIn w bit) a)
      | .nak e => .fail (Failure.io e) (s.afterPush u (slotIn w bit) a) := by
  intro ha
  have hl : w.countLegal = true := (Writer.countLegal_iff w).mpr (by simp [h1])
  cases a with
  | ack => simp [writeBit, hw, hl, h1, push_ack ha, Act.bind]
  | short => simp [writeBit, hw, hl, h1, push_short ha, Act.bind]
  | nak e => simp [writeBit, hw, hl, h1, push_nak ha, Act.bind]

theorem writeBit_stuck {u : UnitId} {s : State} {w : Writer} (hw : s.writerOf u = some w) (h1 : w.count = 1#4)
    (bit : Bit) (ha : s.sinkAnswer u (slotIn w bit) = none) : writeBit u bit s = .stuck .sinkNeverAnswers := by
  have hl : w.countLegal = true := (Writer.countLegal_iff w).mpr (by simp [h1])
  simp [writeBit, hw, hl, h1, push_stuck ha, Act.bind]

theorem writeBit_reserved {u : UnitId} {s : State} {w : Writer} (hw : s.writerOf u = some w)
    (hl : w.countLegal = false) (bit : Bit) : writeBit u bit s = .stuck .writerCountReserved := by
  simp [writeBit, hw, hl]

/-! ### WRITEBYTE -/

/-- One push; the registers move only on an acknowledged push, and `count` never (R145 to R147). -/
theorem writeByte_push {u : UnitId} {s : State} {w : Writer} (hw : s.writerOf u = some w)
    (hl : w.countLegal = true) (byt : Byte) {a : SinkResp} :
    s.sinkAnswer u (spliceWrite w byt) = some a →
    writeByte u byt s =
      match a with
      | .ack => .done ⟨⟩ ((s.afterPush u (spliceWrite w byt) a).setWriter u ⟨byt <<< w.count.toNat, w.count⟩)
      | .short => .fail Failure.short (s.afterPush u (spliceWrite w byt) a)
      | .nak e => .fail (Failure.io e) (s.afterPush u (spliceWrite w byt) a) := by
  intro ha
  cases a with
  | ack => simp [writeByte, hw, hl, push_ack ha, Act.bind]
  | short => simp [writeByte, hw, hl, push_short ha, Act.bind]
  | nak e => simp [writeByte, hw, hl, push_nak ha, Act.bind]

theorem writeByte_stuck {u : UnitId} {s : State} {w : Writer} (hw : s.writerOf u = some w)
    (hl : w.countLegal = true) (byt : Byte) (ha : s.sinkAnswer u (spliceWrite w byt) = none) :
    writeByte u byt s = .stuck .sinkNeverAnswers := by
  simp [writeByte, hw, hl, push_stuck ha, Act.bind]

theorem writeByte_reserved {u : UnitId} {s : State} {w : Writer} (hw : s.writerOf u = some w)
    (hl : w.countLegal = false) (byt : Byte) : writeByte u byt s = .stuck .writerCountReserved := by
  simp [writeByte, hw, hl]

/-! ### FLUSH -/

theorem flushLoop_succ (u : UnitId) (n : Nat) {s : State} {w : Writer} (hw : s.writerOf u = some w) :
    flushLoop u (n + 1) s =
      if w.count = 8#4 then .done ⟨⟩ s else (writeBit u false s).bind fun _ s' => flushLoop u n s' := by
  simp [flushLoop, hw]

/-- An aligned writer has nothing to flush (R152, R153). -/
theorem flushLoop_aligned {u : UnitId} {s : State} {w : Writer} (hw : s.writerOf u = some w) (h8 : w.count = 8#4)
    (n : Nat) : flushLoop u n s = .done ⟨⟩ s := by
  cases n with
  | zero => rfl
  | succ n => simp [flushLoop_succ u n hw, h8]

end Sys2Proof.Machine
end

