-- ==== Sys2Proof/Laws/Streams.lean ====
section
/-!
SUPPORT. The steps as operations on streams of bits (R31, R62 to R64): a read that has its bits ahead delivers exactly the
first of them, a write whose sink acknowledges appends exactly its own.
-/

namespace Sys2Proof.Machine

/-! ### Values and lists of bits -/

@[simp] theorem bytesBits_nil : bytesBits [] = [] := rfl

@[simp] theorem bytesBits_cons (b : Byte) (l : List Byte) : bytesBits (b :: l) = bitsOf b ++ bytesBits l := by
  simp [bytesBits]

@[simp] theorem bytesBits_append (l m : List Byte) : bytesBits (l ++ m) = bytesBits l ++ bytesBits m := by
  simp [bytesBits]

@[simp] theorem length_bytesBits (l : List Byte) : (bytesBits l).length = 8 * l.length := by
  induction l with
  | nil => rfl
  | cons b l ih => simp [ih]; omega

theorem bitsOf_inj {b c : Byte} (h : bitsOf b = bitsOf c) : b = c := by
  simp only [bitsOf, List.cons.injEq, and_true] at h
  obtain ⟨h7, h6, h5, h4, h3, h2, h1, h0⟩ := h
  apply BitVec.eq_of_getLsbD_eq
  intro i hi
  obtain rfl | rfl | rfl | rfl | rfl | rfl | rfl | rfl :
    i = 0 ∨ i = 1 ∨ i = 2 ∨ i = 3 ∨ i = 4 ∨ i = 5 ∨ i = 6 ∨ i = 7 := by omega
  all_goals assumption

theorem packBits_append (acc : U64) (l m : List Bit) : packBits acc (l ++ m) = packBits (packBits acc l) m := by
  induction l generalizing acc with
  | nil => rfl
  | cons b l ih => exact ih _

/-- Packing shifts what it continues to the left of its own bits. -/
theorem packBits_shift (acc : U64) (l : List Bit) : packBits acc l = (acc <<< l.length) ||| packBits 0 l := by
  induction l generalizing acc with
  | nil => simp [packBits]
  | cons b l ih =>
    rw [packBits, packBits, ih, ih ((0 : U64) <<< 1 ||| bitValue b), List.length_cons, BitVec.shiftLeft_or_distrib,
      ← BitVec.shiftLeft_add, Nat.add_comm 1, BitVec.or_assoc]
    simp

theorem packBits_byte (b : Byte) : packBits 0 (bitsOf b) = byteValue b := by
  revert b; decide +kernel

/-- The byte phase of READBITS packs the bits of its byte (R117). -/
theorem packBits_bitsOf (acc : U64) (b : Byte) : packBits acc (bitsOf b) = (acc <<< 8) ||| byteValue b := by
  rw [packBits_shift, packBits_byte]; rfl

@[simp] theorem length_valueBits (v : U64) (n : Nat) : (valueBits v n).length = n := by
  induction n with
  | zero => rfl
  | succ n ih => simp [valueBits, ih]

/-- The byte phase of WRITEBITS takes the top 8 of the bits to go (R149). -/
theorem valueBits_byte (v : U64) (n : Nat) : valueBits v (n + 8) = bitsOf (byteSlice v n) ++ valueBits v n := by
  simp [valueBits, bitsOf, byteSlice]

/-- Two values that agree on their low `n` bits have the same bits in stream order. -/
theorem valueBits_congr {v v' : U64} {n : Nat} (h : ∀ j, j < n → v.getLsbD j = v'.getLsbD j) : valueBits v n = valueBits v' n := by
  induction n with
  | zero => rfl
  | succ n ih => rw [valueBits, valueBits, h n (by omega), ih fun j hj => h j (by omega)]

/-- The last bit of a value in stream order is its bit 0. -/
theorem valueBits_snoc (v : U64) (n : Nat) : valueBits v (n + 1) = valueBits (v >>> 1) n ++ [v.getLsbD 0] := by
  induction n with
  | zero => rfl
  | succ n ih => rw [valueBits, ih, valueBits]; simp [Nat.add_comm]

theorem packBits_snoc (l : List Bit) (b : Bit) (a : U64) : packBits a (l ++ [b]) = (packBits a l <<< 1) ||| bitValue b := by
  rw [packBits_append]; rfl

theorem bitValue_getLsbD (b : Bit) (i : Nat) : (bitValue b).getLsbD i = (decide (i = 0) && b) := by
  cases b <;> simp [bitValue]

/-- Packing sets no bit above the bits packed (R63). -/
theorem packBits_high (l : List Bit) (i : Nat) (h : l.length ≤ i) : (packBits 0 l).getLsbD i = false := by
  induction l using List.reverseRecOn generalizing i with
  | nil => simp [packBits]
  | append_singleton l b ih =>
    simp at h
    rw [packBits_snoc]
    simp [bitValue_getLsbD, show i ≠ 0 by omega]
    intro _; exact ih (i - 1) (by omega)

/-- Packing and unpacking agree up to 64 bits (R63). -/
theorem valueBits_packBits (l : List Bit) (h : l.length ≤ 64) : valueBits (packBits 0 l) l.length = l := by
  induction l using List.reverseRecOn with
  | nil => rfl
  | append_singleton l b ih =>
    simp at h
    rw [List.length_append, List.length_singleton, valueBits_snoc, packBits_snoc]
    have h1 : valueBits ((packBits 0 l <<< 1 ||| bitValue b) >>> 1) l.length = valueBits (packBits 0 l) l.length := by
      apply valueBits_congr
      intro j hj
      have hb := bitValue_getLsbD b (1 + j)
      simp only [BitVec.getLsbD_ushiftRight, BitVec.getLsbD_or, BitVec.getLsbD_shiftLeft, hb]
      simp [show 1 + j < 64 by omega]
    rw [h1, ih (by omega)]
    have h2 := bitValue_getLsbD b 0
    simp only [BitVec.getLsbD_or, h2]; simp

theorem packBits_lt (l : List Bit) : (packBits 0 l).toNat < 2 ^ l.length := by
  apply Nat.lt_pow_two_of_testBit
  intro i hi
  exact packBits_high l i hi

/-- A value one bit short has a zero as its first bit (R188). -/
theorem valueBits_packBits_short (l : List Bit) (h : l.length < 64) : valueBits (packBits 0 l) (l.length + 1) = false :: l := by
  rw [valueBits, valueBits_packBits l (by omega), packBits_high l _ (le_refl _)]


/-! ### Reading -/

@[simp] theorem State.supply_setReader (s : State) (u : UnitId) (r : Reader) (v : UnitId) :
    (s.setReader u r).supply v = s.supply v := by
  by_cases h : v = u
  · subst h
    rcases hx : s.unitAt v with _ | (_ | _ | _ | _) <;> simp [State.supply, hx, BitUnit.setReader]
  · simp [State.supply, State.unitAt_setReader_other s h]

@[simp] theorem State.supply_setWriter (s : State) (u : UnitId) (w : Writer) (v : UnitId) :
    (s.setWriter u w).supply v = s.supply v := by
  by_cases h : v = u
  · subst h
    rcases hx : s.unitAt v with _ | (_ | _ | _ | _) <;> simp [State.supply, hx, BitUnit.setWriter]
  · simp [State.supply, State.unitAt_setWriter_other s h]

theorem plainBytes_eq_cons {l : List SrcResp} {b : Byte} {rest : List Byte} (h : plainBytes l = b :: rest) :
    ∃ l', l = .byte b :: l' ∧ plainBytes l' = rest := by
  rcases l with _ | ⟨_ | _ | _ | _, l⟩ <;> simp [plainBytes] at h
  exact ⟨l, by simp [h.1], h.2⟩

/-- The first byte of the supply is the answer to the next pull, and the pull takes it. -/
theorem State.pull_supply {s : State} {u : UnitId} {b : Byte} {rest : List Byte} (h : s.supply u = b :: rest) :
    s.sourceAnswer u = some (.byte b) ∧ (s.afterPull u (.byte b)).supply u = rest := by
  rcases hx : s.unitAt u with _ | (⟨k, r⟩ | _ | ⟨k, r, k', w⟩ | ⟨l, r, w⟩) <;> simp only [State.supply, hx] at h
  · exact absurd h (by simp)
  · obtain ⟨l', hl, hr⟩ := plainBytes_eq_cons h
    simp [State.sourceAnswer, State.afterPull, State.supply, hx, Source.next, Source.answered, hl, hr]
  · exact absurd h (by simp)
  · obtain ⟨l', hl, hr⟩ := plainBytes_eq_cons h
    simp [State.sourceAnswer, State.afterPull, State.supply, hx, Source.next, Source.answered, hl, hr]
  · subst h
    simp [State.sourceAnswer, State.afterPull, State.supply, hx, BitUnit.setStore]

theorem State.bitsAhead_eq {s : State} {u : UnitId} {r : Reader} (hr : s.readerOf u = some r) :
    s.bitsAhead u = r.bits ++ bytesBits (s.supply u) := by simp [State.bitsAhead, hr]

/-- READBIT with a bit ahead delivers it. -/
theorem readBit_stream {u : UnitId} {s : State} (hok : s.readerOk u) (h : s.bitsAhead u ≠ []) :
    ∃ b t, readBit u s = .done b t ∧ s.bitsAhead u = b :: t.bitsAhead u ∧ t.readerOk u := by
  obtain ⟨r, hr, hro⟩ := hok
  have hl := Reader.ok_countLegal hro
  by_cases h0 : r.count = 0#4
  · cases hsup : s.supply u with
    | nil => exact absurd (by simp [State.bitsAhead_eq hr, bits_aligned_reader h0, hsup]) h
    | cons b rest =>
      obtain ⟨ha, hs⟩ := State.pull_supply hsup
      refine ⟨_, _, by rw [readBit_empty hr h0 ha], ?_, _, by simpa using ⟨_, hr⟩,
        (ReaderMove.load b h0).keeps_ok hro⟩
      rw [State.bitsAhead_eq hr, State.bitsAhead_eq (r := ⟨b <<< 1, 7#4⟩) (by simp [hr]), bits_aligned_reader h0, hsup]
      simp [bits_load b, hs]
  · refine ⟨_, _, readBit_buffered hr hl h0, ?_, _, by simpa using ⟨_, hr⟩,
      (ReaderMove.consume hl h0).keeps_ok hro⟩
    rw [State.bitsAhead_eq hr,
      State.bitsAhead_eq (r := ⟨r.pending <<< 1, r.count - 1#4⟩) (by simp [hr]), bits_consume hl h0]
    simp

/-- READBYTE with eight bits ahead delivers them. -/
theorem readByte_stream {u : UnitId} {s : State} (hok : s.readerOk u) (h : 8 ≤ (s.bitsAhead u).length) :
    ∃ b t, readByte u s = .done b t ∧ s.bitsAhead u = bitsOf b ++ t.bitsAhead u ∧ t.readerOk u := by
  obtain ⟨r, hr, hro⟩ := hok
  have hl := Reader.ok_countLegal hro
  cases hsup : s.supply u with
  | nil =>
    have := ((Reader.ok_iff r).mp hro).1
    simp [State.bitsAhead_eq hr, hsup, length_reader_bits hl] at h
    omega
  | cons b rest =>
    obtain ⟨ha, hs⟩ := State.pull_supply hsup
    by_cases h0 : r.count = 0#4
    · refine ⟨b, _, by rw [readByte_aligned hr h0 ha], ?_, r, by simpa using hr, hro⟩
      rw [State.bitsAhead_eq hr, State.bitsAhead_eq (r := r) (by simp [hr]), bits_aligned_reader h0, hsup]
      simp [hs]
    · refine ⟨_, _, by rw [readByte_unaligned hr hl h0 ha], ?_, _, by simpa using ⟨_, hr⟩,
        (ReaderMove.splice b hl h0).keeps_ok hro⟩
      rw [State.bitsAhead_eq hr,
        State.bitsAhead_eq (r := ⟨b <<< (8 - r.count.toNat), r.count⟩) (by simp [hr]), hsup]
      simp [hs, ← List.append_assoc, bits_spliceRead hl h0]

/-- The byte phase of READBITS with its bits ahead delivers and packs them. -/
theorem readByteRun_stream {u : UnitId} (k : Nat) (acc : U64) {s : State} (hok : s.readerOk u)
    (h : 8 * k ≤ (s.bitsAhead u).length) :
    ∃ l t, readByteRun u k acc s = .done (packBits acc l) t ∧ l.length = 8 * k ∧
      s.bitsAhead u = l ++ t.bitsAhead u ∧ t.readerOk u := by
  induction k generalizing acc s with
  | zero => exact ⟨[], s, rfl, rfl, rfl, hok⟩
  | succ k ih =>
    obtain ⟨b, t, hb, hs, ht⟩ := readByte_stream hok (by omega)
    obtain ⟨l, t', hl, hn, hs', ht'⟩ := ih ((acc <<< 8) ||| byteValue b) ht (by simp [hs] at h; omega)
    refine ⟨bitsOf b ++ l, t', ?_, by simp [hn]; omega, by simp [hs, hs'], ht'⟩
    rw [readByteRun_succ, hb, Act.bind, hl, packBits_append, packBits_bitsOf]

/-- The tail of READBITS with its bits ahead delivers and packs them. -/
theorem readTail_stream {u : UnitId} (n : Nat) (acc : U64) {s : State} (hok : s.readerOk u)
    (h : n ≤ (s.bitsAhead u).length) :
    ∃ l t, readTail u n acc s = .done (packBits acc l) t ∧ l.length = n ∧
      s.bitsAhead u = l ++ t.bitsAhead u ∧ t.readerOk u := by
  induction n generalizing acc s with
  | zero => exact ⟨[], s, rfl, rfl, rfl, hok⟩
  | succ n ih =>
    obtain ⟨b, t, hb, hs, ht⟩ := readBit_stream hok (by intro e; simp [e] at h)
    cases n with
    | zero =>
      exact ⟨[b], t, by simp [readTail_one, hb, Act.bind, shortRead, packBits], rfl, by simp [hs], ht⟩
    | succ n =>
      obtain ⟨l, t', hl, hn, hs', ht'⟩ := ih ((acc <<< 1) ||| bitValue b) ht (by simp [hs] at h; omega)
      refine ⟨b :: l, t', ?_, by simp [hn], by simp [hs, hs'], ht'⟩
      rw [readTail_succ, hb, Act.bind, hl, packBits]

/-- READBITS with its bits ahead delivers them, packed with the first bit most significant (R63, R117). -/
theorem readBits_stream {u : UnitId} (n : Nat) {s : State} (hok : s.readerOk u) (h : n ≤ (s.bitsAhead u).length) :
    ∃ l t, readBits u n s = .done (packBits 0 l) t ∧ l.length = n ∧
      s.bitsAhead u = l ++ t.bitsAhead u ∧ t.readerOk u := by
  obtain ⟨l, t, hl, hn, hs, ht⟩ := readByteRun_stream (n / 8) 0 hok (by omega)
  obtain ⟨l', t', hl', hn', hs', ht'⟩ := readTail_stream (n % 8) (packBits 0 l) ht (by simp [hs] at h; omega)
  refine ⟨l ++ l', t', ?_, by simp [hn, hn']; omega, by simp [hs, hs'], ht'⟩
  rw [readBits, hl, Act.bind, hl', packBits_append]

/-! ### Writing -/

theorem State.bitsWritten_eq {s : State} {u : UnitId} {w : Writer} (hw : s.writerOf u = some w) :
    s.bitsWritten u = bytesBits (s.delivered u) ++ w.bits := by simp [State.bitsWritten, hw]

@[simp] theorem State.delivered_setWriter (s : State) (u : UnitId) (w : Writer) (v : UnitId) :
    (s.setWriter u w).delivered v = s.delivered v := by
  by_cases h : v = u
  · subst h
    rcases hx : s.unitAt v with _ | (_ | _ | _ | _) <;> simp [State.delivered, hx, BitUnit.setWriter]
  · simp [State.delivered, State.unitAt_setWriter_other s h]

@[simp] theorem State.acks_setWriter (s : State) (u : UnitId) (w : Writer) (v : UnitId) :
    (s.setWriter u w).acks v = s.acks v := by
  by_cases h : v = u
  · subst h
    rcases hx : s.unitAt v with _ | (_ | _ | _ | _) <;> simp [State.acks, hx, BitUnit.setWriter]
  · simp [State.acks, State.unitAt_setWriter_other s h]

theorem Sink.acks_next {x : Sink} (h : x.acks = true) (k : StreamName) (b : Byte) : x.next k b = some .ack := by
  obtain ⟨l, af, ps⟩ := x
  simp only [Sink.acks, Bool.and_eq_true, decide_eq_true_eq] at h
  cases l with
  | nil => simp [Sink.next, h.2]
  | cons a l => simp at h; simp [Sink.next, h.1.1]

theorem Sink.acks_answered {x : Sink} (h : x.acks = true) (b : Byte) (a : SinkResp) :
    (x.answered b a).acks = true := by
  obtain ⟨l, af, ps⟩ := x
  simp only [Sink.acks, Sink.answered, Bool.and_eq_true] at h ⊢
  refine ⟨?_, h.2⟩
  cases l with
  | nil => rfl
  | cons a l => simp only [List.all_cons, Bool.and_eq_true] at h; exact h.1.2

/-- An acknowledged byte is one more byte the sink has taken. -/
theorem Sink.acknowledged_answered (x : Sink) (b : Byte) :
    (x.answered b .ack).acknowledged = x.acknowledged ++ [b] := by
  simp [Sink.acknowledged, Sink.answered]

/-- A sink that acknowledges takes the byte offered, and goes on acknowledging. -/
theorem State.push_acks {s : State} {u : UnitId} (h : s.acks u = true) (b : Byte) :
    s.sinkAnswer u b = some .ack ∧ (s.afterPush u b .ack).delivered u = s.delivered u ++ [b] ∧
      (s.afterPush u b .ack).acks u = true := by
  rcases hx : s.unitAt u with _ | (⟨k, r⟩ | ⟨k, w⟩ | ⟨k, r, k', w⟩ | ⟨l, r, w⟩) <;>
    simp only [State.acks, hx] at h
  · exact absurd h (by simp)
  · exact absurd h (by simp)
  · simp [State.sinkAnswer, State.afterPush, State.delivered, State.acks, hx, Sink.acks_next h, Sink.acks_answered h,
      Sink.acknowledged_answered]
  · simp [State.sinkAnswer, State.afterPush, State.delivered, State.acks, hx, Sink.acks_next h, Sink.acks_answered h,
      Sink.acknowledged_answered]
  · simp [State.sinkAnswer, State.afterPush, State.delivered, State.acks, hx, BitUnit.setStore]

/-- WRITEBIT appends its bit. -/
theorem writeBit_stream {u : UnitId} {s : State} (hok : s.writerOk u) (bit : Bit) :
    ∃ t, writeBit u bit s = .done ⟨⟩ t ∧ t.bitsWritten u = s.bitsWritten u ++ [bit] ∧ t.writerOk u := by
  obtain ⟨⟨w, hw, hwo⟩, hack⟩ := hok
  have hl := Writer.ok_countLegal hwo
  by_cases h1 : w.count = 1#4
  · obtain ⟨ha, hd, hk⟩ := State.push_acks hack (slotIn w bit)
    refine ⟨_, by rw [writeBit_complete hw h1 bit ha], ?_, ⟨Writer.fresh, by simp [hw], Writer.ok_fresh⟩, by simpa using hk⟩
    rw [State.bitsWritten_eq hw, State.bitsWritten_eq (w := Writer.fresh) (by simp [hw])]
    simp [hd, bits_complete hwo h1]
  · refine ⟨_, writeBit_queued hw hl h1 bit, ?_, ⟨_, by simpa using ⟨_, hw⟩,
      (WriterMove.slot bit hl h1).keeps_ok hwo⟩, by simpa using hack⟩
    rw [State.bitsWritten_eq hw, State.bitsWritten_eq (w := ⟨slotIn w bit, w.count - 1#4⟩) (by simp [hw])]
    simp [bits_slot hwo h1]

/-- WRITEBYTE appends its eight bits. -/
theorem writeByte_stream {u : UnitId} {s : State} (hok : s.writerOk u) (byt : Byte) :
    ∃ t, writeByte u byt s = .done ⟨⟩ t ∧ t.bitsWritten u = s.bitsWritten u ++ bitsOf byt ∧ t.writerOk u := by
  obtain ⟨⟨w, hw, hwo⟩, hack⟩ := hok
  have hl := Writer.ok_countLegal hwo
  obtain ⟨ha, hd, hk⟩ := State.push_acks hack (spliceWrite w byt)
  refine ⟨_, by rw [writeByte_push hw hl byt ha], ?_, ⟨_, by simpa using ⟨_, hw⟩,
    (WriterMove.splice byt hl).keeps_ok hwo⟩, by simpa using hk⟩
  rw [State.bitsWritten_eq hw, State.bitsWritten_eq (w := ⟨byt <<< w.count.toNat, w.count⟩) (by simp [hw])]
  simp [hd, bits_spliceWrite hwo]

theorem writeByteRun_stream {u : UnitId} (v : U64) (t k : Nat) {s : State} (hok : s.writerOk u) :
    ∃ s', writeByteRun u v t k s = .done ⟨⟩ s' ∧
      s'.bitsWritten u ++ valueBits v t = s.bitsWritten u ++ valueBits v (8 * k + t) ∧ s'.writerOk u := by
  induction k generalizing s with
  | zero => exact ⟨s, rfl, by simp, hok⟩
  | succ k ih =>
    obtain ⟨s₁, h₁, hb₁, ho₁⟩ := writeByte_stream hok (byteSlice v (8 * k + t))
    obtain ⟨s₂, h₂, hb₂, ho₂⟩ := ih ho₁
    refine ⟨s₂, by simp [writeByteRun, h₁, Act.bind, h₂], ?_, ho₂⟩
    rw [hb₂, hb₁, show 8 * (k + 1) + t = 8 * k + t + 8 by omega, valueBits_byte]
    simp

theorem writeTail_stream {u : UnitId} (v : U64) (n : Nat) {s : State} (hok : s.writerOk u) :
    ∃ s', writeTail u v n s = .done ⟨⟩ s' ∧ s'.bitsWritten u = s.bitsWritten u ++ valueBits v n ∧ s'.writerOk u := by
  induction n generalizing s with
  | zero => exact ⟨s, rfl, by simp [valueBits], hok⟩
  | succ n ih =>
    obtain ⟨s₁, h₁, hb₁, ho₁⟩ := writeBit_stream hok (v.getLsbD n)
    obtain ⟨s₂, h₂, hb₂, ho₂⟩ := ih ho₁
    exact ⟨s₂, by simp [writeTail, h₁, Act.bind, h₂], by simp [hb₂, hb₁, valueBits], ho₂⟩

/-- WRITEBITS appends the low `n` bits of its value, the most significant first (R63, R149). -/
theorem writeBits_stream {u : UnitId} (v : U64) (n : Nat) {s : State} (hok : s.writerOk u) :
    ∃ s', writeBits u v n s = .done ⟨⟩ s' ∧ s'.bitsWritten u = s.bitsWritten u ++ valueBits v n ∧ s'.writerOk u := by
  obtain ⟨s₁, h₁, hb₁, ho₁⟩ := writeByteRun_stream v (n % 8) (n / 8) hok
  obtain ⟨s₂, h₂, hb₂, ho₂⟩ := writeTail_stream v (n % 8) ho₁
  refine ⟨s₂, by simp [writeBits, h₁, Act.bind, h₂], ?_, ho₂⟩
  rw [hb₂, hb₁, show 8 * (n / 8) + n % 8 = n by omega]

end Sys2Proof.Machine
end

