-- ==== Sys2Proof/Laws/Counts.lean ====
section
/-!
SUPPORT. How many bytes a command moves follows from how many bits it moves, since the registers hold less than a byte
(R270).
-/

namespace Sys2Proof.Machine

/-- Whole bytes at the end of a sequence of bits are the last whole bytes of the bytes it ends in. -/
theorem bytes_of_bits {front rest : List Bit} {l m : List Byte} (h : front ++ bytesBits l = rest ++ bytesBits m)
    (hlen : m.length ≤ l.length) : m = l.drop (l.length - m.length) := by
  induction l generalizing front with
  | nil => simpa using hlen
  | cons b l ih =>
    rcases Nat.lt_or_ge l.length m.length with hm | hm
    · have hl : m.length = (b :: l).length := by simp at hlen ⊢; omega
      have hj : bytesBits (b :: l) = bytesBits m := (List.append_inj' h (by simp only [length_bytesBits, hl])).2
      rw [hl, Nat.sub_self, List.drop_zero]
      clear ih h hm hlen
      generalize b :: l = l' at hl hj
      induction m generalizing l' with
      | nil => exact (List.length_eq_zero_iff.mp hl.symm).symm
      | cons c m ih =>
        cases l' with
        | nil => simp at hl
        | cons d l' =>
          simp only [bytesBits_cons] at hj
          obtain ⟨hd, ht⟩ := List.append_inj hj rfl
          rw [bitsOf_inj hd, ih l' (by simpa using hl) ht]
    · rw [ih (front := front ++ bitsOf b) (by simpa using h) hm, List.length_cons, List.length_drop]
      rw [show l.length + 1 - (l.length - (l.length - m.length)) = l.length - m.length + 1 by omega, List.drop_succ_cons]

/-- A read of `l` bits takes `l.length / 8` bytes of the supply, and one more where the rest exceeds the leftover. -/
theorem supply_of_bits {u : UnitId} {s t : State} {r : Reader} {l : List Bit} (hr : s.readerOf u = some r)
    (hok : r.ok = true) (ht : t.readerOk u) (h : s.bitsAhead u = l ++ t.bitsAhead u) :
    t.supply u = (s.supply u).drop (l.length / 8 + if r.count.toNat < l.length % 8 then 1 else 0) := by
  obtain ⟨r', hr', hok'⟩ := ht
  have hc := ((Reader.ok_iff r).mp hok).1
  have hc' := ((Reader.ok_iff r').mp hok').1
  rw [State.bitsAhead_eq hr, State.bitsAhead_eq hr', ← List.append_assoc] at h
  have hl := congrArg List.length h
  simp only [List.length_append, length_bytesBits, length_reader_bits (Reader.ok_countLegal hok),
    length_reader_bits (Reader.ok_countLegal hok')] at hl
  rw [bytes_of_bits h (by omega)]
  congr 1
  split <;> omega

/-- A write of `n` bits delivers `n / 8` bytes, and one more where the rest fills the free slots. -/
theorem delivered_of_bits {u : UnitId} {s t : State} {w : Writer} {l : List Bit} (hw : s.writerOf u = some w)
    (hok : w.ok = true) (ht : t.writerOk u) (h : t.bitsWritten u = s.bitsWritten u ++ l) :
    (t.delivered u).length =
      (s.delivered u).length + (l.length / 8 + if w.count.toNat ≤ l.length % 8 then 1 else 0) := by
  obtain ⟨⟨w', hw', hok'⟩, -⟩ := ht
  have hc := (Writer.ok_iff w).mp hok
  have hc' := (Writer.ok_iff w').mp hok'
  rw [State.bitsWritten_eq hw, State.bitsWritten_eq hw'] at h
  have hl := congrArg List.length h
  simp only [List.length_append, length_bytesBits, length_writer_bits (Writer.ok_countLegal hok),
    length_writer_bits (Writer.ok_countLegal hok')] at hl
  split <;> omega

end Sys2Proof.Machine
end

