-- ==== Sys2Proof/Laws/Ends.lean ====
section
/-!
SUPPORT. Reading past what is ahead: the answer that follows the supply, and what each read makes of it (R117 to R120, R126).
-/

namespace Sys2Proof.Machine

/-- With its supply used up, a unit is answered what follows it. -/
theorem State.sourceAnswer_of_thenAnswers {s : State} {u} (h : s.supply u = []) {a} (ha : s.thenAnswers u = some a) : s.sourceAnswer u = some a := by
  rcases hx : s.unitAt u with _ | (⟨k, r⟩ | _ | ⟨k, r, k', w⟩ | ⟨l, r, w⟩) <;> simp only [State.supply, State.thenAnswers, State.sourceAnswer, hx] at h ha ⊢
  · cases ha
  · simp [Source.thenAnswers, h] at ha
    unfold Source.next
    cases hp : (s.source k).planned with
    | nil => simp [hp] at ha; cases hq : (s.source k).after <;> simp [hq] at ha ⊢; exact ha
    | cons => simpa [hp] using ha
  · cases ha
  · simp [Source.thenAnswers, h] at ha
    unfold Source.next
    cases hp : (s.source k).planned with
    | nil => simp [hp] at ha; cases hq : (s.source k).after <;> simp [hq] at ha ⊢; exact ha
    | cons => simpa [hp] using ha
  · subst h; simpa using ha

theorem State.thenAnswers_afterPull {s : State} {u} {b rest} (h : s.supply u = b :: rest) : (s.afterPull u (.byte b)).thenAnswers u = s.thenAnswers u := by
  rcases hx : s.unitAt u with _ | (⟨k, r⟩ | _ | ⟨k, r, k', w⟩ | ⟨l, r, w⟩) <;> simp only [State.supply, hx] at h
  · cases h
  · obtain ⟨l', hl, hr⟩ := plainBytes_eq_cons h
    simp [State.thenAnswers, State.afterPull, hx, Source.answered, Source.thenAnswers, hl, plainBytes]
  · cases h
  · obtain ⟨l', hl, hr⟩ := plainBytes_eq_cons h
    simp [State.thenAnswers, State.afterPull, hx, Source.answered, Source.thenAnswers, hl, plainBytes]
  · simp [State.thenAnswers, State.afterPull, hx, BitUnit.setStore]

theorem State.thenAnswers_setReader (s : State) (u r) : (s.setReader u r).thenAnswers u = s.thenAnswers u := by
  rcases hx : s.unitAt u with _ | (_|_|_|_) <;> simp [State.thenAnswers, hx, BitUnit.setReader]

theorem thenAnswers_readBit {u} {s : State} (hok : s.readerOk u) (h : s.bitsAhead u ≠ []) {b t} (hb : readBit u s = .done b t) : t.thenAnswers u = s.thenAnswers u := by
  obtain ⟨r, hr, hro⟩ := hok
  have hl := Reader.ok_countLegal hro
  by_cases h0 : r.count = 0#4
  · cases hsup : s.supply u with
    | nil => exact absurd (by simp [State.bitsAhead_eq hr, bits_aligned_reader h0, hsup]) h
    | cons b' rest =>
      obtain ⟨ha, hs⟩ := State.pull_supply hsup
      rw [readBit_empty hr h0 ha] at hb; cases hb
      rw [State.thenAnswers_setReader, State.thenAnswers_afterPull hsup]
  · rw [readBit_buffered hr hl h0] at hb; cases hb
    rw [State.thenAnswers_setReader]

theorem thenAnswers_readByte {u} {s : State} (hok : s.readerOk u) (h : 8 ≤ (s.bitsAhead u).length) {b t} (hb : readByte u s = .done b t) : t.thenAnswers u = s.thenAnswers u := by
  obtain ⟨r, hr, hro⟩ := hok
  have hl := Reader.ok_countLegal hro
  cases hsup : s.supply u with
  | nil =>
    have := ((Reader.ok_iff r).mp hro).1
    simp [State.bitsAhead_eq hr, hsup, length_reader_bits hl] at h
    omega
  | cons b' rest =>
    obtain ⟨ha, hs⟩ := State.pull_supply hsup
    by_cases h0 : r.count = 0#4
    · rw [readByte_aligned hr h0 ha] at hb; cases hb; rw [State.thenAnswers_afterPull hsup]
    · rw [readByte_unaligned hr hl h0 ha] at hb; cases hb; rw [State.thenAnswers_setReader, State.thenAnswers_afterPull hsup]

/-- The failure an answer without a byte raises (R126). -/
def SrcResp.failure (a : SrcResp) : Failure := match a with | .err e => Failure.io e | _ => Failure.eof

theorem readBit_at_end {u} {s : State} (hok : s.readerOk u) (h : s.bitsAhead u = []) {a} (ha : s.thenAnswers u = some a) (hn : ∀ b, a ≠ .byte b ) :
    readBit u s = .fail (SrcResp.failure a) (s.afterPull u a) := by
  obtain ⟨r, hr, hro⟩ := hok
  have hl := Reader.ok_countLegal hro
  rw [State.bitsAhead_eq hr] at h
  simp at h
  have h0 : r.count = 0#4 := by
    have := length_reader_bits hl; rw [h.1] at this; simp at this
    simpa [BitVec.toNat_eq] using this.symm
  have hs : s.supply u = [] := by
    cases hs : s.supply u with
    | nil => rfl
    | cons b l => rw [hs] at h; simp [bitsOf] at h
  have := State.sourceAnswer_of_thenAnswers hs ha
  rw [readBit_empty hr h0 this]
  cases a <;> simp [SrcResp.failure]; exact absurd rfl (hn _)

theorem readByte_at_end {u} {s : State} (hok : s.readerOk u) (h : (s.bitsAhead u).length < 8) {a} (ha : s.thenAnswers u = some a) (hn : ∀ b, a ≠ .byte b ) (hn' : ∀ b, a ≠ .byteEof b ) :
    readByte u s = .fail (SrcResp.failure a) (s.afterPull u a) := by
  obtain ⟨r, hr, hro⟩ := hok
  have hl := Reader.ok_countLegal hro
  rw [State.bitsAhead_eq hr] at h
  have hs : s.supply u = [] := by
    cases hs : s.supply u with
    | nil => rfl
    | cons b l => rw [hs] at h; simp at h; omega
  have := State.sourceAnswer_of_thenAnswers hs ha
  by_cases h0 : r.count = 0#4
  · rw [readByte_aligned hr h0 this]
    cases a <;> simp [SrcResp.failure]
    · exact absurd rfl (hn _)
    · exact absurd rfl (hn' _)
  · rw [readByte_unaligned hr hl h0 this]
    cases a <;> simp [SrcResp.failure]
    · exact absurd rfl (hn _)

/-- The byte phase of READBITS with fewer bits ahead than it asks for (R119). -/
theorem readByteRun_at_end {u} (k : Nat) (acc) {s : State} (hok : s.readerOk u) (h : (s.bitsAhead u).length < 8 * k) {a} (ha : s.thenAnswers u = some a) (hn : ∀ b, a ≠ .byte b ) (hn' : ∀ b, a ≠ .byteEof b ) : ∃ t, readByteRun u k acc s = .fail (SrcResp.failure a) t := by
  induction k generalizing acc s with
  | zero => omega
  | succ k ih =>
    by_cases h8 : 8 ≤ (s.bitsAhead u).length
    · obtain ⟨b, t, hb, hs, ht⟩ := readByte_stream hok h8
      obtain ⟨t', h'⟩ := ih ((acc <<< 8) ||| byteValue b) ht (by rw [hs] at h; simp at h; omega) (by rw [thenAnswers_readByte hok h8 hb]; exact ha)
      exact ⟨t', by rw [readByteRun_succ, hb]; exact h'⟩
    · exact ⟨_, by rw [readByteRun_succ, readByte_at_end hok (by omega) ha hn hn']; rfl⟩

theorem thenAnswers_readByteRun {u} (k : Nat) (acc) {s : State} (hok : s.readerOk u) (h : 8 * k ≤ (s.bitsAhead u).length) {v t} (hb : readByteRun u k acc s = .done v t) : t.thenAnswers u = s.thenAnswers u := by
  induction k generalizing acc s with
  | zero => cases hb; rfl
  | succ k ih =>
    obtain ⟨b, t1, hb1, hs, ht⟩ := readByte_stream hok (by omega)
    rw [readByteRun_succ, hb1] at hb
    rw [ih _ ht (by rw [hs] at h; simp at h; omega) hb, thenAnswers_readByte hok (by omega) hb1]

/-- The tail of READBITS with fewer bits ahead than it asks for (R118). -/
theorem readTail_at_end {u} (n : Nat) (acc) {s : State} (hok : s.readerOk u) (h : (s.bitsAhead u).length < n) {a} (ha : s.thenAnswers u = some a) (hn : ∀ b, a ≠ .byte b ) :
    ∃ t, t.readerOf u = some ⟨0, 0⟩ ∧ readTail u n acc s = if n = (s.bitsAhead u).length + 1 ∧ (SrcResp.failure a).cause = .eof then .done (packBits acc (s.bitsAhead u)) t else .fail (SrcResp.failure a) t := by
  induction n generalizing acc s with
  | zero => omega
  | succ n ih =>
    cases hb : s.bitsAhead u with
    | nil =>
      have := readBit_at_end hok hb ha hn
      have hrd : (s.afterPull u a).readerOf u = some ⟨0, 0⟩ := by
        obtain ⟨r, hr, hro⟩ := hok
        have hl := Reader.ok_countLegal hro
        rw [State.bitsAhead_eq hr] at hb
        simp at hb
        have h0 := length_reader_bits hl
        rw [hb.1] at h0
        rw [State.readerOf_afterPull, hr]
        obtain ⟨p, c⟩ := r
        have hz := ((Reader.ok_iff _).mp hro).2
        simp at h0 hz
        have hc : c = 0#4 := by simpa [BitVec.toNat_eq] using h0.symm
        subst hc
        have : p = 0#8 := by
          apply BitVec.eq_of_getLsbD_eq; intro i hi; simpa using hz i (by simpa using hi)
        subst this; rfl
      cases n with
      | zero =>
        refine ⟨s.afterPull u a, hrd, ?_⟩
        rw [readTail_one, this]
        simp [Act.bind, shortRead, packBits]
      | succ n =>
        refine ⟨s.afterPull u a, hrd, ?_⟩
        rw [readTail_succ, this]
        simp [Act.bind]
    | cons b0 l0 =>
      obtain ⟨b, t, hbb, hs, ht⟩ := readBit_stream hok (by rw [hb]; simp)
      have ht2 := thenAnswers_readBit hok (by rw [hb]; simp) hbb
      rw [hb] at hs; cases hs
      rw [hb] at h; simp at h
      cases n with
      | zero => omega
      | succ n =>
        obtain ⟨t', hr', h'⟩ := ih ((acc <<< 1) ||| bitValue b0) ht (by omega) (by rw [ht2]; exact ha)
        refine ⟨t', hr', ?_⟩
        rw [readTail_succ, hbb]
        simp only [Act.bind]
        rw [h']
        simp [packBits]

/-- READBITS of more bits than are ahead (R117 to R120). -/
theorem readBits_at_end {u} (n : Nat) {s : State} (hok : s.readerOk u) (h : (s.bitsAhead u).length < n) {a} (ha : s.thenAnswers u = some a) (hn : ∀ b, a ≠ .byte b ) (hn' : ∀ b, a ≠ .byteEof b ) :
    ∃ t, (n = (s.bitsAhead u).length + 1 ∧ n % 8 ≠ 0 → t.readerOf u = some ⟨0, 0⟩) ∧ readBits u n s = if n = (s.bitsAhead u).length + 1 ∧ n % 8 ≠ 0 ∧ (SrcResp.failure a).cause = .eof then .done (packBits 0 (s.bitsAhead u)) t else .fail (SrcResp.failure a) t := by
  by_cases hk : 8 * (n / 8) ≤ (s.bitsAhead u).length
  · obtain ⟨l, t, hl, hnn, hs, ht⟩ := readByteRun_stream (n / 8) 0 hok hk
    have h2 := thenAnswers_readByteRun _ _ hok hk hl
    have hlen : (s.bitsAhead u).length = 8 * (n/8) + (t.bitsAhead u).length := by rw [hs]; simp [hnn]
    obtain ⟨t', hr', h'⟩ := readTail_at_end (n % 8) (packBits 0 l) ht (by omega) (by rw [h2]; exact ha) hn
    refine ⟨t', fun _ => hr', ?_⟩
    rw [readBits, hl]; simp only [Act.bind]; rw [h', hs, packBits_append]
    have e : (n % 8 = (t.bitsAhead u).length + 1 ∧ (SrcResp.failure a).cause = .eof) ↔ (n = (l ++ t.bitsAhead u).length + 1 ∧ n % 8 ≠ 0 ∧ (SrcResp.failure a).cause = .eof) := by
      rw [← hs]; constructor
      · rintro ⟨h1, h2⟩; exact ⟨by omega, by omega, h2⟩
      · rintro ⟨h1, h2, h3⟩; exact ⟨by omega, h3⟩
    simp only [e]
  · obtain ⟨t, h'⟩ := readByteRun_at_end (n/8) 0 hok (by omega) ha hn hn'
    refine ⟨t, by rintro ⟨h1, h2⟩; omega, ?_⟩
    rw [readBits, h']
    obtain ⟨r, hr, hro⟩ := hok
    have : ¬ (n = (s.bitsAhead u).length + 1 ∧ n % 8 ≠ 0 ∧ (SrcResp.failure a).cause = .eof) := by rintro ⟨h1, h2, h3⟩; omega
    simp [this, Act.bind]

end Sys2Proof.Machine
end

