-- ==== Sys2Proof/Laws/Fields.lean ====
section
/-!
SUPPORT. The fields of a descriptor built from four fields are those fields (R81).
-/

namespace Sys2Proof

@[simp] theorem opField_descriptor (data : U64) (peer : UnitId) (nb op : Byte) :
    opField (descriptor data peer nb op) = op := by
  apply BitVec.eq_of_getLsbD_eq
  intro i hi
  have h := BitVec.getLsbD_append (x := data ++ peer ++ nb) (y := op) (i := i)
  simpa [opField, descriptor, hi] using h

@[simp] theorem nbField_descriptor (data : U64) (peer : UnitId) (nb op : Byte) :
    nbField (descriptor data peer nb op) = nb := by
  apply BitVec.eq_of_getLsbD_eq
  intro i hi
  have h := BitVec.getLsbD_append (x := data ++ peer ++ nb) (y := op) (i := 8 + i)
  have h₂ := BitVec.getLsbD_append (x := data ++ peer) (y := nb) (i := i)
  simp [hi] at h h₂
  simpa [nbField, descriptor, hi, h₂] using h

@[simp] theorem peerField_descriptor (data : U64) (peer : UnitId) (nb op : Byte) :
    peerField (descriptor data peer nb op) = peer := by
  apply BitVec.eq_of_getLsbD_eq
  intro i hi
  have h := BitVec.getLsbD_append (x := data ++ peer ++ nb) (y := op) (i := 16 + i)
  have h₂ := BitVec.getLsbD_append (x := data ++ peer) (y := nb) (i := 8 + i)
  have h₃ := BitVec.getLsbD_append (x := data) (y := peer) (i := i)
  simp [hi, show ¬ 16 + i < 8 by omega, show 16 + i - 8 = 8 + i by omega] at h h₂ h₃
  simpa [peerField, descriptor, hi, h₂, h₃] using h

@[simp] theorem dataField_descriptor (data : U64) (peer : UnitId) (nb op : Byte) :
    dataField (descriptor data peer nb op) = data := by
  apply BitVec.eq_of_getLsbD_eq
  intro i hi
  have h := BitVec.getLsbD_append (x := data ++ peer ++ nb) (y := op) (i := 32 + i)
  have h₂ := BitVec.getLsbD_append (x := data ++ peer) (y := nb) (i := 24 + i)
  have h₃ := BitVec.getLsbD_append (x := data) (y := peer) (i := 16 + i)
  simp [hi, show ¬ 32 + i < 8 by omega, show ¬ 24 + i < 8 by omega, show 32 + i - 8 = 24 + i by omega,
    show 24 + i - 8 = 16 + i by omega] at h h₂ h₃
  simpa [dataField, descriptor, hi, h₂, h₃] using h

end Sys2Proof
end

