-- ==== Sys2Proof/Laws/Flush.lean ====
section
/-!
SUPPORT. FLUSH by the answer of its one push (R152 to R154).
-/

namespace Sys2Proof.Machine

theorem slotIn_false (w : Writer) : slotIn w false = w.pending := by simp [slotIn]

/-- Writing the registers a writer holds changes nothing. -/
theorem State.setWriter_same {s : State} {u : UnitId} {w : Writer} (h : s.writerOf u = some w) : s.setWriter u w = s := by
  have : ∀ t : Table BitUnit, (Table.find u t).bind BitUnit.writer? = some w → Table.modify u (BitUnit.setWriter w) t = t := by
    intro t
    induction t with
    | nil => intro _; rfl
    | cons e t ih =>
      obtain ⟨k, x⟩ := e
      by_cases hk : u = k
      · simp [Table.find, Table.modify, hk]
        cases x <;> simp [BitUnit.writer?, BitUnit.setWriter] <;> intro h <;> exact h.symm
      · simpa [Table.find, Table.modify, hk] using ih
  have := this s.units h
  simp [State.setWriter, State.updateUnit, this]

theorem State.setWriter_twice (s : State) (u : UnitId) (w w' : Writer) : (s.setWriter u w).setWriter u w' = s.setWriter u w' := by
  have : ∀ t : Table BitUnit, Table.modify u (BitUnit.setWriter w') (Table.modify u (BitUnit.setWriter w) t) = Table.modify u (BitUnit.setWriter w') t := by
    intro t
    induction t with
    | nil => rfl
    | cons e t ih =>
      obtain ⟨k, x⟩ := e
      by_cases hk : u = k
      · simp [Table.modify, hk]; cases x <;> rfl
      · simp [Table.modify, hk, ih]
  simp [State.setWriter, State.updateUnit, this]

theorem State.sinkAnswer_setWriter (s : State) (u : UnitId) (w : Writer) (b : Byte) : (s.setWriter u w).sinkAnswer u b = s.sinkAnswer u b := by
  rcases h : s.unitAt u with _ | (_ | _ | _ | _) <;> simp [State.sinkAnswer, h, BitUnit.setWriter]

theorem State.setWriter_afterPush (s : State) (u : UnitId) (w : Writer) (b : Byte) (a) : (s.setWriter u w).afterPush u b a = (s.afterPush u b a).setWriter u w := by
  have hm : ∀ (l) (t : Table BitUnit), Table.modify u (BitUnit.setStore l) (Table.modify u (BitUnit.setWriter w) t) = Table.modify u (BitUnit.setWriter w) (Table.modify u (BitUnit.setStore l) t) := by
    intro l t
    induction t with
    | nil => rfl
    | cons e t ih =>
      obtain ⟨k, x⟩ := e
      by_cases hk : u = k
      · simp [Table.modify, hk]; cases x <;> rfl
      · simp [Table.modify, hk, ih]
  rcases h : s.unitAt u with _ | (_ | _ | _ | _) <;> simp [State.afterPush, h, BitUnit.setWriter] <;> simp [State.setSink, State.setWriter, State.updateUnit, State.setStore, hm]

/-- A loop of FLUSH with rounds enough pushes the pending byte once; the sink says how it ends (R152, R154). -/
theorem flushLoop_answered {u : UnitId} (n : Nat) {s : State} {w : Writer} (hw : s.writerOf u = some w) (h1 : 1 ≤ w.count.toNat)
   (h7 : w.count.toNat < 8) (hn : w.count.toNat ≤ n) {a} : s.sinkAnswer u w.pending = some a →
   flushLoop u n s = match a with
     | .ack => .done ⟨⟩ ((s.afterPush u w.pending a).setWriter u ⟨0, 8⟩)
     | .short => .fail Failure.short ((s.setWriter u ⟨w.pending, 1#4⟩).afterPush u w.pending a)
     | .nak e => .fail (Failure.io e) ((s.setWriter u ⟨w.pending, 1#4⟩).afterPush u w.pending a) := by
  induction n generalizing s w with
  | zero => omega
  | succ n ih =>
    intro ha
    have hl := (Writer.countLegal_iff w).mpr ⟨h1, by omega⟩
    have h8 : w.count ≠ 8#4 := by intro h; simp [h] at h7
    rw [flushLoop_succ u n hw]
    simp only [h8, if_false]
    by_cases hc : w.count = 1#4
    · have hs : s.setWriter u ⟨w.pending, 1#4⟩ = s := by rw [← hc]; exact State.setWriter_same hw
      rw [writeBit_complete hw hc false (by rw [slotIn_false]; exact ha)]
      rw [hs, slotIn_false]
      cases a with
      | ack =>
        simp only [Act.bind]
        rw [flushLoop_aligned (w := Writer.fresh) (by simp [hw]) rfl]; rfl
      | _ => rfl
    · rw [writeBit_queued hw hl hc]
      simp only [Act.bind, slotIn_false]
      have hp : (w.count - 1#4).toNat = w.count.toNat - 1 := count_pred (by intro h; simp [h] at h1)
      have hc' : w.count.toNat ≠ 1 := by simpa using count_ne.mp hc
      rw [ih (s := s.setWriter u ⟨w.pending, w.count - 1#4⟩) (w := ⟨w.pending, w.count - 1#4⟩) (by simp [hw]) (by simp only [hp]; omega) (by simp only [hp]; omega) (by simp only [hp]; omega) (by rw [State.sinkAnswer_setWriter]; exact ha)]
      cases a <;> simp [State.setWriter_twice, State.setWriter_afterPush]

/-- A loop of FLUSH whose push is never answered. -/
theorem flushLoop_stuck {u : UnitId} (n : Nat) {s : State} {w : Writer} (hw : s.writerOf u = some w) (h1 : 1 ≤ w.count.toNat)
   (h7 : w.count.toNat < 8) (hn : w.count.toNat ≤ n) (ha : s.sinkAnswer u w.pending = none) :
   flushLoop u n s = .stuck .sinkNeverAnswers := by
  induction n generalizing s w with
  | zero => omega
  | succ n ih =>
    have hl := (Writer.countLegal_iff w).mpr ⟨h1, by omega⟩
    have h8 : w.count ≠ 8#4 := by intro h; simp [h] at h7
    rw [flushLoop_succ u n hw]
    simp only [h8, if_false]
    by_cases hc : w.count = 1#4
    · rw [writeBit_stuck hw hc false (by rw [slotIn_false]; exact ha)]; rfl
    · rw [writeBit_queued hw hl hc]
      simp only [Act.bind, slotIn_false]
      have hp : (w.count - 1#4).toNat = w.count.toNat - 1 := count_pred (by intro h; simp [h] at h1)
      have hc' : w.count.toNat ≠ 1 := by simpa using count_ne.mp hc
      exact ih (s := s.setWriter u ⟨w.pending, w.count - 1#4⟩) (w := ⟨w.pending, w.count - 1#4⟩) (by simp [hw]) (by simp only [hp]; omega) (by simp only [hp]; omega) (by simp only [hp]; omega) (by rw [State.sinkAnswer_setWriter]; exact ha)

end Sys2Proof.Machine
end

