-- ==== Sys2Proof/Laws/Invariants.lean ====
section
/-!
SUPPORT. The register invariants of all units and the promise of the ports, under every operation on the state and every
move of a port and a register (R128, R156, R211, R271).
-/

namespace Sys2Proof.Machine

/-! ### The registers -/

theorem State.registersOk_update {s : State} (h : s.registersOk = true) (u : UnitId) (f : BitUnit → BitUnit)
    (hf : ∀ x, s.unitAt u = some x → x.ok = true → (f x).ok = true) : (s.updateUnit u f).registersOk = true :=
  Table.all_modify (α := BitUnit) BitUnit.ok (t := s.units) u f h hf

theorem State.registersOk_setReader {s : State} (h : s.registersOk = true) (u : UnitId) (r : Reader) (hr : r.ok = true) : (s.setReader u r).registersOk = true :=
  State.registersOk_update h u _ fun x _ hx => by cases x <;> simp_all [BitUnit.setReader, BitUnit.ok]

theorem State.registersOk_setWriter {s : State} (h : s.registersOk = true) (u : UnitId) (r : Writer) (hr : r.ok = true) : (s.setWriter u r).registersOk = true :=
  State.registersOk_update h u _ fun x _ hx => by cases x <;> simp_all [BitUnit.setWriter, BitUnit.ok]

theorem State.registersOk_setStore {s : State} (h : s.registersOk = true) (u : UnitId) (l) : (s.setStore u l).registersOk = true :=
  State.registersOk_update h u _ fun x _ hx => by cases x <;> simp_all [BitUnit.setStore, BitUnit.ok]

theorem State.registersOk_reader {s : State} (h : s.registersOk = true) {u r} (hr : s.readerOf u = some r) : r.ok = true := by
  unfold State.readerOf at hr
  cases hx : s.unitAt u with
  | none => simp [hx] at hr
  | some x =>
    have := Table.find_all (α := BitUnit) BitUnit.ok (t := s.units) h hx
    cases x <;> simp_all [BitUnit.reader?, BitUnit.ok]

theorem State.registersOk_writer {s : State} (h : s.registersOk = true) {u r} (hr : s.writerOf u = some r) : r.ok = true := by
  unfold State.writerOf at hr
  cases hx : s.unitAt u with
  | none => simp [hx] at hr
  | some x =>
    have := Table.find_all (α := BitUnit) BitUnit.ok (t := s.units) h hx
    cases x <;> simp_all [BitUnit.writer?, BitUnit.ok]

theorem State.registersOk_pull {s : State} (h : s.registersOk = true) (u a) : (s.afterPull u a).registersOk = true := by
  obtain ⟨k, -, h'⟩ | ⟨l, -, h'⟩ | ⟨-, h'⟩ := s.afterPull_cases u a <;> rw [h']
  · exact h
  · exact State.registersOk_setStore h _ _
  · exact h

theorem State.registersOk_push {s : State} (h : s.registersOk = true) (u b a) : (s.afterPush u b a).registersOk = true := by
  obtain ⟨k, -, h'⟩ | ⟨l, -, h'⟩ | ⟨-, h'⟩ := s.afterPush_cases u b a <;> rw [h']
  · exact h
  · exact State.registersOk_setStore h _ _
  · exact h

theorem readStable_registersOk (u) : ReadStable u (fun s => s.registersOk = true) :=
  ⟨fun _ a h => State.registersOk_pull h u a, fun _ _ r' h hr hm => State.registersOk_setReader h u r' (hm.keeps_ok (State.registersOk_reader h hr))⟩

theorem writeStable_registersOk (u) : WriteStable u (fun s => s.registersOk = true) :=
  ⟨fun _ b a h => State.registersOk_push h u b a, fun _ _ r' h hr hm => State.registersOk_setWriter h u r' (hm.keeps_ok (State.registersOk_writer h hr))⟩

theorem clearStable_registersOk (u) : ClearStable u (fun s => s.registersOk = true) :=
  ⟨fun _ l h => State.registersOk_setStore h u l, fun _ h => State.registersOk_setReader h u _ Reader.ok_fresh, fun _ h => State.registersOk_setWriter h u _ Writer.ok_fresh⟩
/-! ### The ports -/


theorem State.source_answers {s : State} (h : s.portsAnswer = true) (k) : (s.source k).answers = true := by
  simp [State.portsAnswer] at h
  unfold State.source Table.read
  cases hx : Table.find k s.sources with
  | none => rfl
  | some x => exact Table.find_all (fun x => x.answers) (t := s.sources) (by simpa using h.1) hx

theorem State.sink_answers {s : State} (h : s.portsAnswer = true) (k) : (s.sink k).answers = true := by
  simp [State.portsAnswer] at h
  unfold State.sink Table.read
  cases hx : Table.find k s.sinks with
  | none => rfl
  | some x => exact Table.find_all (fun x => x.answers) (t := s.sinks) (by simpa using h.2) hx

theorem Source.next_of_answers {x : Source} (h : x.answers = true) (k) : x.next k ≠ none := by
  unfold Source.next
  cases x.planned <;> simp
  cases hx : x.after <;> simp [Source.answers, hx] at h ⊢

theorem Sink.next_of_answers {x : Sink} (h : x.answers = true) (k b) : x.next k b ≠ none := by
  unfold Sink.next
  cases x.planned <;> simp
  cases hx : x.after <;> simp [Sink.answers, hx] at h ⊢

theorem State.sourceAnswer_of_portsAnswer {s : State} (h : s.portsAnswer = true) {u r} (hr : s.readerOf u = some r) : ∃ a, s.sourceAnswer u = some a := by
  rw [← Option.ne_none_iff_exists']
  unfold State.readerOf at hr
  unfold State.sourceAnswer
  rcases hx : s.unitAt u with _ | (⟨k, r⟩ | _ | ⟨k, r, k', w⟩ | ⟨l, r, w⟩) <;> simp [hx, BitUnit.reader?] at hr ⊢
  · exact Source.next_of_answers (State.source_answers h k) k
  · exact Source.next_of_answers (State.source_answers h k) k
  · cases l <;> simp

theorem State.sinkAnswer_of_portsAnswer {s : State} (h : s.portsAnswer = true) {u r} (hr : s.writerOf u = some r) (b) : ∃ a, s.sinkAnswer u b = some a := by
  rw [← Option.ne_none_iff_exists']
  unfold State.writerOf at hr
  unfold State.sinkAnswer
  rcases hx : s.unitAt u with _ | (⟨k, r⟩ | ⟨k, w⟩ | ⟨k, r, k', w⟩ | ⟨l, r, w⟩) <;> simp [hx, BitUnit.writer?] at hr ⊢
  · exact Sink.next_of_answers (State.sink_answers h k) k b
  · exact Sink.next_of_answers (State.sink_answers h k') k' b

theorem State.portsAnswer_setSource {s : State} (h : s.portsAnswer = true) (k x) (hx : Source.answers x = true) : (s.setSource k x).portsAnswer = true := by
  simp only [State.portsAnswer, Bool.and_eq_true] at h ⊢
  exact ⟨Table.all_write (t := s.sources) Source.answers _ k hx h.1, h.2⟩

theorem State.portsAnswer_setSink {s : State} (h : s.portsAnswer = true) (k x) (hx : Sink.answers x = true) : (s.setSink k x).portsAnswer = true := by
  simp only [State.portsAnswer, Bool.and_eq_true] at h ⊢
  exact ⟨h.1, Table.all_write (t := s.sinks) Sink.answers _ k hx h.2⟩

theorem State.portsAnswer_pull {s : State} (h : s.portsAnswer = true) (u a) : (s.afterPull u a).portsAnswer = true := by
  obtain ⟨k, -, h'⟩ | ⟨l, -, h'⟩ | ⟨-, h'⟩ := s.afterPull_cases u a <;> rw [h']
  · exact State.portsAnswer_setSource h _ _ (State.source_answers h k)
  · exact h
  · exact h

theorem State.portsAnswer_push {s : State} (h : s.portsAnswer = true) (u b a) : (s.afterPush u b a).portsAnswer = true := by
  obtain ⟨k, -, h'⟩ | ⟨l, -, h'⟩ | ⟨-, h'⟩ := s.afterPush_cases u b a <;> rw [h']
  · exact State.portsAnswer_setSink h _ _ (State.sink_answers h k)
  · exact h
  · exact h
theorem readStable_portsAnswer (u : UnitId) : ReadStable u (fun s => s.portsAnswer = true) :=
  ⟨fun _ a h => State.portsAnswer_pull h u a, fun _ _ _ h _ _ => h⟩

theorem writeStable_portsAnswer (u : UnitId) : WriteStable u (fun s => s.portsAnswer = true) :=
  ⟨fun _ b a h => State.portsAnswer_push h u b a, fun _ _ _ h _ _ => h⟩

theorem clearStable_portsAnswer (u : UnitId) : ClearStable u (fun s => s.portsAnswer = true) :=
  ⟨fun _ _ h => h, fun _ h => h, fun _ h => h⟩

end Sys2Proof.Machine
end

