-- ==== Sys2Proof/Laws/Issue.lean ====
section
/-!
SUPPORT. What each command called by another answers: `issue` of the single steps and of READBITS, WRITEBITS and FLUSH, as the
steps of the model (R12). And the legality of a command at a unit that has the half it needs (R84).
-/

namespace Sys2Proof.Machine

/-! ### Legality from the half a unit has -/

/-- A unit with a reader accepts what asks for a readable kind. -/
theorem State.readable_of_readerOf {s : State} {u : UnitId} {r : Reader} (h : s.readerOf u = some r) :
    ∃ k, s.kindOf u = some k ∧ readable k = true := by
  unfold State.readerOf at h
  unfold State.kindOf
  rcases hx : s.unitAt u with _ | (_ | _ | _ | _) <;> simp [hx, BitUnit.reader?] at h <;>
    simp [BitUnit.kind, readable]

/-- A unit with a writer accepts what asks for a writable kind. -/
theorem State.writable_of_writerOf {s : State} {u : UnitId} {w : Writer} (h : s.writerOf u = some w) :
    ∃ k, s.kindOf u = some k ∧ writable k = true := by
  unfold State.writerOf at h
  unfold State.kindOf
  rcases hx : s.unitAt u with _ | (_ | _ | _ | _) <;> simp [hx, BitUnit.writer?] at h <;>
    simp [BitUnit.kind, writable]

theorem State.legal_of_accepts {s : State} {i : Instr} {k : UnitKind} (hk : s.kindOf s.unit = some k)
    (ha : accepts k i = true) (hw : WellFormed i = true) (hp : peerDemand i = none) : s.illegal? i = none :=
  (s.legal_iff i).mpr ⟨k, hk, ha, hw, by simp [State.peerLegal, hp]⟩

theorem wellFormed_readbits {nb : Byte} (h : nb.toNat ≤ 64) : WellFormed (.readbits nb) = true := by
  simp [WellFormed, countInRange, nbitsMax, h]

theorem wellFormed_writebits (v : U64) {nb : Byte} (h : nb.toNat ≤ 64) : WellFormed (.writebits v nb) = true := by
  simp [WellFormed, countInRange, nbitsMax, h]

theorem exec_readbit {s : State} {r : Reader} (h : s.readerOf s.unit = some r) :
    exec .readbit s = conclude ((readBit s.unit s).bind fun b t => .done (bitValue b) t) := by
  obtain ⟨k, hk, hr⟩ := State.readable_of_readerOf h
  exact State.ifLegal_legal (State.legal_of_accepts (i := .readbit) hk hr rfl rfl) _

theorem exec_readbyte {s : State} {r : Reader} (h : s.readerOf s.unit = some r) :
    exec .readbyte s = conclude ((readByte s.unit s).bind fun b t => .done (byteValue b) t) := by
  obtain ⟨k, hk, hr⟩ := State.readable_of_readerOf h
  exact State.ifLegal_legal (State.legal_of_accepts (i := .readbyte) hk hr rfl rfl) _

theorem exec_readbits {s : State} {r : Reader} (h : s.readerOf s.unit = some r) {nb : Byte} (hn : nb.toNat ≤ 64) :
    exec (.readbits nb) s = conclude (readBits s.unit nb.toNat s) := by
  obtain ⟨k, hk, hr⟩ := State.readable_of_readerOf h
  exact State.ifLegal_legal (State.legal_of_accepts (i := .readbits nb) hk hr (wellFormed_readbits hn) rfl) _

theorem exec_writebit {s : State} {w : Writer} (h : s.writerOf s.unit = some w) (bit : Bit) :
    exec (.writebit bit) s = concludeVoid (writeBit s.unit bit s) := by
  obtain ⟨k, hk, hr⟩ := State.writable_of_writerOf h
  exact State.ifLegal_legal (State.legal_of_accepts (i := .writebit bit) hk hr rfl rfl) _

theorem exec_writebyte {s : State} {w : Writer} (h : s.writerOf s.unit = some w) (byt : Byte) :
    exec (.writebyte byt) s = concludeVoid (writeByte s.unit byt s) := by
  obtain ⟨k, hk, hr⟩ := State.writable_of_writerOf h
  exact State.ifLegal_legal (State.legal_of_accepts (i := .writebyte byt) hk hr rfl rfl) _

theorem exec_writebits {s : State} {w : Writer} (h : s.writerOf s.unit = some w) (v : U64) {nb : Byte}
    (hn : nb.toNat ≤ 64) : exec (.writebits v nb) s = concludeVoid (writeBits s.unit v nb.toNat s) := by
  obtain ⟨k, hk, hr⟩ := State.writable_of_writerOf h
  exact State.ifLegal_legal (State.legal_of_accepts (i := .writebits v nb) hk hr (wellFormed_writebits v hn) rfl) _

theorem exec_flush {s : State} {w : Writer} (h : s.writerOf s.unit = some w) :
    exec .flush s = concludeVoid (flush s.unit s) := by
  obtain ⟨k, hk, hr⟩ := State.writable_of_writerOf h
  exact State.ifLegal_legal (State.legal_of_accepts (i := .flush) hk hr rfl rfl) _

theorem exec_breset {s : State} {l : List Byte} {r : Reader} {w : Writer} (h : s.unitAt s.unit = some (.buffer l r w)) :
    exec .breset s = concludeVoid (resetBuffer s.unit s) :=
  State.ifLegal_legal (State.legal_of_accepts (i := .breset) (k := .buffer) (by simp [State.kindOf, h, BitUnit.kind]) rfl rfl rfl) _

/-! ### The commands called by others -/

theorem issue_readbit {u : UnitId} {s : State} {r : Reader} (h : s.readerOf u = some r) :
    issue u .readbit s = (readBit u s).bind fun b t => .done (bitValue b) t := by
  refine issue_eq ?_ (Act.all_bind (readBit_all (readStable_samePort u s) s.samePort_refl) fun _ _ h' => h')
  rw [exec_readbit (s := s.onPort u []) h, ← Act.bind_mapState _ (fun b t => rfl)]
  exact congrArg (fun x => conclude (Act.bind x _)) (readBit_commutes (readCommutes_onPort u u []) s)

theorem issue_readbyte {u : UnitId} {s : State} {r : Reader} (h : s.readerOf u = some r) :
    issue u .readbyte s = (readByte u s).bind fun b t => .done (byteValue b) t := by
  refine issue_eq ?_ (Act.all_bind (readByte_all (readStable_samePort u s) s.samePort_refl) fun _ _ h' => h')
  rw [exec_readbyte (s := s.onPort u []) h, ← Act.bind_mapState _ (fun b t => rfl)]
  exact congrArg (fun x => conclude (Act.bind x _)) (readByte_commutes (readCommutes_onPort u u []) s)

theorem issue_readbits {u : UnitId} {s : State} {r : Reader} (h : s.readerOf u = some r) {nb : Byte}
    (hn : nb.toNat ≤ 64) : issue u (.readbits nb) s = readBits u nb.toNat s := by
  refine issue_eq ?_ (readBits_all (readStable_samePort u s) _ s.samePort_refl)
  rw [exec_readbits (s := s.onPort u []) h hn]
  exact congrArg conclude (readBits_commutes (readCommutes_onPort u u []) _ s)

/-- A step that returns nothing, as a command called by another: it answers 0. -/
theorem issue_void {u : UnitId} {i : Instr} {s : State} {x : Act PUnit}
    (hx : exec i (s.onPort u []) = concludeVoid (x.mapState (·.onPort u []))) (hall : x.All s.samePort) :
    issue u i s = x.bind fun _ t => .done 0 t := by
  refine issue_eq ?_ (Act.all_bind hall fun _ _ h' => h')
  rw [hx, concludeVoid, Act.bind_mapState _ (fun _ t => rfl)]

theorem issue_writebit {u : UnitId} {s : State} {w : Writer} (h : s.writerOf u = some w) (bit : Bit) :
    issue u (.writebit bit) s = (writeBit u bit s).bind fun _ t => .done 0 t := by
  refine issue_void ?_ (writeBit_all (writeStable_samePort u s) bit s.samePort_refl)
  rw [exec_writebit (s := s.onPort u []) h]
  exact congrArg concludeVoid (writeBit_commutes (writeCommutes_onPort u u []) bit s)

theorem issue_writebyte {u : UnitId} {s : State} {w : Writer} (h : s.writerOf u = some w) (byt : Byte) :
    issue u (.writebyte byt) s = (writeByte u byt s).bind fun _ t => .done 0 t := by
  refine issue_void ?_ (writeByte_all (writeStable_samePort u s) byt s.samePort_refl)
  rw [exec_writebyte (s := s.onPort u []) h]
  exact congrArg concludeVoid (writeByte_commutes (writeCommutes_onPort u u []) byt s)

theorem issue_writebits {u : UnitId} {s : State} {w : Writer} (h : s.writerOf u = some w) (v : U64) {nb : Byte}
    (hn : nb.toNat ≤ 64) : issue u (.writebits v nb) s = (writeBits u v nb.toNat s).bind fun _ t => .done 0 t := by
  refine issue_void ?_ (writeBits_all (writeStable_samePort u s) v _ s.samePort_refl)
  rw [exec_writebits (s := s.onPort u []) h v hn]
  exact congrArg concludeVoid (writeBits_commutes (writeCommutes_onPort u u []) v _ s)

theorem issue_flush {u : UnitId} {s : State} {w : Writer} (h : s.writerOf u = some w) :
    issue u .flush s = (flush u s).bind fun _ t => .done 0 t := by
  refine issue_void ?_ (flush_all (writeStable_samePort u s) s.samePort_refl)
  rw [exec_flush (s := s.onPort u []) h]
  exact congrArg concludeVoid (flush_commutes (writeCommutes_onPort u u []) s)

end Sys2Proof.Machine
end

