-- ==== Sys2Proof/Laws/Legality.lean ====
section
/-!
SUPPORT. The two spellings of legality agree: the words of R84 to R87 (`State.Legal`) and the check the commands make
(`State.illegal?`). And one `Keeps` for what every port and register move keeps.
-/

namespace Sys2Proof.Machine

theorem State.Legal_iff (s : State) (i : Instr) : s.Legal i ↔ s.illegal? i = none := by
  rw [State.legal_iff]
  cases i <;> simp only [State.Legal, State.issuedTo, State.peerAmong, accepts, WellFormed, countInRange, nbitsMax,
    State.peerLegal, peerDemand]
  case readfrom p n =>
    rcases h : s.kindOf s.unit with _ | k <;> rcases h' : s.kindOf p with _ | k' <;> simp
    cases k <;> cases k' <;> simp [isBuffer, readable]
  case writeto p n =>
    rcases h : s.kindOf s.unit with _ | k <;> rcases h' : s.kindOf p with _ | k' <;> simp
    cases k <;> cases k' <;> simp [isBuffer, writable]
  case copy p =>
    rcases h : s.kindOf s.unit with _ | k <;> rcases h' : s.kindOf p with _ | k' <;> simp
    cases k <;> cases k' <;> simp [isBuffer]
  all_goals rcases h : s.kindOf s.unit with _ | k <;> simp
  all_goals cases k <;> simp [isBuffer, readable, writable, resettableReader]
  all_goals exact decide_eq_true_iff.symm

/-- Every command makes the one check of legality first. -/
theorem exec_ifLegal (i : Instr) (s : State) : ∃ run, exec i s = s.ifLegal i run := by
  cases i <;> exact ⟨_, rfl⟩

/-- What the moves of every unit keep, every command keeps. -/
theorem keeps_of_stable {Q : State → Prop} (hr : ∀ u, ReadStable u Q) (hw : ∀ u, WriteStable u Q)
    (hc : ∀ u, ClearStable u Q) (u : UnitId) (i : Instr) : Keeps u i Q := by
  cases i <;> simp only [Keeps]
  case rreset => exact (hc u).reader
  all_goals first | exact hr _ | exact hw _ | exact hc _ | exact ⟨hr _, hw _⟩ | exact ⟨hw _, hc _⟩

end Sys2Proof.Machine
end

