-- ==== Sys2Proof/Laws/PerInstr.lean ====
section
/-!
SUPPORT. Statements made per instruction, about the instruction as syntax: one family, one lemma per constructor.
-/

namespace Sys2Proof.Laws.EncodedOpcode

open Sys2Proof

/-- The `op` field of the encoded command is the command's row of the opcode map (R81, R83). -/
def Statement (i : Instr) : Prop := opField (encode i) = opcode i

theorem readbit : Statement .readbit := opField_descriptor _ _ _ _

theorem readbyte : Statement .readbyte := opField_descriptor _ _ _ _

theorem readbits (nb : Byte) : Statement (.readbits nb) := opField_descriptor _ _ _ _

theorem rreset : Statement .rreset := opField_descriptor _ _ _ _

theorem writebit (bit : Bit) : Statement (.writebit bit) := opField_descriptor _ _ _ _

theorem writebyte (byt : Byte) : Statement (.writebyte byt) := opField_descriptor _ _ _ _

theorem writebits (u : U64) (nb : Byte) : Statement (.writebits u nb) := opField_descriptor _ _ _ _

theorem flush : Statement .flush := opField_descriptor _ _ _ _

theorem readfrom (peer : UnitId) (nbits : U64) : Statement (.readfrom peer nbits) := opField_descriptor _ _ _ _

theorem writeto (peer : UnitId) (nbits : U64) : Statement (.writeto peer nbits) := opField_descriptor _ _ _ _

theorem copy (peer : UnitId) : Statement (.copy peer) := opField_descriptor _ _ _ _

theorem breset : Statement .breset := opField_descriptor _ _ _ _

end Sys2Proof.Laws.EncodedOpcode
end

