-- ==== Sys2Proof/Laws/Transfers.lean ====
section
/-!
SUPPORT. FLUSH and the transfers as operations on streams of bits (R152, R185, R190), and a transfer at the end of its stream (R188, R192).
-/

namespace Sys2Proof.Machine

theorem State.writer_of_ok {s : State} {u} (h : s.writerOk u) : ∃ r, s.writerOf u = some r := ⟨h.1.choose, h.1.choose_spec.1⟩

/-- FLUSH appends the zero bits that complete the byte (R152). -/
theorem flushLoop_stream {u} (n : Nat) {s : State} (hok : s.writerOk u) {w} (hw : s.writerOf u = some w) (hn : w.count.toNat % 8 ≤ n) :
    ∃ t, flushLoop u n s = .done ⟨⟩ t ∧ t.bitsWritten u = s.bitsWritten u ++ List.replicate (w.count.toNat % 8) false ∧ t.writerOk u ∧ t.writerOf u = some ⟨0, 8⟩ := by
  induction n generalizing s w with
  | zero =>
    obtain ⟨w', hw', hok'⟩ := hok.1
    rw [hw] at hw'; cases hw'
    have h3 := (Writer.ok_iff w).mp hok'
    have h8 : w.count = 8#4 := by
      have : w.count.toNat = 8 := by omega
      simpa [BitVec.toNat_eq] using this
    refine ⟨s, rfl, by simp [h8], hok, ?_⟩
    rw [hw]
    obtain ⟨p, c⟩ := w; cases h8
    have : p = 0#8 := by
      apply BitVec.eq_of_getLsbD_eq; intro i hi; simpa using h3.2.2 i (by simpa using hi)
    subst this; rfl
  | succ n ih =>
    obtain ⟨w', hw', hok'⟩ := hok.1
    rw [hw] at hw'; cases hw'
    have h3 := (Writer.ok_iff w).mp hok'
    rw [flushLoop_succ u n hw]
    by_cases h8 : w.count = 8#4
    · simp only [h8, if_true]
      refine ⟨s, rfl, by simp , hok, ?_⟩
      rw [hw]
      obtain ⟨p, c⟩ := w; cases h8
      have : p = 0#8 := by
        apply BitVec.eq_of_getLsbD_eq; intro i hi; simpa using h3.2.2 i (by simpa using hi)
      subst this; rfl
    · have h8' : w.count.toNat ≠ 8 := by simpa using count_ne.mp h8
      simp only [h8, if_false]
      obtain ⟨t, ht, hb, hk⟩ := writeBit_stream hok false
      have hl := Writer.ok_countLegal hok'
      have : ∃ w2, t.writerOf u = some w2 ∧ w2.count.toNat % 8 = w.count.toNat - 1 := by
        by_cases h1 : w.count = 1#4
        · obtain ⟨ha, hd, hk⟩ := State.push_acks hok.2 (slotIn w false)
          rw [writeBit_complete hw h1 false ha] at ht; cases ht
          exact ⟨Writer.fresh, by simp [hw], by rw [h1]; rfl⟩
        · rw [writeBit_queued hw hl h1] at ht; cases ht
          refine ⟨⟨slotIn w false, w.count - 1#4⟩, by simp [hw], ?_⟩
          have := count_pred (c := w.count) (by intro h; simp [h] at h3)
          simp only [this]; omega
      obtain ⟨w2, hw2, hc2⟩ := this
      obtain ⟨t', ht', hb', hk', hf⟩ := ih hk hw2 (by omega)
      refine ⟨t', by rw [ht]; exact ht', ?_, hk', hf⟩
      rw [hb', hb, hc2, List.append_assoc]
      congr 1
      have : w.count.toNat % 8 = w.count.toNat - 1 + 1 := by omega
      rw [this, List.replicate_succ]; rfl

/-- What the writer of the unit `u` has written is the same in `t` as in `s`. -/
def SameWritten (u : UnitId) (s t : State) : Prop := t.unitAt u = s.unitAt u ∧ t.sinks = s.sinks

/-- What the reader of the unit `u` has ahead is the same in `t` as in `s`. -/
def SameAhead (u : UnitId) (s t : State) : Prop := t.unitAt u = s.unitAt u ∧ t.sources = s.sources

theorem sameWritten_readStable {src dst : UnitId} (h : dst ≠ src) (s : State) : ReadStable src (SameWritten dst s) :=
  ⟨fun t a ht => ⟨by rw [State.unitAt_afterPull_other _ h]; exact ht.1, by simp [ht.2]⟩, fun t r r' ht _ _ => ⟨by rw [State.unitAt_setReader_other _ h]; exact ht.1, by simp [ht.2]⟩⟩

theorem sameAhead_writeStable {src dst : UnitId} (h : src ≠ dst) (s : State) : WriteStable dst (SameAhead src s) :=
  ⟨fun t b a ht => ⟨by rw [State.unitAt_afterPush_other _ h]; exact ht.1, by simp [ht.2]⟩, fun t r r' ht _ _ => ⟨by rw [State.unitAt_setWriter_other _ h]; exact ht.1, by simp [ht.2]⟩⟩

theorem SameWritten.ok {u} {s t : State} (h : SameWritten u s t) (hk : s.writerOk u) : t.writerOk u := by
  obtain ⟨h1, h2⟩ := h
  obtain ⟨h3, h4⟩ := hk
  refine ⟨by simpa [State.writerOf, h1] using h3, ?_⟩
  simpa [State.acks, h1, State.sink, h2] using h4

theorem SameWritten.bits {u} {s t : State} (h : SameWritten u s t) : t.bitsWritten u = s.bitsWritten u := by
  obtain ⟨h1, h2⟩ := h
  simp [State.bitsWritten, State.delivered, State.writerOf, h1, State.sink, h2]

theorem SameAhead.ok {u} {s t : State} (h : SameAhead u s t) (hk : s.readerOk u) : t.readerOk u := by
  obtain ⟨h1, h2⟩ := h
  simpa [State.readerOk, State.readerOf, h1] using hk

theorem SameAhead.bits {u} {s t : State} (h : SameAhead u s t) : t.bitsAhead u = s.bitsAhead u := by
  obtain ⟨h1, h2⟩ := h
  simp [State.bitsAhead, State.supply, State.readerOf, h1, State.source, h2]

theorem SameAhead.th {u} {s t : State} (h : SameAhead u s t) : t.thenAnswers u = s.thenAnswers u := by
  obtain ⟨h1, h2⟩ := h
  simp [State.thenAnswers, h1, State.source, h2]

theorem transferByte_stream {rc wc} {src dst : UnitId} (hne : src ≠ dst) {s : State} (hr : s.readerOk src) (hw : s.writerOk dst) (h : 8 ≤ (s.bitsAhead src).length) :
   ∃ b t, (((readByte src s).inContext rc).bind fun b s' => (writeByte dst b s').inContext wc) = .done ⟨⟩ t ∧ s.bitsAhead src = bitsOf b ++ t.bitsAhead src ∧ t.bitsWritten dst = s.bitsWritten dst ++ bitsOf b ∧ t.readerOk src ∧ t.writerOk dst ∧ t.thenAnswers src = s.thenAnswers src := by
  obtain ⟨b, t, hb, hs, ht⟩ := readByte_stream hr h
  have hq := readByte_all (sameWritten_readStable hne.symm s) (u := src) ⟨rfl, rfl⟩
  have hth := thenAnswers_readByte hr h hb
  rw [hb] at hq
  obtain ⟨t2, h2, hb2, hk2⟩ := writeByte_stream (SameWritten.ok hq hw) b
  have hq2 := writeByte_all (sameAhead_writeStable hne t) b (u := dst) ⟨rfl, rfl⟩
  rw [h2] at hq2
  refine ⟨b, t2, by simp [hb, Act.inContext, Act.bind, h2], ?_, ?_, SameAhead.ok hq2 ht, hk2, ?_⟩
  · rw [SameAhead.bits hq2]; exact hs
  · rw [hb2, SameWritten.bits hq]
  · rw [SameAhead.th hq2, hth]

theorem transferBytes_stream {rc wc} {src dst : UnitId} (hne : src ≠ dst) (k : Nat) {s : State} (hr : s.readerOk src) (hw : s.writerOk dst) (h : 8 * k ≤ (s.bitsAhead src).length) :
   ∃ l t, transferBytes rc wc src dst k s = .done ⟨⟩ t ∧ l.length = 8 * k ∧ s.bitsAhead src = l ++ t.bitsAhead src ∧ t.bitsWritten dst = s.bitsWritten dst ++ l ∧ t.readerOk src ∧ t.writerOk dst ∧ t.thenAnswers src = s.thenAnswers src := by
  induction k generalizing s with
  | zero => exact ⟨[], s, rfl, rfl, rfl, by simp, hr, hw, rfl⟩
  | succ k ih =>
    obtain ⟨b, t, hb, h1, h2, h3, h4, h5⟩ := transferByte_stream (rc := rc) (wc := wc) hne hr hw (by omega)
    obtain ⟨l, t', hl, g1, g2, g3, g4, g5, g6⟩ := ih h3 h4 (by rw [h1] at h; simp at h; omega)
    refine ⟨bitsOf b ++ l, t', ?_, by simp [g1]; omega, by simp [h1, g2], by simp [g3, h2], g4, g5, by rw [g6, h5]⟩
    rw [transferBytes]
    have e : (((readByte src s).inContext rc).bind fun b s' => ((writeByte dst b s').inContext wc).bind fun _ s'' => transferBytes rc wc src dst k s'') = ((((readByte src s).inContext rc).bind fun b s' => (writeByte dst b s').inContext wc)).bind fun _ s'' => transferBytes rc wc src dst k s'' := (Act.bind_assoc _ _ _).symm
    rw [e, hb]; exact hl

theorem transferChunk_stream {rc wc} {src dst : UnitId} (hne : src ≠ dst) (n : Nat) {s : State} (hn : n < 8) (hr : s.readerOk src) (hw : s.writerOk dst) (h : n ≤ (s.bitsAhead src).length) :
   ∃ l t, transferChunk rc wc src dst n s = .done ⟨⟩ t ∧ l.length = n ∧ s.bitsAhead src = l ++ t.bitsAhead src ∧ t.bitsWritten dst = s.bitsWritten dst ++ l ∧ t.readerOk src ∧ t.writerOk dst := by
  unfold transferChunk
  by_cases h0 : n = 0
  · subst h0; exact ⟨[], s, rfl, rfl, rfl, by simp, hr, hw⟩
  · simp only [h0, if_false]
    obtain ⟨l, t, hl, hnn, hs, ht⟩ := readBits_stream n hr h
    have hq := readBits_all (sameWritten_readStable hne.symm s) n (u := src) ⟨rfl, rfl⟩
    rw [hl] at hq
    obtain ⟨t2, h2, hb2, hk2⟩ := writeBits_stream (packBits 0 l) n (SameWritten.ok hq hw)
    have hq2 := writeBits_all (sameAhead_writeStable hne t) (packBits 0 l) n (u := dst) ⟨rfl, rfl⟩
    rw [h2] at hq2
    refine ⟨l, t2, by rw [hl]; show Act.inContext wc (writeBits _ _ _ _) = _; rw [h2]; rfl, hnn, by rw [SameAhead.bits hq2]; exact hs, ?_, SameAhead.ok hq2 ht, hk2⟩
    rw [hb2, SameWritten.bits hq, ← hnn, valueBits_packBits _ (by omega)]

/-- A transfer with its bits ahead moves exactly them (R185, R190). -/
theorem transfer_stream {rc wc} {src dst : UnitId} (hne : src ≠ dst) (n : Nat) {s : State} (hr : s.readerOk src) (hw : s.writerOk dst) (h : n ≤ (s.bitsAhead src).length) :
   ∃ l t, transfer rc wc src dst n s = .done ⟨⟩ t ∧ l.length = n ∧ s.bitsAhead src = l ++ t.bitsAhead src ∧ t.bitsWritten dst = s.bitsWritten dst ++ l ∧ t.readerOk src ∧ t.writerOk dst := by
  obtain ⟨l, t, hl, g1, g2, g3, g4, g5, g6⟩ := transferBytes_stream (rc := rc) (wc := wc) hne (n/8) hr hw (by omega)
  obtain ⟨l', t', hl', k1, k2, k3, k4, k5⟩ := transferChunk_stream (rc := rc) (wc := wc) hne (n%8) (by omega) g4 g5 (by rw [g2] at h; simp at h; omega)
  refine ⟨l ++ l', t', by rw [transfer, hl]; exact hl', by simp [g1, k1]; omega, by simp [g2, k2], by simp [g3, k3], k4, k5⟩

theorem transferBytes_at_end {rc wc} {src dst : UnitId} (hne : src ≠ dst) (k : Nat) {s : State} (hr : s.readerOk src) (hw : s.writerOk dst) (h : (s.bitsAhead src).length < 8 * k) (ha : s.thenAnswers src = some .eof) :
   ∃ t, transferBytes rc wc src dst k s = .fail ⟨.eof, rc, 0⟩ t := by
  induction k generalizing s with
  | zero => omega
  | succ k ih =>
    by_cases h8 : 8 ≤ (s.bitsAhead src).length
    · obtain ⟨b, t, hb, h1, h2, h3, h4, h5⟩ := transferByte_stream (rc := rc) (wc := wc) hne hr hw h8
      obtain ⟨t', h'⟩ := ih h3 h4 (by rw [h1] at h; simp at h; omega) (by rw [h5]; exact ha)
      refine ⟨t', ?_⟩
      rw [transferBytes]
      have e : (((readByte src s).inContext rc).bind fun b s' => ((writeByte dst b s').inContext wc).bind fun _ s'' => transferBytes rc wc src dst k s'') = ((((readByte src s).inContext rc).bind fun b s' => (writeByte dst b s').inContext wc)).bind fun _ s'' => transferBytes rc wc src dst k s'' := (Act.bind_assoc _ _ _).symm
      rw [e, hb]; exact h'
    · exact ⟨_, by rw [transferBytes, readByte_at_end hr (by omega) ha (by simp) (by simp)]; rfl⟩

/-- A transfer of more bits than are ahead (R188, R192). -/
theorem transfer_at_end {rc wc} {src dst : UnitId} (hne : src ≠ dst) (n : Nat) {s : State} (hr : s.readerOk src) (hw : s.writerOk dst) (h : (s.bitsAhead src).length < n) (ha : s.thenAnswers src = some .eof) :
   ∃ t, if n = (s.bitsAhead src).length + 1 ∧ n % 8 ≠ 0 then transfer rc wc src dst n s = .done ⟨⟩ t ∧ t.bitsWritten dst = s.bitsWritten dst ++ (s.bitsAhead src).take (n / 8 * 8) ++ false :: (s.bitsAhead src).drop (n / 8 * 8) else transfer rc wc src dst n s = .fail ⟨.eof, rc, 0⟩ t := by
  by_cases hk : 8 * (n/8) ≤ (s.bitsAhead src).length
  · obtain ⟨l, t, hl, g1, g2, g3, g4, g5, g6⟩ := transferBytes_stream (rc := rc) (wc := wc) hne (n/8) hr hw hk
    have hlen : (s.bitsAhead src).length = 8 * (n/8) + (t.bitsAhead src).length := by rw [g2]; simp [g1]
    have h0 : n % 8 ≠ 0 := by omega
    obtain ⟨t', -, h'⟩ := readBits_at_end (n%8) g4 (by omega) (by rw [g6]; exact ha) (by simp) (by simp)
    have hq := readBits_all (sameWritten_readStable hne.symm t) (n%8) (u := src) ⟨rfl, rfl⟩
    rw [transfer, hl]; simp only [Act.bind]
    unfold transferChunk
    simp only [h0, if_false]
    by_cases hc : n = (s.bitsAhead src).length + 1
    · have hc' : n % 8 = (t.bitsAhead src).length + 1 := by omega
      have hx : readBits src (n%8) t = .done (packBits 0 (t.bitsAhead src)) t' := by rw [h', if_pos ⟨hc', by omega, rfl⟩]
      rw [hx] at hq
      obtain ⟨t2, h2, hb2, hk2⟩ := writeBits_stream (packBits 0 (t.bitsAhead src)) (n%8) (SameWritten.ok hq g5)
      refine ⟨t2, ?_⟩
      rw [if_pos ⟨hc, h0⟩]
      refine ⟨by rw [hx]; show Act.inContext wc (writeBits _ _ _ _) = _; rw [h2]; rfl, ?_⟩
      rw [hb2, SameWritten.bits hq, g3, hc', valueBits_packBits_short _ (by omega), g2]
      rw [List.take_left' (by rw [g1]; omega), List.drop_left' (by rw [g1]; omega)]
    · refine ⟨t', ?_⟩
      rw [if_neg (by rintro ⟨a, _⟩; exact hc a), h', if_neg (by rintro ⟨a, _⟩; omega)]; rfl
  · obtain ⟨t, h'⟩ := transferBytes_at_end (rc := rc) (wc := wc) hne (n/8) hr hw (by omega) ha
    refine ⟨t, ?_⟩
    rw [if_neg (by rintro ⟨a, b⟩; obtain ⟨r, _⟩ := hr; omega), transfer, h']; rfl

end Sys2Proof.Machine
end

