-- ==== Sys2Proof/Tests/Slice0.lean ====
section
/-!
SUPPORT. Tests of one step each, their expected results taken from 95_test_vectors.md and 30_encoding.md section 7, and for
every statement with hypotheses a witness that meets them.
-/

namespace Sys2Proof.Tests

open Sys2Proof Sys2Proof.Machine

/-! ### Small states -/

/-- The units given, the source 1, the sink 2, and a command being issued to the unit `u`. -/
def bench (units : Table BitUnit) (src : Source) (snk : Sink) (u : UnitId) : State :=
  { units := units, sources := [(1#16, src)], sinks := [(2#16, snk)], unit := u, results := [], commands := [] }

/-- `r0` over a source. -/
def r0 (r : Reader) (src : Source) : State := bench [(1#16, .reader 1#16 r)] src listSink 1#16

/-- `w0` over a sink. -/
def w0 (w : Writer) (snk : Sink) : State := bench [(2#16, .writer 2#16 w)] (listSource [] false) snk 2#16

/-- `b0`. -/
def b0 (l : List Byte) (r : Reader) (w : Writer) : State :=
  bench [(3#16, .buffer l r w)] (listSource [] false) listSink 3#16

/-- `rw0`. -/
def rw0 (r : Reader) (w : Writer) (src : Source) (snk : Sink) : State :=
  bench [(5#16, .readWriter 1#16 r 2#16 w)] src snk 5#16

/-- `r0`, `w0`, `b0`, `b1` together, a command being issued to `b0`. -/
def all (r : Reader) (w : Writer) (src : Source) (snk : Sink) (l : List Byte) (br : Reader) (bw : Writer) : State :=
  bench [(1#16, .reader 1#16 r), (2#16, .writer 2#16 w), (3#16, .buffer l br bw), (4#16, .buffer [0x77#8] ⟨0x80#8, 1#4⟩ ⟨0x80#8, 7#4⟩)]
    src snk 3#16

/-- An empty source. -/
def noBytes : Source := listSource [] false

/-- All units fresh but `b1`, over an empty source and a sink that acknowledges. -/
def all0 : State := all ⟨0x00#8, 0#4⟩ ⟨0x00#8, 8#4⟩ noBytes listSink [] ⟨0x00#8, 0#4⟩ ⟨0x00#8, 8#4⟩

/-- The outcome is a next state with `p`. -/
def ends (x : Host.Outcome State Fault Refusal) (p : State → Bool) : Bool :=
  match x with
  | .next t => p t
  | .fault _ => false
  | .refused _ => false

/-- The outcome is the fault `f`. -/
def stops (x : Host.Outcome State Fault Refusal) (f : Fault) : Bool :=
  match x with
  | .next _ => false
  | .fault g => g = f
  | .refused _ => false

/-! ### The syntax and the encoding -/

/-- R86: 64 is the largest count. -/
theorem test_wellformed_counts :
    WellFormed (.readbits 64#8) = true ∧ WellFormed (.readbits 65#8) = false ∧
    WellFormed (.writebits 0#64 64#8) = true ∧ WellFormed (.writebits 0xFF#64 255#8) = false := by decide

/-- 30_encoding.md section 7, the reader family. -/
theorem test_decode_reader_words :
    decode 0x000000000000000000000001#96 = .ok .readbit ∧ decode 0x000000000000000000000002#96 = .ok .readbyte ∧
    decode 0x000000000000000000000C03#96 = .ok (.readbits 12#8) ∧
    decode 0x000000000000000000000004#96 = .ok .rreset := by decide

/-- 30_encoding.md section 7, the writer family. -/
theorem test_decode_writer_words :
    decode 0x000000000000000100000011#96 = .ok (.writebit true) ∧
    decode 0x00000000000000CA00000012#96 = .ok (.writebyte 0xCA#8) ∧
    decode 0x000000000000000500000313#96 = .ok (.writebits 5#64 3#8) ∧
    decode 0x000000000000000000000014#96 = .ok .flush := by decide

/-- 30_encoding.md section 7, the buffer family. -/
theorem test_decode_buffer_words :
    decode 0x000000000000000C00010021#96 = .ok (.readfrom 1#16 12#64) ∧
    decode 0x000000000000000C00020022#96 = .ok (.writeto 2#16 12#64) ∧
    decode 0x000000000000000000040023#96 = .ok (.copy 4#16) ∧
    decode 0x000000000000000000000024#96 = .ok .breset := by decide

/-- V-I1, V-I2, V-I3, V-I8, V-I9, V-I16. -/
theorem test_decode_rejects_by_name :
    decode 0#96 = .error (.reservedOpcode 0x00#8) ∧ decode 0x05#96 = .error (.reservedOpcode 0x05#8) ∧
    decode 0xFF#96 = .error (.reservedOpcode 0xFF#8) ∧ decode 0x4103#96 = .error (.reservedCount 65#8) ∧
    decode 0xFF0000FF13#96 = .error (.reservedCount 255#8) ∧ decode 0x4105#96 = .error (.reservedOpcode 0x05#8) := by
  decide

/-- 95_test_vectors.md section 2.5: legal despite odd fields. -/
theorem test_decode_ignores_unused_fields :
    decode 0xFFFFFFFFFFFFFFFFFFFFFF01#96 = .ok .readbit ∧ decode 0xFFFFFFFFFFFFFFFE12347711#96 = .ok (.writebit false) ∧
    decode 0x00000000000000000001FF21#96 = .ok (.readfrom 1#16 0#64) := by decide

/-- 30_encoding.md section 7, the other way: the encoder writes those words. -/
theorem test_encode_words :
    encode (.readbits 12#8) = 0x000000000000000000000C03#96 ∧ encode (.writebit true) = 0x000000000000000100000011#96 ∧
    encode (.writebits 5#64 3#8) = 0x000000000000000500000313#96 ∧
    encode (.writeto 2#16 12#64) = 0x000000000000000C00020022#96 ∧ encode (.copy 4#16) = 0x000000000000000000040023#96 := by
  decide

/-- R89: the text form. -/
theorem test_text :
    Instr.text "w0" (.writebits 5#64 3#8) = "w0.WRITEBITS 5, 3" ∧ Instr.text "b0" .breset = "b0.BRESET" := by decide

/-! ### READBIT, READBYTE, READBITS, RRESET -/

/-- V-R1, first line. -/
theorem test_readbit_pulls :
    ends (exec .readbit (r0 ⟨0x00#8, 0#4⟩ (listSource [0xB0#8] false)))
      (fun t => t.results = [.ok 1#64] && t.readerOf 1#16 = some ⟨0x60#8, 7#4⟩) = true := by decide

/-- V-R6, second row: the byte that comes with the end of input is dropped. -/
theorem test_readbit_eof_with_byte :
    ends (exec .readbit (r0 ⟨0x00#8, 0#4⟩ (listSource [0xAB#8] true)))
      (fun t => t.results = [.fail ⟨.eof, .none, 0#16⟩] && t.readerOf 1#16 = some ⟨0x00#8, 0#4⟩) = true := by decide

/-- V-R2, `c = 5`. -/
theorem test_readbyte_unaligned :
    ends (exec .readbyte (r0 ⟨0x28#8, 5#4⟩ (listSource [0x3C#8] false)))
      (fun t => t.results = [.ok 0x29#64] && t.readerOf 1#16 = some ⟨0xE0#8, 5#4⟩) = true := by decide

/-- V-R6, first row: aligned, the end of input is masked. -/
theorem test_readbyte_masks_eof :
    ends (exec .readbyte (r0 ⟨0x00#8, 0#4⟩ (listSource [0xAB#8] true)))
      (fun t => t.results = [.ok 0xAB#64] && t.readerOf 1#16 = some ⟨0x00#8, 0#4⟩) = true := by decide

/-- V-R4, first line. -/
theorem test_readbits_across_bytes :
    ends (exec (.readbits 12#8) (r0 ⟨0x00#8, 0#4⟩ (listSource [0xA5#8, 0x3C#8, 0xF0#8] false)))
      (fun t => t.results = [.ok 0xA53#64] && t.readerOf 1#16 = some ⟨0xC0#8, 4#4⟩) = true := by decide

/-- V-R5, third row: the short read is not shifted. -/
theorem test_readbits_short_read :
    ends (exec (.readbits 3#8) (r0 ⟨0xC0#8, 2#4⟩ (listSource [] false)))
      (fun t => t.results = [.ok 3#64] && t.readerOf 1#16 = some ⟨0x00#8, 0#4⟩) = true := by decide

/-- V-R9. -/
theorem test_rreset :
    ends (exec .rreset (r0 ⟨0xF0#8, 5#4⟩ (listSource [0xAD#8] false)))
      (fun t => t.results = [.ok 0#64] && t.readerOf 1#16 = some ⟨0x00#8, 0#4⟩ &&
        (t.source 1#16).planned = [.byte 0xAD#8]) = true := by decide

/-- V-I6: RRESET on a BUFFER. -/
theorem test_rreset_buffer :
    ends (exec .rreset (b0 [0xAB#8] ⟨0xF0#8, 5#4⟩ ⟨0xC0#8, 4#4⟩))
      (fun t => t.results = [.fail ⟨.illegal, .none, 0#16⟩] &&
        t.unitAt 3#16 = some (.buffer [0xAB#8] ⟨0xF0#8, 5#4⟩ ⟨0xC0#8, 4#4⟩)) = true := by decide

/-! ### WRITEBIT, WRITEBYTE, WRITEBITS, FLUSH -/

/-- V-DOC3, first line. -/
theorem test_writebit_first_slot :
    ends (exec (.writebit true) (w0 ⟨0x00#8, 8#4⟩ listSink))
      (fun t => t.results = [.ok 0#64] && t.writerOf 2#16 = some ⟨0x80#8, 7#4⟩ && t.delivered 2#16 = []) = true := by decide

/-- V-W9: a failed completing WRITEBIT records nothing. -/
theorem test_writebit_fails :
    ends (exec (.writebit true) (w0 ⟨0xFE#8, 1#4⟩ (listSinkNakAt 0 9#16)))
      (fun t => t.results = [.fail ⟨.ioErr, .none, 9#16⟩] && t.writerOf 2#16 = some ⟨0xFE#8, 1#4⟩ &&
        t.delivered 2#16 = []) = true := by decide

/-- V-W2, `c = 5`. -/
theorem test_writebyte_unaligned :
    ends (exec (.writebyte 0x3C#8) (w0 ⟨0xA0#8, 5#4⟩ listSink))
      (fun t => t.results = [.ok 0#64] && t.writerOf 2#16 = some ⟨0x80#8, 5#4⟩ && t.delivered 2#16 = [0xA7#8]) = true := by
  decide

/-- V-W2, `c = 1`. -/
theorem test_writebyte_one_slot :
    ends (exec (.writebyte 0x3C#8) (w0 ⟨0xA4#8, 1#4⟩ listSink))
      (fun t => t.writerOf 2#16 = some ⟨0x78#8, 1#4⟩ && t.delivered 2#16 = [0xA4#8]) = true := by decide

/-- V-W11: the first WRITEBYTE took effect, the second did not. -/
theorem test_writebits_fails_midway :
    ends (exec (.writebits 0xABCD#64 16#8) (w0 ⟨0xA0#8, 5#4⟩ (listSinkNakAt 1 9#16)))
      (fun t => t.results = [.fail ⟨.ioErr, .none, 9#16⟩] && t.writerOf 2#16 = some ⟨0x60#8, 5#4⟩ &&
        t.delivered 2#16 = [0xB5#8]) = true := by decide

/-- V-B1. -/
theorem test_writebits_buffer :
    ends (exec (.writebits 0xABC#64 12#8) (b0 [] ⟨0x00#8, 0#4⟩ ⟨0x00#8, 8#4⟩))
      (fun t => t.results = [.ok 0#64] && t.unitAt 3#16 = some (.buffer [0xAB#8] ⟨0x00#8, 0#4⟩ ⟨0xC0#8, 4#4⟩)) = true := by
  decide

/-- V-DOC5. -/
theorem test_flush :
    ends (exec .flush (w0 ⟨0xA0#8, 5#4⟩ listSink))
      (fun t => t.results = [.ok 0#64] && t.writerOf 2#16 = some ⟨0x00#8, 8#4⟩ && t.delivered 2#16 = [0xA0#8]) = true := by
  decide

/-- V-W12: four padding zeros recorded, the fifth and the push not. -/
theorem test_flush_fails :
    ends (exec .flush (w0 ⟨0xA0#8, 5#4⟩ (listSinkNakAt 0 9#16)))
      (fun t => t.results = [.fail ⟨.ioErr, .none, 9#16⟩] && t.writerOf 2#16 = some ⟨0xA0#8, 1#4⟩ &&
        t.delivered 2#16 = []) = true := by decide

/-! ### READFROM, WRITETO, COPY, BRESET -/

/-- V-DOC9, first line. -/
theorem test_readfrom :
    ends (exec (.readfrom 1#16 12#64)
        (all ⟨0x00#8, 0#4⟩ ⟨0x00#8, 8#4⟩ (listSource [0xFF#8, 0xF0#8] false) listSink [] ⟨0x00#8, 0#4⟩ ⟨0x00#8, 8#4⟩))
      (fun t => t.results = [.ok 0#64] && t.unitAt 3#16 = some (.buffer [0xFF#8] ⟨0x00#8, 0#4⟩ ⟨0xF0#8, 4#4⟩) &&
        t.readerOf 1#16 = some ⟨0x00#8, 4#4⟩) = true := by decide

/-- V-B2, second case: the short tail arrives shifted. -/
theorem test_readfrom_short_tail :
    ends (exec (.readfrom 1#16 4#64)
        (all ⟨0xC0#8, 3#4⟩ ⟨0x00#8, 8#4⟩ (listSource [] false) listSink [] ⟨0x00#8, 0#4⟩ ⟨0x00#8, 8#4⟩))
      (fun t => t.results = [.ok 0#64] && t.writerOf 3#16 = some ⟨0x60#8, 4#4⟩) = true := by decide

/-- V-DOC9-literal, second line. -/
theorem test_writeto_eof :
    ends (exec (.writeto 2#16 12#64)
        (all ⟨0x00#8, 4#4⟩ ⟨0x00#8, 8#4⟩ (listSource [] false) listSink [0xFF#8] ⟨0x00#8, 0#4⟩ ⟨0xF0#8, 4#4⟩))
      (fun t => t.results = [.fail ⟨.eof, .readFromBuffer, 0#16⟩] &&
        t.unitAt 3#16 = some (.buffer [] ⟨0x00#8, 0#4⟩ ⟨0xF0#8, 4#4⟩) && t.delivered 2#16 = [0xFF#8]) = true := by decide

/-- V-B5 (a): the byte whose write failed is lost to both. -/
theorem test_writeto_sink_fails :
    ends (exec (.writeto 2#16 24#64)
        (all ⟨0x00#8, 0#4⟩ ⟨0x00#8, 8#4⟩ (listSource [] false) (listSinkNakAt 1 9#16) [0x12#8, 0x34#8, 0x56#8]
          ⟨0x00#8, 0#4⟩ ⟨0x00#8, 8#4⟩))
      (fun t => t.results = [.fail ⟨.ioErr, .writeToSink, 9#16⟩] && t.storeOf 3#16 = some [0x56#8] &&
        t.delivered 2#16 = [0x12#8]) = true := by decide

/-- P4, line 3. -/
theorem test_copy :
    ends (exec (.copy 4#16)
        (all ⟨0x00#8, 0#4⟩ ⟨0x00#8, 8#4⟩ (listSource [] false) listSink [0xCD#8] ⟨0xB0#8, 4#4⟩ ⟨0xE0#8, 4#4⟩))
      (fun t => t.results = [.ok 0#64] && t.unitAt 4#16 = some (.buffer [0xCD#8] ⟨0x00#8, 0#4⟩ ⟨0x00#8, 8#4⟩) &&
        t.unitAt 3#16 = some (.buffer [0xCD#8] ⟨0xB0#8, 4#4⟩ ⟨0xE0#8, 4#4⟩)) = true := by decide

/-- 43_bitbuffer.md rule R205, its example. -/
theorem test_breset :
    ends (exec .breset (b0 [0xCD#8] ⟨0xB0#8, 4#4⟩ ⟨0xE0#8, 4#4⟩))
      (fun t => t.results = [.ok 0#64] && t.unitAt 3#16 = some (.buffer [] ⟨0x00#8, 0#4⟩ ⟨0x00#8, 8#4⟩)) = true := by decide

/-- V-RW1, third line: RRESET clears the reader half only. -/
theorem test_readwriter_rreset :
    ends (exec .rreset (rw0 ⟨0xF0#8, 4#4⟩ ⟨0xA0#8, 5#4⟩ (listSource [] false) listSink))
      (fun t => t.unitAt 5#16 = some (.readWriter 1#16 ⟨0x00#8, 0#4⟩ 2#16 ⟨0xA0#8, 5#4⟩)) = true := by decide

/-! ### The reset and the step -/

/-- R40 to R43 over the table of log 1. -/
theorem test_reset_units :
    State.reset.unitAt 1#16 = some (.reader 1#16 ⟨0x00#8, 0#4⟩) ∧ State.reset.unitAt 2#16 = some (.writer 2#16 ⟨0x00#8, 8#4⟩) ∧
    State.reset.unitAt 3#16 = some (.buffer [] ⟨0x00#8, 0#4⟩ ⟨0x00#8, 8#4⟩) ∧
    State.reset.unitAt 5#16 = some (.readWriter 5#16 ⟨0x00#8, 0#4⟩ 5#16 ⟨0x00#8, 8#4⟩) ∧
    State.reset.unitAt 0x99#16 = none := by decide

/-- A word of the opcode table placed after reset is the next command performed. -/
theorem test_placed_word :
    ends (step (State.reset.withFetchWord 96 0x1200000000000000CA00000012))
      (fun t => t.results = [.ok 0#64] && t.storeOf 3#16 = some [0xCA#8]) = true := by decide

/-! ### Witnesses: states and operands that meet the hypotheses of the statements -/

/-- DecodeEncodeRoundTrip, at the boundary of the counts. -/
theorem witness_DecodeEncodeRoundTrip :
    WellFormed (.readbits 64#8) = true ∧ WellFormed (.writebits 0xFFFFFFFFFFFFFFFF#64 64#8) = true ∧
    WellFormed (.readfrom 0xFFFF#16 0xFFFFFFFFFFFFFFFF#64) = true := by decide

/-- DecodedCommandsAreWellFormed. -/
theorem witness_DecodedCommandsAreWellFormed : decode 0xFFFFFFFFFFFFFFFFFFFF4003#96 = .ok (.readbits 64#8) := by decide

/-- A state whose host has one command to issue. -/
def withCommand (d : Desc) : State := { State.reset with commands := [⟨3#16, d⟩] }

/-- StepRunsTheDecodedCommand. -/
theorem witness_StepRunsTheDecodedCommand :
    (withCommand 0x14#96).commands = ⟨3#16, 0x14#96⟩ :: [] ∧ decode 0x14#96 = .ok .flush := by decide

/-- UndecodableDescriptorIsIllegal, for both reasons. -/
theorem witness_UndecodableDescriptorIsIllegal :
    (withCommand 0x00#96).commands = ⟨3#16, 0x00#96⟩ :: [] ∧ decode 0x00#96 = .error (.reservedOpcode 0#8) ∧
    decode 0x4103#96 = .error (.reservedCount 65#8) := by decide

/-- StepWithoutACommandDoesNothing. -/
theorem witness_StepWithoutACommandDoesNothing : State.reset.commands = [] := rfl

/-- PlacedWordRunsNext. -/
theorem witness_PlacedWordRunsNext : decodeTableWord 96 0x4003 = some (.readbits 64#8) ∧ decodeTableWord 8 0x24 = some .breset := by
  decide

/-- IllegalCommandsHaveNoEffect: no such unit, a wrong kind, a reserved count, the unit itself as peer, a peer of a wrong kind,
a peer that is no unit (V-I4, V-I6, V-I8, V-I10, V-I11, V-I14, V-I15). -/
theorem witness_IllegalCommandsHaveNoEffect :
    ¬ State.reset.Legal .readbit ∧ ¬ (b0 [] Reader.fresh Writer.fresh).Legal .rreset ∧
    ¬ (r0 Reader.fresh noBytes).Legal (.readbits 65#8) ∧ ¬ (b0 [] Reader.fresh Writer.fresh).Legal (.readfrom 3#16 8#64) ∧
    ¬ all0.Legal (.readfrom 2#16 8#64) ∧ ¬ all0.Legal (.readfrom 0x99#16 8#64) := by
  simp only [State.Legal_iff]
  decide

/-- What `ends` says. -/
theorem next_of_ends {x : Host.Outcome State Fault Refusal} {p : State → Bool} (h : ends x p = true) :
    ∃ t, x = .next t ∧ p t = true := by
  cases x with
  | next t => exact ⟨t, rfl, h⟩
  | fault f => cases h
  | refused r => cases h

/-- Every unit in the middle of a byte, a buffer issued to: registers that meet their invariants, bytes ahead of every
reader, a sink that acknowledges. -/
def mid : State :=
  all ⟨0x60#8, 3#4⟩ ⟨0xA0#8, 5#4⟩ (listSource [0xFF#8, 0xF0#8] false) listSink [0x12#8, 0x34#8] ⟨0xB0#8, 4#4⟩ ⟨0xE0#8, 4#4⟩

/-- EveryCommandAnswersOnce. -/
theorem witness_EveryCommandAnswersOnce : ∃ t, exec .breset mid = .next t ∧ (t.results = [.ok 0#64]) = true :=
  (next_of_ends (p := fun t => t.results = [.ok 0#64]) (by decide)).imp fun _ h => ⟨h.1, by simpa using h.2⟩

/-- ReadBitResult: counts 1 and 8, and at count 0 each answer of the source. -/
theorem witness_ReadBitResult :
    (r0 ⟨0x80#8, 1#4⟩ noBytes).readerOf 1#16 = some ⟨0x80#8, 1#4⟩ ∧
    (r0 ⟨0x81#8, 8#4⟩ noBytes).readerOf 1#16 = some ⟨0x81#8, 8#4⟩ ∧
    (r0 Reader.fresh (listSource [0xB0#8] false)).sourceAnswer 1#16 = some (.byte 0xB0#8) ∧
    (r0 Reader.fresh (listSource [0xB0#8] true)).sourceAnswer 1#16 = some (.byteEof 0xB0#8) ∧
    (r0 Reader.fresh noBytes).sourceAnswer 1#16 = some .eof ∧
    (r0 Reader.fresh (listSourceErrAt [] 0 7#16)).sourceAnswer 1#16 = some (.err 7#16) := by decide

/-- ReadByteResult: counts 0, 1 and 8 with an answer; the other answers stand in `witness_ReadBitResult`. -/
theorem witness_ReadByteResult :
    (∀ c ∈ [0#4, 1#4, 8#4], (r0 ⟨0x80#8, c⟩ (listSource [0x3C#8] false)).readerOf 1#16 = some ⟨0x80#8, c⟩ ∧
      (r0 ⟨0x80#8, c⟩ (listSource [0x3C#8] false)).sourceAnswer 1#16 = some (.byte 0x3C#8)) ∧
    (r0 ⟨0x80#8, 8#4⟩ (listSource [0x3C#8] true)).sourceAnswer 1#16 = some (.byteEof 0x3C#8) := by decide

/-- RresetResult, for both kinds. -/
theorem witness_RresetResult :
    (r0 ⟨0xF0#8, 5#4⟩ noBytes).kindOf 1#16 = some .reader ∧
    (rw0 ⟨0xF0#8, 4#4⟩ ⟨0xA0#8, 5#4⟩ noBytes listSink).kindOf 5#16 = some .readWriter := by decide

/-- WriteBitResult: counts 8, 2 and 1, the last with each answer of the sink. -/
theorem witness_WriteBitResult :
    (w0 Writer.fresh listSink).writerOf 2#16 = some ⟨0x00#8, 8#4⟩ ∧
    (w0 ⟨0xFC#8, 2#4⟩ listSink).writerOf 2#16 = some ⟨0xFC#8, 2#4⟩ ∧
    (w0 ⟨0xFE#8, 1#4⟩ listSink).writerOf 2#16 = some ⟨0xFE#8, 1#4⟩ ∧
    (w0 ⟨0xFE#8, 1#4⟩ listSink).sinkAnswer 2#16 0xFF#8 = some .ack ∧
    (w0 ⟨0xFE#8, 1#4⟩ (listSinkShortAt 0)).sinkAnswer 2#16 0xFF#8 = some .short ∧
    (w0 ⟨0xFE#8, 1#4⟩ (listSinkNakAt 0 9#16)).sinkAnswer 2#16 0xFF#8 = some (.nak 9#16) := by decide

/-- WriteByteResult: counts 8 and 1 with each answer of the sink. -/
theorem witness_WriteByteResult :
    ∀ w ∈ [Writer.fresh, ⟨0xFE#8, 1#4⟩], (w0 w listSink).writerOf 2#16 = some w ∧
      (w0 w listSink).sinkAnswer 2#16 0xFE#8 = some .ack ∧
      (w0 w (listSinkShortAt 0)).sinkAnswer 2#16 0xFE#8 = some .short ∧
      (w0 w (listSinkNakAt 0 9#16)).sinkAnswer 2#16 0xFE#8 = some (.nak 9#16) := by decide

/-- FlushResult and FlushFailure: counts 8, 7 and 1 with each answer of the sink. -/
theorem witness_FlushResult_FlushFailure :
    ∀ w ∈ [Writer.fresh, ⟨0x80#8, 7#4⟩, ⟨0xFE#8, 1#4⟩], (w0 w listSink).writerOf 2#16 = some w ∧
      (w0 w listSink).sinkAnswer 2#16 w.pending = some .ack ∧
      (w0 w (listSinkShortAt 0)).sinkAnswer 2#16 w.pending = some .short ∧
      (w0 w (listSinkNakAt 0 9#16)).sinkAnswer 2#16 w.pending = some (.nak 9#16) := by decide

/-- FlushIdempotence: a FLUSH that succeeds, and one that fails. -/
theorem witness_FlushIdempotence :
    ends (exec .flush (w0 ⟨0x80#8, 7#4⟩ listSink)) (fun t => t.results = [.ok 0#64]) = true ∧
    ends (exec .flush (w0 ⟨0x80#8, 7#4⟩ (listSinkShortAt 0)))
      (fun t => t.results = [.fail ⟨.shortWrite, .none, 0#16⟩]) = true := by decide

/-- CopyResult and BresetResult. -/
theorem witness_CopyResult_BresetResult :
    (4#16 : UnitId) ≠ mid.unit ∧
    mid.unitAt mid.unit = some (.buffer [0x12#8, 0x34#8] ⟨0xB0#8, 4#4⟩ ⟨0xE0#8, 4#4⟩) ∧
    mid.unitAt 4#16 = some (.buffer [0x77#8] ⟨0x80#8, 1#4⟩ ⟨0x80#8, 7#4⟩) ∧
    (⟨0xE0#8, 4#4⟩ : Writer).ok = true := by decide

/-- The four statements that a command is its pseudocode: legal commands, at the boundary of the counts. -/
theorem witness_pseudocode :
    mid.Legal (.readbits 64#8) ∧ mid.Legal (.readbits 0#8) ∧ mid.Legal (.writebits 5#64 64#8) ∧
    mid.Legal (.readfrom 1#16 0xFFFFFFFFFFFFFFFF#64) ∧ mid.Legal (.readfrom 4#16 0#64) ∧
    mid.Legal (.writeto 2#16 12#64) := by
  simp only [State.Legal_iff]
  decide

/-- ReadBitAndReadByteDeliverTheStream: exactly one bit and exactly eight bits ahead. -/
theorem witness_ReadBitAndReadByteDeliverTheStream :
    (r0 ⟨0x80#8, 1#4⟩ noBytes).readerOk 1#16 ∧ ((r0 ⟨0x80#8, 1#4⟩ noBytes).bitsAhead 1#16).length = 1 ∧
    (r0 Reader.fresh (listSource [0xB0#8] false)).readerOk 1#16 ∧
    ((r0 Reader.fresh (listSource [0xB0#8] false)).bitsAhead 1#16).length = 8 :=
  ⟨⟨_, rfl, by decide⟩, by decide, ⟨_, rfl, by decide⟩, by decide⟩

/-- ReadBitsDeliversTheStream: exactly as many bits ahead as are read, and 64 of them. -/
theorem witness_ReadBitsDeliversTheStream :
    mid.readerOk mid.unit ∧ (mid.bitsAhead mid.unit).length = (20#8).toNat ∧
    (r0 Reader.fresh (listSource (List.replicate 8 0xA5#8) false)).readerOk 1#16 ∧
    ((r0 Reader.fresh (listSource (List.replicate 8 0xA5#8) false)).bitsAhead 1#16).length = (64#8).toNat :=
  ⟨⟨_, rfl, by decide⟩, by decide, ⟨_, rfl, by decide⟩, by decide⟩

/-- ReadBitsAtTheEndOfTheStream: two bits ahead and three read, two bits ahead and four read, seven bits ahead and a whole
byte read, each answer of the source. -/
theorem witness_ReadBitsAtTheEndOfTheStream :
    (r0 ⟨0xC0#8, 2#4⟩ noBytes).readerOk 1#16 ∧ ((r0 ⟨0xC0#8, 2#4⟩ noBytes).bitsAhead 1#16).length = 2 ∧
    (r0 ⟨0xC0#8, 7#4⟩ noBytes).readerOk 1#16 ∧ ((r0 ⟨0xC0#8, 7#4⟩ noBytes).bitsAhead 1#16).length = 7 ∧
    (r0 ⟨0xC0#8, 2#4⟩ noBytes).thenAnswers 1#16 = some .eof ∧
    (r0 ⟨0xC0#8, 2#4⟩ (listSourceErrAt [] 0 7#16)).thenAnswers 1#16 = some (.err 7#16) :=
  ⟨⟨_, rfl, by decide⟩, by decide, ⟨_, rfl, by decide⟩, by decide, by decide, by decide⟩

/-- WritesAppendToTheStream, with one free slot and with eight. -/
theorem witness_WritesAppendToTheStream :
    (w0 ⟨0xFE#8, 1#4⟩ listSink).writerOk 2#16 ∧ (w0 Writer.fresh listSink).writerOk 2#16 :=
  ⟨⟨⟨_, rfl, by decide⟩, by decide⟩, ⟨_, rfl, by decide⟩, by decide⟩

/-- ReadFromMovesTheStream and WriteToMovesTheStream: exactly as many bits ahead as are moved. -/
theorem witness_transfers_move_the_stream :
    ((1#16 : UnitId) ≠ mid.unit ∧ mid.kindOf mid.unit = some .buffer ∧ mid.writerOk mid.unit ∧ mid.readerOk 1#16 ∧
      (mid.bitsAhead 1#16).length = (19#64).toNat) ∧
    ((2#16 : UnitId) ≠ mid.unit ∧ mid.readerOk mid.unit ∧ mid.writerOk 2#16 ∧
      (mid.bitsAhead mid.unit).length = (20#64).toNat) :=
  ⟨⟨by decide, by decide, ⟨⟨_, rfl, by decide⟩, by decide⟩, ⟨_, rfl, by decide⟩, by decide⟩,
    by decide, ⟨_, rfl, by decide⟩, ⟨⟨_, rfl, by decide⟩, by decide⟩, by decide⟩

/-- TransferAtTheEndOfTheStream, both clauses: 19 and 20 bits ahead, so that 20 and 21 bits end in a short read, and 24 bits
do not. -/
theorem witness_TransferAtTheEndOfTheStream :
    ((1#16 : UnitId) ≠ mid.unit ∧ mid.kindOf mid.unit = some .buffer ∧ mid.writerOk mid.unit ∧ mid.readerOk 1#16 ∧
      (mid.bitsAhead 1#16).length = 19 ∧ mid.thenAnswers 1#16 = some .eof) ∧
    ((2#16 : UnitId) ≠ mid.unit ∧ mid.readerOk mid.unit ∧ mid.writerOk 2#16 ∧ (mid.bitsAhead mid.unit).length = 20) :=
  ⟨⟨by decide, by decide, ⟨⟨_, rfl, by decide⟩, by decide⟩, ⟨_, rfl, by decide⟩, by decide, by decide⟩,
    by decide, ⟨_, rfl, by decide⟩, ⟨⟨_, rfl, by decide⟩, by decide⟩, by decide⟩

/-- BufferRoundTrip: one free slot and eight, no bit and 64 bits. -/
theorem witness_BufferRoundTrip :
    (∀ w ∈ [Writer.fresh, ⟨0xFE#8, 1#4⟩],
      (b0 [] Reader.fresh w).unitAt 3#16 = some (.buffer [] ⟨0x00#8, 0#4⟩ w) ∧ w.ok = true) ∧
    (0#64).toNat < 2 ^ (0#8).toNat ∧ (0xFFFFFFFFFFFFFFFF#64).toNat < 2 ^ (64#8).toNat := by decide

/-- StepKeepsTheRegisterInvariants, StepKeepsTheCanonicalForm, StepKeepsTheUnitTable and StepCompletesWhilePortsAnswer: a state
in the middle of its work, about to perform a command. -/
theorem witness_invariants :
    mid.registersOk = true ∧ mid.wf = true ∧ mid.portsAnswer = true ∧
    ends (step (mid.issueNext ⟨3#16, encode (.readfrom 1#16 12#64)⟩)) (fun t => t.results = [.ok 0#64]) = true := by
  decide

/-- CanonicalStatesThatReadAlikeAreEqual: a state and itself. -/
theorem witness_CanonicalStatesThatReadAlikeAreEqual : mid.wf = true ∧ ∀ u, mid.unitAt u = mid.unitAt u :=
  ⟨by decide, fun _ => rfl⟩

/-- ReaderCommandFrame and WriterCommandFrame. -/
theorem witness_reader_and_writer_frames :
    readerCommand .readbyte = true ∧ ends (exec .readbyte mid) (fun t => t.storeOf 3#16 = some [0x34#8]) = true ∧
    writerCommand (.writebyte 0xCA#8) = true ∧
    ends (exec (.writebyte 0xCA#8) mid) (fun t => t.storeOf 3#16 = some [0x12#8, 0x34#8, 0xEC#8]) = true := by decide

/-- TransferFrame and CopyAndBresetFrame. -/
theorem witness_transfer_and_buffer_frames :
    ends (exec (.readfrom 4#16 8#64) mid) (fun t => t.storeOf 4#16 = some []) = true ∧
    ends (exec (.writeto 4#16 8#64) mid) (fun t => t.storeOf 3#16 = some [0x34#8]) = true ∧
    ends (exec (.copy 4#16) mid) (fun t => t.storeOf 4#16 = some [0x12#8, 0x34#8]) = true ∧
    ends (exec .breset mid) (fun t => t.storeOf 3#16 = some []) = true := by decide

/-- PullMovesTheSourceOn: an external source, a store with bytes and an empty one. -/
theorem witness_PullMovesTheSourceOn :
    mid.sourceAnswer 1#16 = some (.byte 0xFF#8) ∧ mid.sourceNameOf 1#16 = some 1#16 ∧
    mid.sourceAnswer 3#16 = some (.byte 0x12#8) ∧ mid.storeOf 3#16 = some [0x12#8, 0x34#8] ∧
    all0.sourceAnswer 3#16 = some .eof ∧ all0.storeOf 3#16 = some [] := by decide

/-- PullMovesTheSourceOn: a plan used up, an answer for ever after it, the open oracle, and a source that never answers. -/
theorem witness_PullMovesTheSourceOn_after_the_plan :
    (all0.source 1#16).planned = [] ∧ (all0.source 1#16).after = .always .eof ∧ all0.sourceAnswer 1#16 = some .eof ∧
    (State.reset.source 1#16).planned = [] ∧ (State.reset.source 1#16).after = .free ∧
    State.reset.sourceAnswer 1#16 = some (Config.sourceAnswer 1#16 []) ∧
    (r0 Reader.fresh { planned := [], after := .never, pulls := [] }).sourceAnswer 1#16 = none :=
  ⟨rfl, rfl, by decide, rfl, rfl, rfl, rfl⟩

/-- PushMovesTheSinkOn: an external sink and a store. -/
theorem witness_PushMovesTheSinkOn :
    mid.sinkAnswer 2#16 0xCA#8 = some .ack ∧ mid.sinkNameOf 2#16 = some 2#16 ∧
    mid.sinkAnswer 3#16 0xCA#8 = some .ack ∧ mid.storeOf 3#16 = some [0x12#8, 0x34#8] := by decide

/-- PushMovesTheSinkOn: a planned Short, a planned Nak, an answer for ever after the plan, the open oracle, and a sink that
never answers. -/
theorem witness_PushMovesTheSinkOn_answers :
    (w0 Writer.fresh (listSinkShortAt 0)).sinkAnswer 2#16 0xCA#8 = some .short ∧
    (w0 Writer.fresh (listSinkNakAt 0 9#16)).sinkAnswer 2#16 0xCA#8 = some (.nak 9#16) ∧
    (w0 Writer.fresh listSink).sinkAnswer 2#16 0xCA#8 = some .ack ∧ (listSink.planned = [] ∧ listSink.after = .always .ack) ∧
    (State.reset.sink 2#16).after = .free ∧
    State.reset.sinkAnswer 2#16 0xCA#8 = some (Config.sinkAnswer 2#16 [] 0xCA#8) ∧
    (w0 Writer.fresh { planned := [], after := .never, pushes := [] }).sinkAnswer 2#16 0xCA#8 = none :=
  ⟨by decide, by decide, by decide, ⟨rfl, rfl⟩, rfl, rfl, rfl⟩

/-- CodesOfPortsAndResults: a failed result of cause IOERR in a context, and one of another cause (R88). -/
theorem test_failed_result_lines :
    (Result.fail ⟨.ioErr, .writeToSink, 9#16⟩).causeCode = 2#3 ∧ (Result.fail ⟨.ioErr, .writeToSink, 9#16⟩).ctxCode = 4#3 ∧
    (Result.fail ⟨.ioErr, .writeToSink, 9#16⟩).ecode = 9#16 ∧ (Result.fail ⟨.eof, .readFromBuffer, 0#16⟩).causeCode = 1#3 ∧
    (Result.fail ⟨.eof, .readFromBuffer, 0#16⟩).ecode = 0#16 := by decide

/-- CausesByCommand and FailedStepsKeepTheRegisters: failures of each cause. -/
theorem witness_CausesByCommand_FailedStepsKeepTheRegisters :
    ends (exec .readbit (r0 Reader.fresh noBytes)) (fun t => t.results = [.fail ⟨.eof, .none, 0#16⟩]) = true ∧
    ends (exec .readbyte (r0 Reader.fresh (listSourceErrAt [] 0 7#16)))
      (fun t => t.results = [.fail ⟨.ioErr, .none, 7#16⟩]) = true ∧
    ends (exec (.writebit true) (w0 ⟨0xFE#8, 1#4⟩ (listSinkShortAt 0)))
      (fun t => t.results = [.fail ⟨.shortWrite, .none, 0#16⟩]) = true ∧
    ends (exec (.writebyte 1#8) (w0 Writer.fresh (listSinkNakAt 0 9#16)))
      (fun t => t.results = [.fail ⟨.ioErr, .none, 9#16⟩]) = true := by decide

/-- BufferPortsFailOnlyWithEof: a legal reader command that fails. -/
theorem witness_BufferPortsFailOnlyWithEof :
    all0.kindOf all0.unit = some .buffer ∧
    ends (exec .readbyte all0) (fun t => t.results = [.fail ⟨.eof, .none, 0#16⟩]) = true := by decide

/-- CausesByCommand and BufferPortsFailOnlyWithEof: the failing commands of the two witnesses above are legal. -/
theorem witness_failing_commands_are_legal :
    all0.Legal .readbyte ∧ (r0 Reader.fresh noBytes).Legal .readbit ∧
    (w0 ⟨0xFE#8, 1#4⟩ (listSinkShortAt 0)).Legal (.writebit true) := by
  simp only [State.Legal_iff]
  decide

/-- A source that never answers. -/
def deadSource : Source := { planned := [], after := .never, pulls := [] }

/-- A sink that never answers. -/
def deadSink : Sink := { planned := [], after := .never, pushes := [] }

/-- WhereSingleStepsStop: counts 9 and 15, and 0 of a writer; a port that never answers at reader counts 0 and 8 and at writer
counts 1 and 8. -/
theorem witness_WhereSingleStepsStop :
    (∀ c ∈ [9#4, 15#4], stops (exec .readbit (r0 ⟨0x00#8, c⟩ noBytes)) .readerCountReserved = true) ∧
    (∀ c ∈ [0#4, 9#4, 15#4], stops (exec (.writebit true) (w0 ⟨0x00#8, c⟩ listSink)) .writerCountReserved = true) ∧
    (∀ c ∈ [0#4, 8#4], (r0 ⟨0x00#8, c⟩ deadSource).readerOf 1#16 = some ⟨0x00#8, c⟩ ∧
      (r0 ⟨0x00#8, c⟩ deadSource).sourceAnswer 1#16 = none) ∧
    (∀ c ∈ [1#4, 8#4], (w0 ⟨0x00#8, c⟩ deadSink).writerOf 2#16 = some ⟨0x00#8, c⟩) := by decide

/-- WhereSingleStepsStop: the sink of `w0` over `deadSink` answers no push. -/
theorem witness_dead_sink (w : Writer) (b : Byte) : (w0 w deadSink).sinkAnswer 2#16 b = none := rfl

/-- ReadWriterHalvesAreIndependent. -/
theorem witness_ReadWriterHalvesAreIndependent :
    (rw0 ⟨0xF0#8, 4#4⟩ ⟨0xA0#8, 5#4⟩ noBytes listSink).unitAt 5#16 =
      some (.readWriter 1#16 ⟨0xF0#8, 4#4⟩ 2#16 ⟨0xA0#8, 5#4⟩) ∧
    ends (exec .readbit (rw0 ⟨0xF0#8, 4#4⟩ ⟨0xA0#8, 5#4⟩ noBytes listSink)) (fun t => t.results = [.ok 1#64]) = true ∧
    ends (exec .flush (rw0 ⟨0xF0#8, 4#4⟩ ⟨0xA0#8, 5#4⟩ noBytes listSink)) (fun t => t.results = [.ok 0#64]) = true := by
  decide

/-- WriteByteIsEightWriteBits and FlushIsWriteBitsOfZero. -/
theorem witness_WriteByteIsEightWriteBits_FlushIsWriteBitsOfZero :
    (w0 ⟨0xA0#8, 5#4⟩ listSink).writerOk 2#16 ∧ (w0 ⟨0xA0#8, 5#4⟩ listSink).writerOf 2#16 = some ⟨0xA0#8, 5#4⟩ :=
  ⟨⟨⟨_, rfl, by decide⟩, by decide⟩, rfl⟩

/-- TransactionCounts: both halves of one READWRITER, bits enough ahead, each command ending. -/
theorem witness_TransactionCounts :
    (⟨0xC0#8, 2#4⟩ : Reader).ok = true ∧ (⟨0xA0#8, 5#4⟩ : Writer).ok = true ∧
    (rw0 ⟨0xC0#8, 2#4⟩ ⟨0xA0#8, 5#4⟩ (listSource [0x12#8, 0x34#8] false) listSink).acks 5#16 = true ∧
    ((rw0 ⟨0xC0#8, 2#4⟩ ⟨0xA0#8, 5#4⟩ (listSource [0x12#8, 0x34#8] false) listSink).bitsAhead 5#16).length = 18 ∧
    ends (exec (.readbits 18#8) (rw0 ⟨0xC0#8, 2#4⟩ ⟨0xA0#8, 5#4⟩ (listSource [0x12#8, 0x34#8] false) listSink))
      (fun t => t.supply 5#16 = []) = true ∧
    ends (exec (.writebits 0x1F#64 5#8) (rw0 ⟨0xC0#8, 2#4⟩ ⟨0xA0#8, 5#4⟩ (listSource [0x12#8, 0x34#8] false) listSink))
      (fun t => t.delivered 5#16 = [0xBF#8]) = true := by decide

/-- TransactionCounts, the transfers, at the counts 3 and 4 of the reader and 4 and 5 of the writer: 19 bits ahead and all of
them read, 20 bits ahead and all of them written. -/
theorem witness_TransactionCounts_transfers :
    (⟨0x60#8, 3#4⟩ : Reader).ok = true ∧ (⟨0xE0#8, 4#4⟩ : Writer).ok = true ∧ (mid.bitsAhead 1#16).length = 19 ∧
    ends (exec (.readfrom 1#16 19#64) mid)
      (fun t => t.supply 1#16 = [] && (t.storeOf 3#16).map List.length = some 4) = true ∧
    (⟨0xB0#8, 4#4⟩ : Reader).ok = true ∧ (⟨0xA0#8, 5#4⟩ : Writer).ok = true ∧ mid.acks 2#16 = true ∧
    (mid.bitsAhead 3#16).length = 20 ∧
    ends (exec (.writeto 2#16 20#64) mid) (fun t => t.supply 3#16 = [] && (t.delivered 2#16).length = 2) = true := by decide

/-- TransactionCounts: RRESET, COPY and BRESET. -/
theorem witness_TransactionCounts_resets :
    ends (exec .rreset (r0 ⟨0xF0#8, 5#4⟩ (listSource [0xAD#8] false))) (fun t => t.supply 1#16 = [0xAD#8]) = true ∧
    ends (exec (.copy 4#16) mid) (fun t => t.supply 1#16 = [0xFF#8, 0xF0#8]) = true ∧
    mid.kindOf mid.unit = some .buffer ∧ mid.writerOf mid.unit = some ⟨0xE0#8, 4#4⟩ ∧
    ends (exec .flush mid) (fun t => t.delivered 3#16 = [0x12#8, 0x34#8, 0xE0#8]) = true ∧
    ends (exec .breset mid) (fun t => t.delivered 2#16 = []) = true := by decide

end Sys2Proof.Tests
end

section
/-!
PROOFS. The scope of a step (00_scope.md): it performs exactly the command the host issues next (R7, R80), and it keeps
whatever every port and register move keeps, the canonical form of the tables among it (R9, R20, R50).
-/

namespace Sys2Proof.Machine

/-! ### The command a step performs -/

/-- Issuing takes the first command off the host's list and puts its unit on the `unit` lines (R80). -/
theorem State.fetch_of_commands {s : State} {c : Command} {rest : List Command} (h : s.commands = c :: rest) :
    s.fetch = some (c.desc, { s with unit := c.unit, commands := rest }) := by
  simp [State.fetch, h]

theorem step_of_decode_ok {s : State} {c : Command} {rest : List Command} {i : Instr} (hc : s.commands = c :: rest)
    (hd : decode c.desc = .ok i) : step s = exec i { s with unit := c.unit, commands := rest } := by
  simp [step, State.fetch_of_commands hc, hd]

/-- A command put in front of the host's list is the next one performed, and the list is then what it was. -/
theorem step_issueNext {s : State} {c : Command} {i : Instr} (hd : decode c.desc = .ok i) :
    step (s.issueNext c) = exec i { s with unit := c.unit } :=
  step_of_decode_ok (s := s.issueNext c) rfl hd

theorem decodeTableWord_eq_some {nbits w : Nat} {i : Instr} :
    decodeTableWord nbits w = some i ↔ decode (tableDesc nbits w) = .ok i := by
  cases h : decode (tableDesc nbits w) <;> simp [decodeTableWord, h]

/-- Settles O6: the host's list holds the command, so issuing it gives its descriptor to the decoder. -/
theorem stepRunsTheDecodedCommand : Obligations.StepRunsTheDecodedCommand :=
  fun _ _ _ _ hc hd => step_of_decode_ok hc hd

/-- Settles O9: `withFetchWord` is `issueNext` of the word as a descriptor, for the unit `unitFor` picks. -/
theorem placedWordRunsNext : Obligations.PlacedWordRunsNext :=
  fun _ _ _ _ hw => step_issueNext (decodeTableWord_eq_some.mp hw)

/-! ### What every step keeps -/

/-- A step keeps every `Q` that the moves of every unit keep and that neither the command port nor the results touch. -/
theorem step_keeps_of_stable {Q : State → Prop} (hr : ∀ u, ReadStable u Q) (hw : ∀ u, WriteStable u Q)
    (hc : ∀ u, ClearStable u Q) (hanswer : ∀ s r, Q s → Q (s.answer r))
    (hissue : ∀ (s : State) u rest, Q s → Q { s with unit := u, commands := rest })
    {s t : State} (hs : Q s) (h : step s = .next t) : Q t := by
  obtain ⟨-, rfl⟩ | ⟨c, rest, -, ⟨i, -, hexec⟩ | ⟨-, rfl⟩⟩ := step_next h
  · exact hs
  · obtain ⟨s', r, hs', rfl⟩ := exec_next (keeps_of_stable hr hw hc _ i) (hissue s c.unit rest hs) hexec
    exact hanswer s' r hs'
  · exact hanswer _ _ (hissue s c.unit rest hs)

theorem readStable_wf (u : UnitId) : ReadStable u (fun s => s.wf = true) where
  pull _ a h := State.wf_afterPull h u a
  move _ _ r' h _ _ := State.wf_setReader h u r'

theorem writeStable_wf (u : UnitId) : WriteStable u (fun s => s.wf = true) where
  push _ b a h := State.wf_afterPush h u b a
  move _ _ w' h _ _ := State.wf_setWriter h u w'

theorem clearStable_wf (u : UnitId) : ClearStable u (fun s => s.wf = true) where
  store _ l h := State.wf_setStore h u l
  reader _ h := State.wf_setReader h u _
  writer _ h := State.wf_setWriter h u _

/-- Settles O36: pulls, pushes and register moves keep the canonical form, and issuing and answering touch no table. -/
theorem stepKeepsTheCanonicalForm : Obligations.StepKeepsTheCanonicalForm :=
  fun _ _ => step_keeps_of_stable readStable_wf writeStable_wf clearStable_wf (fun _ _ h => h) (fun _ _ _ h => h)

end Sys2Proof.Machine
end

section
/-!
PROOFS. What every step keeps: the invariants of all registers (R128, R156, R211) and the table of the units (R20, R251,
R253).
-/

namespace Sys2Proof.Machine

/-- Settles O35: every move of a reader and of a writer keeps its own invariant, and a failing step makes no move. -/
theorem stepKeepsTheRegisterInvariants : Obligations.StepKeepsTheRegisterInvariants :=
  fun _ _ => step_keeps_of_stable readStable_registersOk writeStable_registersOk clearStable_registersOk
    (fun _ _ h => h) (fun _ _ _ h => h)

theorem readStable_unitTable (u : UnitId) (l : List (UnitId × UnitSpec)) : ReadStable u (fun s => s.unitTable = l) where
  pull s a h := (s.unitTable_afterPull u a).trans h
  move s _ r' h _ _ := (s.unitTable_setReader u r').trans h

theorem writeStable_unitTable (u : UnitId) (l : List (UnitId × UnitSpec)) : WriteStable u (fun s => s.unitTable = l) where
  push s b a h := (s.unitTable_afterPush u b a).trans h
  move s _ w' h _ _ := (s.unitTable_setWriter u w').trans h

theorem clearStable_unitTable (u : UnitId) (l : List (UnitId × UnitSpec)) : ClearStable u (fun s => s.unitTable = l) where
  store s l' h := (s.unitTable_setStore u l').trans h
  reader s h := (s.unitTable_setReader u _).trans h
  writer s h := (s.unitTable_setWriter u _).trans h

/-- Settles O37: a port moves streams and stores, a register move changes registers, and neither is in the table. -/
theorem stepKeepsTheUnitTable : Obligations.StepKeepsTheUnitTable :=
  fun s _ => step_keeps_of_stable (readStable_unitTable · s.unitTable) (writeStable_unitTable · s.unitTable)
    (clearStable_unitTable · s.unitTable) (fun _ _ h => h) (fun _ _ _ h => h) rfl

end Sys2Proof.Machine
end

section
/-!
PROOFS. The canonical form of a table decides it: two tables with rising keys that answer every `find` alike are one list,
and a trimmed table's entries are fixed by what it reads (R9, R20, R50).
-/

namespace Sys2Proof.Machine

variable {α : Type}

theorem Table.find_of_above {k : BitVec 16} {t : Table α} (h : Table.above k t = true) : Table.find k t = none := by
  induction t with
  | nil => rfl
  | cons e t ih =>
    obtain ⟨k', v⟩ := e
    simp only [Table.above, List.all_cons, Bool.and_eq_true, decide_eq_true_eq] at h
    obtain ⟨hk, ht⟩ := h
    rw [Table.find, if_neg (BitVec.ne_of_lt hk), ih ht]

/-- The first key of a rising table is its least. -/
theorem Table.head_le_of_find {j k : BitVec 16} {v x : α} {t : Table α} (h : Table.rising ((k, v) :: t) = true)
    (hj : Table.find j ((k, v) :: t) = some x) : k ≤ j := by
  rw [← BitVec.not_lt]
  intro hlt
  simp only [Table.rising, Bool.and_eq_true] at h
  rw [Table.find, if_neg (BitVec.ne_of_lt hlt), Table.find_of_above (Table.above_trans hlt h.1)] at hj
  cases hj

theorem Table.find_cons_self (k : BitVec 16) (v : α) (t : Table α) : Table.find k ((k, v) :: t) = some v := if_pos rfl

theorem Table.find_cons_other {j k : BitVec 16} (h : j ≠ k) (v : α) (t : Table α) :
    Table.find j ((k, v) :: t) = Table.find j t := if_neg h

/-- Rising tables that answer every `find` alike are equal. -/
theorem Table.ext_of_rising {t t' : Table α} (h : Table.rising t = true) (h' : Table.rising t' = true)
    (hfind : ∀ k, Table.find k t = Table.find k t') : t = t' := by
  induction t generalizing t' with
  | nil =>
    cases t' with
    | nil => rfl
    | cons e' t' =>
      obtain ⟨k', v'⟩ := e'
      simpa [Table.find_cons_self] using hfind k'
  | cons e t ih =>
    obtain ⟨k, v⟩ := e
    cases t' with
    | nil => simpa [Table.find_cons_self] using hfind k
    | cons e' t' =>
      obtain ⟨k', v'⟩ := e'
      have hv := Table.find_cons_self k v t
      have hv' := Table.find_cons_self k' v' t'
      obtain rfl : k = k' :=
        BitVec.le_antisymm (Table.head_le_of_find h (hfind k' ▸ hv')) (Table.head_le_of_find h' (hfind k ▸ hv))
      obtain rfl : v = v' := by simpa [Table.find_cons_self] using hfind k
      simp only [Table.rising, Bool.and_eq_true] at h h'
      have htail : ∀ j, Table.find j t = Table.find j t' := fun j => by
        by_cases hj : j = k
        · rw [hj, Table.find_of_above h.1, Table.find_of_above h'.1]
        · simpa only [Table.find_cons_other hj] using hfind j
      rw [ih h.2 h'.2 htail]

/-- A trimmed table lists exactly the keys it does not read as `d`. -/
theorem Table.find_of_trimmed [DecidableEq α] {d : α} {t : Table α} (h : Table.trimmed d t = true) (k : BitVec 16) :
    Table.find k t = if Table.read d k t = d then none else some (Table.read d k t) := by
  unfold Table.read
  cases hk : Table.find k t with
  | none => simp
  | some x =>
    have hx : x ≠ d := by simpa using Table.find_all (fun x => decide (x ≠ d)) h hk
    simp [hx]

/-- Rising, trimmed tables that read alike are equal. -/
theorem Table.ext_of_read [DecidableEq α] {d : α} {t t' : Table α} (h : Table.rising t = true)
    (h' : Table.rising t' = true) (hd : Table.trimmed d t = true) (hd' : Table.trimmed d t' = true)
    (hread : ∀ k, Table.read d k t = Table.read d k t') : t = t' :=
  Table.ext_of_rising h h' fun k => by rw [Table.find_of_trimmed hd, Table.find_of_trimmed hd', hread]

/-- Settles O40: each of the three tables is fixed by what it reads, and the other fields are given equal. -/
theorem canonicalStatesThatReadAlikeAreEqual : Obligations.CanonicalStatesThatReadAlikeAreEqual := by
  intro s t hs ht hunits hsources hsinks hunit hresults hcommands
  obtain ⟨hu, hsrc, hsnk, hsrcTrim, hsnkTrim⟩ := (State.wf_iff s).mp hs
  obtain ⟨hu', hsrc', hsnk', hsrcTrim', hsnkTrim'⟩ := (State.wf_iff t).mp ht
  have eu : s.units = t.units := Table.ext_of_rising hu hu' hunits
  have esrc : s.sources = t.sources := Table.ext_of_read hsrc hsrc' hsrcTrim hsrcTrim' hsources
  have esnk : s.sinks = t.sinks := Table.ext_of_read hsnk hsnk' hsnkTrim hsnkTrim' hsinks
  cases s
  cases t
  rw [State.mk.injEq]
  exact ⟨eu, esrc, esnk, hunit, hresults, hcommands⟩

end Sys2Proof.Machine
end

section
/-!
PROOFS. The halves of a unit (R29, R171): writing one half's registers commutes with every port and register move of the
other, so with every command on the other.
-/

namespace Sys2Proof.Machine

/-! ### Two updates of one unit -/

theorem Table.modify_modify_same {α : Type} (k : BitVec 16) (f g : α → α) (t : Table α) :
    Table.modify k f (Table.modify k g t) = Table.modify k (f ∘ g) t := by
  induction t with
  | nil => rfl
  | cons e t ih =>
    obtain ⟨k', v⟩ := e
    by_cases h : k = k'
    · simp [Table.modify, h]
    · simpa [Table.modify, h] using ih

theorem State.updateUnit_comm {f g : BitUnit → BitUnit} (h : ∀ x, f (g x) = g (f x)) (s : State) (u : UnitId) :
    (s.updateUnit u g).updateUnit u f = (s.updateUnit u f).updateUnit u g := by
  have hfg : f ∘ g = g ∘ f := funext h
  simp [State.updateUnit, Table.modify_modify_same, hfg]

theorem State.setReader_setWriter (s : State) (u : UnitId) (r : Reader) (w : Writer) :
    (s.setWriter u w).setReader u r = (s.setReader u r).setWriter u w :=
  State.updateUnit_comm (fun x => by cases x <;> rfl) s u

theorem State.setStore_setWriter (s : State) (u : UnitId) (l : List Byte) (w : Writer) :
    (s.setWriter u w).setStore u l = (s.setStore u l).setWriter u w :=
  State.updateUnit_comm (fun x => by cases x <;> rfl) s u

theorem State.setStore_setReader (s : State) (u : UnitId) (l : List Byte) (r : Reader) :
    (s.setReader u r).setStore u l = (s.setStore u l).setReader u r :=
  State.updateUnit_comm (fun x => by cases x <;> rfl) s u

/-! ### The ports and registers of one half do not see the other half -/

theorem readCommutes_setWriter (u : UnitId) (w : Writer) : ReadCommutes u (·.setWriter u w) where
  reader s := s.readerOf_setWriter u w u
  answer s := by
    rcases h : s.unitAt u with _ | (_ | _ | _ | ⟨_ | _, _, _⟩) <;> simp [State.sourceAnswer, h, BitUnit.setWriter]
  pull s a := by
    rcases h : s.unitAt u with _ | (_ | _ | _ | _) <;>
      simp [State.afterPull, h, BitUnit.setWriter, State.setStore_setWriter] <;> rfl
  move s r := s.setReader_setWriter u r w

theorem writeCommutes_setReader (u : UnitId) (r : Reader) : WriteCommutes u (·.setReader u r) where
  writer s := s.writerOf_setReader u r u
  answer s b := by
    rcases h : s.unitAt u with _ | (_ | _ | _ | _) <;> simp [State.sinkAnswer, h, BitUnit.setReader]
  push s b a := by
    rcases h : s.unitAt u with _ | (_ | _ | _ | _) <;>
      simp [State.afterPush, h, BitUnit.setReader, State.setStore_setReader] <;> rfl
  move s w := (s.setReader_setWriter u r w).symm

/-! ### Legality and the answer do not see a change of registers -/

/-- Legality does not see `f`, and an answer may come before or after it. -/
structure PortCommutes (f : State → State) : Prop where
  unit : ∀ s, (f s).unit = s.unit
  kind : ∀ s u, (f s).kindOf u = s.kindOf u
  answer : ∀ s r, (f s).answer r = f (s.answer r)

theorem portCommutes_setReader (u : UnitId) (r : Reader) : PortCommutes (·.setReader u r) where
  unit _ := rfl
  kind s v := s.kindOf_setReader u r v
  answer _ _ := rfl

theorem portCommutes_setWriter (u : UnitId) (w : Writer) : PortCommutes (·.setWriter u w) where
  unit _ := rfl
  kind s v := s.kindOf_setWriter u w v
  answer _ _ := rfl

section
variable {f : State → State} (h : PortCommutes f)
include h

theorem peerLegal_commutes (s : State) (i : Instr) : (f s).peerLegal i = s.peerLegal i := by
  unfold State.peerLegal
  rw [h.unit]
  cases peerDemand i with
  | none => rfl
  | some demand => simp only [h.kind]

theorem illegal?_commutes (s : State) (i : Instr) : (f s).illegal? i = s.illegal? i := by
  unfold State.illegal?
  rw [h.unit, h.kind, peerLegal_commutes h]

theorem ifLegal_commutes (s : State) (i : Instr) {run run' : Host.Outcome State Fault Refusal}
    (hrun : run' = mapNext f run) : (f s).ifLegal i run' = mapNext f (s.ifLegal i run) := by
  unfold State.ifLegal
  rw [illegal?_commutes h]
  cases s.illegal? i with
  | none => exact hrun
  | some e => exact congrArg Host.Outcome.next (h.answer s _)

theorem conclude_mapState (x : Act U64) : conclude (x.mapState f) = mapNext f (conclude x) := by
  cases x with
  | done v s => exact congrArg Host.Outcome.next (h.answer s _)
  | fail e s => exact congrArg Host.Outcome.next (h.answer s _)
  | stuck r => rfl

theorem concludeVoid_mapState (x : Act PUnit) : concludeVoid (x.mapState f) = mapNext f (concludeVoid x) := by
  rw [concludeVoid, Act.bind_mapState x fun _ _ => rfl, conclude_mapState h, concludeVoid]

end

/-! ### The commands of one half -/

theorem readerCommand_cases {i : Instr} (h : readerCommand i = true) :
    i = .readbit ∨ i = .readbyte ∨ (∃ nb, i = .readbits nb) ∨ i = .rreset := by
  cases i <;> simp [readerCommand, opcode] at h ⊢

theorem writerCommand_cases {i : Instr} (h : writerCommand i = true) :
    (∃ bit, i = .writebit bit) ∨ (∃ byt, i = .writebyte byt) ∨ (∃ v nb, i = .writebits v nb) ∨ i = .flush := by
  cases i <;> simp [writerCommand, opcode] at h ⊢

/-- A reader command goes through every change its reader, its port and the command port do not see. -/
theorem exec_commutes_of_reader {f : State → State} {s : State} (hp : PortCommutes f) (hr : ReadCommutes s.unit f)
    {i : Instr} (hi : readerCommand i = true) : exec i (f s) = mapNext f (exec i s) := by
  obtain rfl | rfl | ⟨nb, rfl⟩ | rfl := readerCommand_cases hi <;> refine ifLegal_commutes hp s _ ?_ <;> rw [hp.unit]
  · rw [readBit_commutes hr, Act.bind_mapState _ fun _ _ => rfl, conclude_mapState hp]
  · rw [readByte_commutes hr, Act.bind_mapState _ fun _ _ => rfl, conclude_mapState hp]
  · rw [readBits_commutes hr, conclude_mapState hp]
  · rw [resetReader, hr.move, resetReader, ← concludeVoid_mapState hp]
    rfl

/-- A writer command goes through every change its writer, its port and the command port do not see. -/
theorem exec_commutes_of_writer {f : State → State} {s : State} (hp : PortCommutes f) (hw : WriteCommutes s.unit f)
    {i : Instr} (hi : writerCommand i = true) : exec i (f s) = mapNext f (exec i s) := by
  obtain ⟨bit, rfl⟩ | ⟨byt, rfl⟩ | ⟨v, nb, rfl⟩ | rfl := writerCommand_cases hi <;>
    refine ifLegal_commutes hp s _ ?_ <;> rw [hp.unit]
  · rw [writeBit_commutes hw, concludeVoid_mapState hp]
  · rw [writeByte_commutes hw, concludeVoid_mapState hp]
  · rw [writeBits_commutes hw, concludeVoid_mapState hp]
  · rw [flush_commutes hw, concludeVoid_mapState hp]

/-- What a reader's pulls, moves and reset keep, every reader command keeps. -/
theorem keeps_of_readerCommand {u : UnitId} {Q : State → Prop} (h : ReadStable u Q)
    (hreset : ∀ s, Q s → Q (s.setReader u Reader.fresh)) {i : Instr} (hi : readerCommand i = true) : Keeps u i Q := by
  obtain rfl | rfl | ⟨nb, rfl⟩ | rfl := readerCommand_cases hi
  · exact h
  · exact h
  · exact h
  · exact hreset

/-- What a writer's pushes and moves keep, every writer command keeps. -/
theorem keeps_of_writerCommand {u : UnitId} {Q : State → Prop} (h : WriteStable u Q) {i : Instr}
    (hi : writerCommand i = true) : Keeps u i Q := by
  obtain ⟨bit, rfl⟩ | ⟨byt, rfl⟩ | ⟨v, nb, rfl⟩ | rfl := writerCommand_cases hi <;> exact h

theorem readStable_writerOf (u v : UnitId) (x : Option Writer) : ReadStable u (fun s => s.writerOf v = x) where
  pull s a h := (s.writerOf_afterPull u a v).trans h
  move s _ r' h _ _ := (s.writerOf_setReader u r' v).trans h

theorem writeStable_readerOf (u v : UnitId) (x : Option Reader) : WriteStable u (fun s => s.readerOf v = x) where
  push s b a h := (s.readerOf_afterPush u b a v).trans h
  move s _ w' h _ _ := (s.readerOf_setWriter u w' v).trans h

/-- A reader command leaves every writer. -/
theorem writerOf_of_readerCommand {i : Instr} {s t : State} (hi : readerCommand i = true) (h : exec i s = .next t)
    (v : UnitId) : t.writerOf v = s.writerOf v := by
  have hreset : ∀ s' : State, s'.writerOf v = s.writerOf v →
      (s'.setReader s.unit Reader.fresh).writerOf v = s.writerOf v := fun s' h' => by simpa using h'
  obtain ⟨s', r, hs', rfl⟩ := exec_next (keeps_of_readerCommand (readStable_writerOf _ v _) hreset hi) rfl h
  simpa using hs'

/-- A writer command leaves every reader. -/
theorem readerOf_of_writerCommand {i : Instr} {s t : State} (hi : writerCommand i = true) (h : exec i s = .next t)
    (v : UnitId) : t.readerOf v = s.readerOf v := by
  obtain ⟨s', r, hs', rfl⟩ := exec_next (keeps_of_writerCommand (writeStable_readerOf _ v _) hi) rfl h
  simpa using hs'

/-- A READWRITER accepts what a READER accepts and what a WRITER accepts (R29, R84). -/
theorem accepts_readWriter (i : Instr) : accepts .readWriter i = (accepts .reader i || accepts .writer i) := by
  cases i <;> rfl

/-- Settles O52: a command on one half goes through a change of the other half's registers, and leaves them. -/
theorem readWriterHalvesAreIndependent : Obligations.ReadWriterHalvesAreIndependent := by
  refine ⟨accepts_readWriter, fun s src r snk w hx => ⟨fun i hi => ⟨fun w' => ?_, fun t ht => ?_⟩,
    fun i hi => ⟨fun r' => ?_, fun t ht => ?_⟩⟩⟩
  · exact exec_commutes_of_reader (portCommutes_setWriter _ w') (readCommutes_setWriter _ w') hi
  · rw [writerOf_of_readerCommand hi ht, State.writerOf, hx]
    rfl
  · exact exec_commutes_of_writer (portCommutes_setReader _ r') (writeCommutes_setReader _ r') hi
  · rw [readerOf_of_writerCommand hi ht, State.readerOf, hx]
    rfl

end Sys2Proof.Machine
end

section
/-!
PROOFS. Power-on: the units of a `UNITS` table after creation (R40 to R44, R251), and the power-on reset of a running block
(R44, R250).
-/

namespace Sys2Proof.Machine

theorem freshUnit_ok (sp : UnitSpec) : (freshUnit sp).ok = true := by
  cases sp <;> simp [freshUnit, BitUnit.ok]

theorem freshUnit_spec (sp : UnitSpec) : (freshUnit sp).spec = sp := by cases sp <;> rfl

/-! ### The state after power-on -/

theorem freshUnits_ok (table : List (UnitId × UnitSpec)) : (freshUnits table).all (fun e => e.2.ok) = true := by
  induction table with
  | nil => rfl
  | cons e table ih => exact Table.all_put BitUnit.ok e.1 (freshUnit_ok e.2) ih

/-- The table after creation holds exactly the rows of the `UNITS` table, of two rows with one id the first. -/
theorem find_freshUnits (u : UnitId) (table : List (UnitId × UnitSpec)) :
    Table.find u (freshUnits table) = (table.lookup u).map freshUnit := by
  induction table with
  | nil => rfl
  | cons e table ih =>
    obtain ⟨v, sp⟩ := e
    by_cases h : u = v
    · subst h
      simp [freshUnits, Table.find_put_same]
    · simp [freshUnits, Table.find_put_other h, ih, List.lookup_cons, beq_eq_false_iff_ne.mpr h]

/-- Settles O38: every row of the table is put in fresh, and the environment's tables are empty. -/
theorem powerOnStateMeetsTheInvariants : Obligations.PowerOnStateMeetsTheInvariants :=
  fun table => ⟨freshUnits_ok table, State.wf_powerOn table, rfl, fun u => find_freshUnits u table, rfl, rfl, rfl⟩

/-! ### The power-on reset -/

theorem BitUnit.ok_reset (x : BitUnit) : x.reset.ok = true := freshUnit_ok x.spec

theorem BitUnit.spec_reset (x : BitUnit) : x.reset.spec = x.spec := freshUnit_spec x.spec

theorem Table.find_map {α β : Type} (g : α → β) (k : BitVec 16) (t : Table α) :
    Table.find k (t.map fun e => (e.1, g e.2)) = (Table.find k t).map g := by
  induction t with
  | nil => rfl
  | cons e t ih =>
    obtain ⟨k', v⟩ := e
    by_cases h : k = k'
    · simp [Table.find, h]
    · simpa [Table.find, h] using ih

theorem State.unitAt_powerOnReset (s : State) (u : UnitId) :
    s.powerOnReset.unitAt u = (s.unitAt u).map BitUnit.reset := Table.find_map BitUnit.reset u s.units

theorem State.unitTable_powerOnReset (s : State) : s.powerOnReset.unitTable = s.unitTable := by
  simp [State.unitTable, State.powerOnReset, BitUnit.spec_reset]

theorem State.registersOk_powerOnReset (s : State) : s.powerOnReset.registersOk = true := by
  simp [State.registersOk, State.powerOnReset, BitUnit.ok_reset]

/-- Settles O56: the reset of each kind of unit is a new unit at its bindings. -/
theorem powerOnResetIsFresh : Obligations.PowerOnResetIsFresh := by
  refine fun s => ⟨fun u => ?_, s.unitTable_powerOnReset, rfl, rfl, rfl, rfl, s.registersOk_powerOnReset⟩
  rw [State.unitAt_powerOnReset]
  rcases s.unitAt u with _ | (_ | _ | _ | _) <;> rfl

end Sys2Proof.Machine
end

section
/-!
PROOFS. The streams of bits (R62 to R64): what READBIT, READBYTE and READBITS deliver of the stream ahead (R110, R113, R117)
and what the writer commands append to the stream written (R140, R145, R149, R152).
-/

namespace Sys2Proof.Machine

/-! ### The answer of a command whose steps succeed -/

/-- A command whose steps are done, the command port left alone on the way, appends its one result `Ok(v)`. -/
theorem exec_of_done {s t : State} {i : Instr} {x : Act U64} {v : U64} (he : exec i s = conclude x)
    (hx : x = .done v t) (hall : x.All s.samePort) :
    exec i s = .next (t.answer (.ok v)) ∧ (t.answer (.ok v)).results = s.results ++ [.ok v] := by
  subst hx
  obtain ⟨-, hres⟩ : s.samePort t := hall
  exact ⟨he, by rw [State.results_answer, hres]⟩

/-- A command without data whose steps are done answers `Ok(0)` (R11). -/
theorem exec_of_done_void {s t : State} {i : Instr} {x : Act PUnit} (he : exec i s = concludeVoid x)
    (hx : x = .done ⟨⟩ t) (hall : x.All s.samePort) :
    exec i s = .next (t.answer (.ok 0)) ∧ (t.answer (.ok 0)).results = s.results ++ [.ok 0] :=
  exec_of_done he (by rw [hx]; rfl) (Act.all_bind hall fun _ _ h => h)

/-! ### Reading -/

/-- Settles O27: each bit comes from the leftover bits, or from the next byte of the supply where none are left. -/
theorem readBitAndReadByteDeliverTheStream : Obligations.ReadBitAndReadByteDeliverTheStream := by
  intro s hok
  have ⟨r, hr, _⟩ := hok
  refine ⟨fun h => ?_, fun h => ?_⟩
  · obtain ⟨b, t, hb, hbits, ht⟩ := readBit_stream hok (List.ne_nil_of_length_pos h)
    obtain ⟨hnext, hres⟩ := exec_of_done (exec_readbit hr) (by rw [hb]; rfl)
      (Act.all_bind (readBit_all (readStable_samePort s.unit s) s.samePort_refl) fun _ _ h => h)
    exact ⟨b, _, hnext, hres, hbits, ht⟩
  · obtain ⟨b, t, hb, hbits, ht⟩ := readByte_stream hok h
    obtain ⟨hnext, hres⟩ := exec_of_done (exec_readbyte hr) (by rw [hb]; rfl)
      (Act.all_bind (readByte_all (readStable_samePort s.unit s) s.samePort_refl) fun _ _ h => h)
    exact ⟨b, _, hnext, hres, hbits, ht⟩

/-- Settles O28: the bits delivered are packed from the top, so the value's low bits are those bits again. -/
theorem readBitsDeliversTheStream : Obligations.ReadBitsDeliversTheStream := by
  intro s nb hok hnb hlen
  have ⟨r, hr, _⟩ := hok
  obtain ⟨l, t, hl, hn, hbits, ht⟩ := readBits_stream nb.toNat hok hlen
  obtain ⟨hnext, hres⟩ := exec_of_done (exec_readbits hr hnb) hl
    (readBits_all (readStable_samePort s.unit s) nb.toNat s.samePort_refl)
  refine ⟨packBits 0 l, _, hnext, hres, hn ▸ packBits_lt l, ?_, ht⟩
  rw [hbits, ← hn, valueBits_packBits l (hn ▸ hnb)]
  rfl

/-! ### Writing -/

/-- A writer with eight free slots has nothing queued: all that was written is delivered. -/
theorem State.bitsWritten_of_aligned {s : State} {u : UnitId} {w : Writer} (hw : s.writerOf u = some w)
    (h8 : w.count = 8#4) : s.bitsWritten u = bytesBits (s.delivered u) := by
  rw [State.bitsWritten_eq hw, bits_aligned_writer h8, List.append_nil]

/-- Settles O30: each step appends its bits to the bytes delivered and the bits queued, and FLUSH is WRITEBIT 0 until no
bit is queued. -/
theorem writesAppendToTheStream : Obligations.WritesAppendToTheStream := by
  intro s hok
  obtain ⟨w, hw⟩ := State.writer_of_ok hok
  have hport := writeStable_samePort s.unit s
  refine ⟨fun bit => ?_, fun byt => ?_, fun v nb hnb => ?_, fun w' hw' => ?_⟩
  · obtain ⟨t, hx, hbits, ht⟩ := writeBit_stream hok bit
    obtain ⟨hnext, hres⟩ := exec_of_done_void (exec_writebit hw bit) hx (writeBit_all hport bit s.samePort_refl)
    exact ⟨_, hnext, hres, hbits, ht⟩
  · obtain ⟨t, hx, hbits, ht⟩ := writeByte_stream hok byt
    obtain ⟨hnext, hres⟩ := exec_of_done_void (exec_writebyte hw byt) hx (writeByte_all hport byt s.samePort_refl)
    exact ⟨_, hnext, hres, hbits, ht⟩
  · obtain ⟨t, hx, hbits, ht⟩ := writeBits_stream v nb.toNat hok
    obtain ⟨hnext, hres⟩ := exec_of_done_void (exec_writebits hw v hnb) hx
      (writeBits_all hport v nb.toNat s.samePort_refl)
    exact ⟨_, hnext, hres, hbits, ht⟩
  · obtain ⟨t, hx, hbits, ht, hfresh⟩ := flushLoop_stream 8 hok hw' (by omega)
    obtain ⟨hnext, hres⟩ := exec_of_done_void (exec_flush hw) hx (flush_all hport s.samePort_refl)
    exact ⟨_, hnext, hres, hbits, State.bitsWritten_of_aligned hfresh rfl, hfresh, ht⟩

end Sys2Proof.Machine
end

section
/-!
PROOFS. The two ports (R52 to R61): which answer an external stream gives, what one pull or push changes, and the codes on
the lines of the ports and of the results (R53, R56, R88, R220, R224).
-/

namespace Sys2Proof.Machine

/-! ### The answer of an external source -/

theorem Source.next_planned {x : Source} {a : SrcResp} {plan : List SrcResp} (h : x.planned = a :: plan) (k : StreamName) :
    x.next k = some a := by simp [Source.next, h]

theorem Source.next_always {x : Source} {a : SrcResp} (h : x.planned = []) (ha : x.after = .always a) (k : StreamName) :
    x.next k = some a := by simp [Source.next, h, ha]

theorem Source.next_free {x : Source} (h : x.planned = []) (ha : x.after = .free) (k : StreamName) :
    x.next k = some (Config.sourceAnswer k x.pulls) := by simp [Source.next, h, ha]

theorem Source.next_eq_none_iff {x : Source} {k : StreamName} : x.next k = none ↔ x.planned = [] ∧ x.after = .never := by
  obtain ⟨_ | ⟨a, plan⟩, _ | _ | _, pulls⟩ := x <;> simp [Source.next]

/-! ### A pull by the binding of the unit -/

/-- A unit with a source name pulls from that external source. -/
theorem State.pull_of_sourceName {s : State} {u : UnitId} {k : StreamName} (h : s.sourceNameOf u = some k) :
    s.sourceAnswer u = (s.source k).next k ∧ ∀ a, s.afterPull u a = s.setSource k ((s.source k).answered a) := by
  rcases hx : s.unitAt u with _ | (_ | _ | _ | _) <;> simp [State.sourceNameOf, hx] at h <;>
    simp [State.sourceAnswer, State.afterPull, hx, h]

theorem State.unitAt_of_storeOf {s : State} {u : UnitId} {l : List Byte} (h : s.storeOf u = some l) :
    ∃ r w, s.unitAt u = some (.buffer l r w) := by
  rcases hx : s.unitAt u with _ | (_ | _ | _ | _) <;> simp [State.storeOf, BitUnit.store?, hx] at h
  simp [h]

theorem State.sourceAnswer_empty_store {s : State} {u : UnitId} (h : s.storeOf u = some []) :
    s.sourceAnswer u = some .eof := by
  obtain ⟨r, w, hx⟩ := State.unitAt_of_storeOf h
  simp [State.sourceAnswer, hx]

theorem State.sourceAnswer_store_cons {s : State} {u : UnitId} {b : Byte} {l : List Byte}
    (h : s.storeOf u = some (b :: l)) : s.sourceAnswer u = some (.byte b) := by
  obtain ⟨r, w, hx⟩ := State.unitAt_of_storeOf h
  simp [State.sourceAnswer, hx]

theorem State.afterPull_store {s : State} {u : UnitId} {l : List Byte} (h : s.storeOf u = some l) (a : SrcResp) :
    s.afterPull u a = s.setStore u l.tail := by
  obtain ⟨r, w, hx⟩ := State.unitAt_of_storeOf h
  simp [State.afterPull, hx]

/-- Settles O45: a unit pulls from the external source it is bound to, by the cases of the plan, or from its own store. -/
theorem pullMovesTheSourceOn : Obligations.PullMovesTheSourceOn := by
  refine ⟨fun s u => ⟨fun k hk => ?_, fun l hl => ?_⟩, fun s u a ha =>
    ⟨fun k hk => ?_, fun l hl => ?_, fun v => ⟨s.readerOf_afterPull u a v, s.writerOf_afterPull u a v⟩,
      fun v hv => s.unitAt_afterPull_other hv a, s.sinks_afterPull u a⟩⟩
  · rw [(State.pull_of_sourceName hk).1, Source.next_eq_none_iff]
  · cases l with
    | nil => simp [State.sourceAnswer_empty_store hl]
    | cons b l => simp [State.sourceAnswer_store_cons hl]
  · obtain ⟨hans, hpull⟩ := State.pull_of_sourceName hk
    have heq {b : SrcResp} (hb : (s.source k).next k = some b) : a = b := by simpa [ha] using hans.trans hb
    refine ⟨fun x plan h => heq (Source.next_planned h k), fun h x hx => heq (Source.next_always h hx k),
      fun h hx => heq (Source.next_free h hx k), ?_, fun j hj => ?_, ?_⟩
    · simp [hpull, Source.answered]
    · rw [hpull, State.source_setSource_other s hj]
    · rw [hpull, State.units_setSource]
  · have hpull := State.afterPull_store hl a
    refine ⟨?_, ?_, by simp [hpull, hl], by rw [hpull, State.sources_setStore]⟩
    · rintro rfl
      simpa [ha] using State.sourceAnswer_empty_store hl
    · rintro b rest rfl
      simpa [ha] using State.sourceAnswer_store_cons hl

/-! ### The answer of an external sink -/

theorem Sink.next_planned {x : Sink} {a : SinkResp} {plan : List SinkResp} (h : x.planned = a :: plan) (k : StreamName)
    (b : Byte) : x.next k b = some a := by simp [Sink.next, h]

theorem Sink.next_always {x : Sink} {a : SinkResp} (h : x.planned = []) (ha : x.after = .always a) (k : StreamName)
    (b : Byte) : x.next k b = some a := by simp [Sink.next, h, ha]

theorem Sink.next_free {x : Sink} (h : x.planned = []) (ha : x.after = .free) (k : StreamName) (b : Byte) :
    x.next k b = some (Config.sinkAnswer k x.pushes b) := by simp [Sink.next, h, ha]

theorem Sink.next_eq_none_iff {x : Sink} {k : StreamName} {b : Byte} :
    x.next k b = none ↔ x.planned = [] ∧ x.after = .never := by
  obtain ⟨_ | ⟨a, plan⟩, _ | _ | _, pushes⟩ := x <;> simp [Sink.next]

/-! ### A push by the binding of the unit -/

/-- A unit with a sink name pushes to that external sink. -/
theorem State.push_of_sinkName {s : State} {u : UnitId} {k : StreamName} (h : s.sinkNameOf u = some k) (b : Byte) :
    s.sinkAnswer u b = (s.sink k).next k b ∧ ∀ a, s.afterPush u b a = s.setSink k ((s.sink k).answered b a) := by
  rcases hx : s.unitAt u with _ | (_ | _ | _ | _) <;> simp [State.sinkNameOf, hx] at h <;>
    simp [State.sinkAnswer, State.afterPush, hx, h]

/-- A store acknowledges every byte and has it as its newest (R61). -/
theorem State.push_of_store {s : State} {u : UnitId} {l : List Byte} (h : s.storeOf u = some l) (b : Byte) :
    s.sinkAnswer u b = some .ack ∧ ∀ a, s.afterPush u b a = s.setStore u (l ++ [b]) := by
  obtain ⟨r, w, hx⟩ := State.unitAt_of_storeOf h
  simp [State.sinkAnswer, State.afterPush, hx]

/-- Settles O46: a unit pushes to the external sink it is bound to, by the cases of the plan, or to its own store. -/
theorem pushMovesTheSinkOn : Obligations.PushMovesTheSinkOn := by
  refine ⟨fun s u b => ⟨fun k hk => ?_, fun l hl => ?_⟩, fun s u b a ha =>
    ⟨fun k hk => ?_, fun l hl => ?_, fun v => ⟨s.readerOf_afterPush u b a v, s.writerOf_afterPush u b a v⟩,
      fun v hv => s.unitAt_afterPush_other hv b a, s.sources_afterPush u b a⟩⟩
  · rw [(State.push_of_sinkName hk b).1, Sink.next_eq_none_iff]
  · simp [(State.push_of_store hl b).1]
  · obtain ⟨hans, hpush⟩ := State.push_of_sinkName hk b
    have heq {c : SinkResp} (hc : (s.sink k).next k b = some c) : a = c := by simpa [ha] using hans.trans hc
    refine ⟨fun x plan h => heq (Sink.next_planned h k b), fun h x hx => heq (Sink.next_always h hx k b),
      fun h hx => heq (Sink.next_free h hx k b), ?_, fun j hj => ?_, ?_⟩
    · simp [hpush, Sink.answered]
    · rw [hpush, State.sink_setSink_other s hj]
    · rw [hpush, State.units_setSink]
  · obtain ⟨hans, hpush⟩ := State.push_of_store hl b
    exact ⟨by simpa [ha] using hans, by simp [hpush, hl], by rw [hpush, State.sinks_setStore]⟩

/-! ### Codes -/

theorem Result.ecode_of_ioErr {e : Failure} (h : e.cause = .ioErr) : (Result.fail e).ecode = e.ecode := if_pos h

theorem Result.ecode_of_not_ioErr {e : Failure} (h : e.cause ≠ .ioErr) : (Result.fail e).ecode = 0#16 := if_neg h

/-- Settles O47: the tables of R53, R56, R88, R220 and R224 row by row; only the error code of a failure asks for its cause. -/
theorem codesOfPortsAndResults : Obligations.CodesOfPortsAndResults := by
  refine ⟨fun _ => rfl, fun _ => rfl, rfl, fun _ => rfl, fun _ _ => rfl, fun _ _ => rfl, fun _ _ => rfl, fun _ _ => rfl,
    fun _ => rfl, fun _ => rfl, fun _ => rfl, fun _ => rfl, rfl, rfl, fun _ => rfl, ?okLines, ?failLines,
    rfl, rfl, rfl, rfl, rfl, rfl, rfl, rfl, rfl⟩
  case okLines => exact fun _ => ⟨rfl, rfl, rfl, rfl⟩
  case failLines => exact fun _ => ⟨rfl, rfl, Result.ecode_of_ioErr, Result.ecode_of_not_ioErr, rfl⟩

end Sys2Proof.Machine
end

section
/-!
PROOFS. The command descriptor (30_encoding.md): its four fields are its bits and fix it (R81), and the decoder reads from
them the command of the opcode map and no other (R82, R83, R86).
-/

namespace Sys2Proof

/-! ### The fields of a descriptor -/

theorem getLsbD_opField (d : Desc) {j : Nat} (hj : j < 8) : (opField d).getLsbD j = d.getLsbD j := by
  simp [opField, hj]

theorem getLsbD_nbField (d : Desc) {j : Nat} (hj : j < 8) : (nbField d).getLsbD j = d.getLsbD (8 + j) := by
  simp [nbField, hj]

theorem getLsbD_peerField (d : Desc) {j : Nat} (hj : j < 16) : (peerField d).getLsbD j = d.getLsbD (16 + j) := by
  simp [peerField, hj]

theorem getLsbD_dataField (d : Desc) {j : Nat} (hj : j < 64) : (dataField d).getLsbD j = d.getLsbD (32 + j) := by
  simp [dataField, hj]

/-- A descriptor is fixed by its four fields: each of its 96 bits stands in one of them (R81). -/
theorem desc_ext_of_fields {d d' : Desc} (hdata : dataField d = dataField d') (hpeer : peerField d = peerField d')
    (hnb : nbField d = nbField d') (hop : opField d = opField d') : d = d' := by
  refine BitVec.eq_of_getLsbD_eq fun i hi => ?_
  obtain h | ⟨h, h'⟩ | ⟨h, h'⟩ | h : i < 8 ∨ (8 ≤ i ∧ i < 16) ∨ (16 ≤ i ∧ i < 32) ∨ 32 ≤ i := by omega
  · rw [← getLsbD_opField d h, hop, getLsbD_opField d' h]
  · obtain ⟨j, rfl⟩ := Nat.exists_eq_add_of_le h
    rw [← getLsbD_nbField d (by omega), hnb, getLsbD_nbField d' (by omega)]
  · obtain ⟨j, rfl⟩ := Nat.exists_eq_add_of_le h
    rw [← getLsbD_peerField d (by omega), hpeer, getLsbD_peerField d' (by omega)]
  · obtain ⟨j, rfl⟩ := Nat.exists_eq_add_of_le h
    rw [← getLsbD_dataField d (by omega), hdata, getLsbD_dataField d' (by omega)]

theorem descriptor_fields (d : Desc) : descriptor (dataField d) (peerField d) (nbField d) (opField d) = d :=
  desc_ext_of_fields (dataField_descriptor ..) (peerField_descriptor ..) (nbField_descriptor ..) (opField_descriptor ..)

/-- Settles O3: the fields are slices of the descriptor, and a descriptor built from them has the same fields. -/
theorem descriptorFieldsAreTheirBits : Obligations.DescriptorFieldsAreTheirBits :=
  fun d => ⟨fun _ => getLsbD_opField d, fun _ => getLsbD_nbField d, fun _ => getLsbD_peerField d,
    fun _ => getLsbD_dataField d, descriptor_fields d⟩

/-! ### The opcode map -/

/-- What the decoder answers for the row `x` of the opcode map found for `d` (R85 (2) and (4)). -/
def rowOutcome (d : Desc) : Option Instr → Except DecodeError Instr
  | none => .error (.reservedOpcode (opField d))
  | some i => if WellFormed i then .ok i else .error (.reservedCount (nbField d))

theorem decode_eq_rowOutcome (d : Desc) : decode d = rowOutcome d (commandOf (opField d) d) := rfl

theorem rowOutcome_eq_ok_iff {d : Desc} {x : Option Instr} {i : Instr} :
    rowOutcome d x = .ok i ↔ x = some i ∧ WellFormed i = true := by
  cases x with
  | none => simp [rowOutcome]
  | some j =>
    rw [rowOutcome, Option.some.injEq]
    constructor
    · intro h
      split at h
      · cases h
        exact ⟨rfl, ‹_›⟩
      · cases h
    · rintro ⟨rfl, hwf⟩
      exact if_pos hwf

theorem decode_eq_ok_iff {d : Desc} {i : Instr} :
    decode d = .ok i ↔ commandOf (opField d) d = some i ∧ WellFormed i = true := rowOutcome_eq_ok_iff

theorem ite_some_cases {α : Type} {c : Prop} [Decidable c] {a b : α} {x : Option α}
    (h : (if c then some a else x) = some b) : (c ∧ a = b) ∨ x = some b := by
  split at h
  · exact .inl ⟨‹_›, Option.some.inj h⟩
  · exact .inr h

/-- Each of the twelve rows of the opcode map holds a command of its opcode (R83). -/
theorem opcode_of_commandOf {op : Byte} {d : Desc} {i : Instr} (h : commandOf op d = some i) : op = opcode i := by
  unfold commandOf at h
  iterate 12
    obtain ⟨rfl, rfl⟩ | h := ite_some_cases h
    · rfl
  cases h

/-- Settles O4: the decoder answers a command only from its own row of the opcode map, and only after the count check. -/
theorem decodedCommandsAreWellFormed : Obligations.DecodedCommandsAreWellFormed := by
  intro d i h
  obtain ⟨hrow, hwf⟩ := decode_eq_ok_iff.mp h
  exact ⟨hwf, opcode_of_commandOf hrow⟩

/-! ### Decoding an encoded command -/

theorem opField_encode (i : Instr) : opField (encode i) = opcode i := by
  cases i <;> exact opField_descriptor ..

/-- The bit operand of WRITEBIT is the low bit of the value it is encoded as (R82). -/
theorem getElem_bitValue_zero (b : Bit) : (bitValue b)[0] = b := by cases b <;> rfl

/-- The byte operand of WRITEBYTE is the low byte of the value it is encoded as (R82). -/
theorem setWidth_byteValue (b : Byte) : (byteValue b).setWidth 8 = b :=
  BitVec.setWidth_setWidth_of_le b (by decide)

/-- Each command's row of the opcode map takes its operands from the fields the encoder puts them in (R82, R83). -/
theorem commandOf_encode (i : Instr) : commandOf (opcode i) (encode i) = some i := by
  cases i <;>
    simp [commandOf, opcode, encode, bitField, bytField, getElem_bitValue_zero, setWidth_byteValue]

/-- Settles O1: the encoded command is found in its own row with its own operands, and its count is in range. -/
theorem decodeEncodeRoundTrip : Obligations.DecodeEncodeRoundTrip :=
  fun i hwf => decode_eq_ok_iff.mpr ⟨by rw [opField_encode, commandOf_encode], hwf⟩

/-! ### Decoding any four fields -/

theorem bitField_descriptor (data : U64) (peer : UnitId) (nb op : Byte) :
    bitField (descriptor data peer nb op) = data.getLsbD 0 := by
  rw [bitField, dataField_descriptor]

theorem bytField_descriptor (data : U64) (peer : UnitId) (nb op : Byte) :
    bytField (descriptor data peer nb op) = data.extractLsb' 0 8 := by
  rw [bytField, dataField_descriptor, BitVec.setWidth_eq_extractLsb' (by decide)]

/-- A command with the bit count `nb` is rejected where the count is above 64 (R86). -/
theorem rowOutcome_of_count (d : Desc) {i : Instr} {nb : Byte} (h : WellFormed i = countInRange nb) :
    rowOutcome d (some i) = if nb.toNat ≤ 64 then .ok i else .error (.reservedCount (nbField d)) := by
  rw [rowOutcome, h]
  exact if_congr decide_eq_true_iff rfl rfl

/-- Settles O2: the decoder's check goes into each row of the opcode map; READBITS and WRITEBITS are the two rows with a
count to check. -/
theorem decoderFollowsTheOpcodeMap : Obligations.DecoderFollowsTheOpcodeMap := by
  intro data peer nb op
  have hreadbits := rowOutcome_of_count (descriptor data peer nb op) (i := .readbits nb) rfl
  have hwritebits := rowOutcome_of_count (descriptor data peer nb op) (i := .writebits data nb) rfl
  rw [decode_eq_rowOutcome, opField_descriptor, commandOf]
  simp only [apply_ite (rowOutcome _), nbField_descriptor, peerField_descriptor, dataField_descriptor,
    bitField_descriptor, bytField_descriptor, hreadbits, hwritebits]
  simp only [rowOutcome, WellFormed, if_true, opField_descriptor]

/-- Settles O5: each word is evaluated by the decoder. -/
theorem specWordsDecode : Obligations.SpecWordsDecode := by
  unfold Obligations.SpecWordsDecode
  decide

end Sys2Proof
end

section
/-!
PROOFS. How a command begins and ends, whatever it does in between: the one check of legality and the one result (R80, R85),
never a refusal (log 11).
-/

namespace Sys2Proof.Machine

/-! ### Illegal commands and descriptors -/

/-- Settles O10: the words of R84 to R87 and the check every command makes first are one legality. -/
theorem illegalCommandsHaveNoEffect : Obligations.IllegalCommandsHaveNoEffect := by
  intro s i hi
  obtain ⟨run, hrun⟩ := exec_ifLegal i s
  rw [hrun, State.ifLegal_illegal (mt (s.Legal_iff i).mpr hi)]
  rfl

theorem step_of_no_commands {s : State} (h : s.commands = []) : step s = .next s := by
  simp [step, State.fetch, h]

theorem step_of_decode_error {s : State} {c : Command} {rest : List Command} {e : DecodeError}
    (hc : s.commands = c :: rest) (hd : decode c.desc = .error e) :
    step s = .next (({ s with unit := c.unit, commands := rest } : State).raise Failure.illegal) := by
  simp [step, State.fetch_of_commands hc, hd]

/-- Settles O7: issuing takes the command off the list and sets the `unit` lines; nothing else runs before the answer. -/
theorem undecodableDescriptorIsIllegal : Obligations.UndecodableDescriptorIsIllegal :=
  fun _ _ _ _ hc hd => step_of_decode_error hc hd

/-! ### No refusal -/

/-- Every command is its steps concluded, behind the check of legality. -/
theorem exec_eq_ifLegal_conclude (i : Instr) (s : State) : ∃ x, exec i s = s.ifLegal i (conclude x) := by
  cases i <;> exact ⟨_, rfl⟩

theorem conclude_ne_refused (x : Act U64) (r : Refusal) : conclude x ≠ .refused r := by
  cases x <;> simp [conclude]

theorem exec_ne_refused (i : Instr) (s : State) (r : Refusal) : exec i s ≠ .refused r := by
  obtain ⟨x, hx⟩ := exec_eq_ifLegal_conclude i s
  obtain ⟨-, hrun⟩ | ⟨-, hrun⟩ := s.ifLegal_eq i (conclude x) <;> rw [hx, hrun]
  · exact conclude_ne_refused x r
  · nofun

theorem step_ne_refused (s : State) (r : Refusal) : step s ≠ .refused r := by
  cases hc : s.commands with
  | nil => rw [step_of_no_commands hc]; nofun
  | cons c rest =>
    cases hd : decode c.desc with
    | ok i => rw [step_of_decode_ok hc hd]; exact exec_ne_refused i _ r
    | error e => rw [step_of_decode_error hc hd]; nofun

/-- Settles O11: a command ends by the legality check or by `conclude`, and neither refuses. -/
theorem commandsAreNeverRefused : Obligations.CommandsAreNeverRefused :=
  fun s r => ⟨step_ne_refused s r, fun i => exec_ne_refused i s r⟩

/-! ### One result -/

/-- The command port and the host's commands are as in `s`. -/
def State.sameControl (s t : State) : Prop := s.samePort t ∧ t.commands = s.commands

theorem readStable_sameControl (u : UnitId) (s : State) : ReadStable u s.sameControl where
  pull t a h := ⟨(readStable_samePort u s).pull t a h.1, (t.commands_afterPull u a).trans h.2⟩
  move t r r' h hr hm := ⟨(readStable_samePort u s).move t r r' h.1 hr hm, h.2⟩

theorem writeStable_sameControl (u : UnitId) (s : State) : WriteStable u s.sameControl where
  push t b a h := ⟨(writeStable_samePort u s).push t b a h.1, (t.commands_afterPush u b a).trans h.2⟩
  move t w w' h hw hm := ⟨(writeStable_samePort u s).move t w w' h.1 hw hm, h.2⟩

theorem clearStable_sameControl (u : UnitId) (s : State) : ClearStable u s.sameControl where
  store _ _ h := h
  reader _ h := h
  writer _ h := h

/-- Settles O12: no port or register move touches the control, so the one answer is all that is added to it. -/
theorem everyCommandAnswersOnce : Obligations.EveryCommandAnswersOnce := by
  intro i s t h
  have hkeeps := keeps_of_stable (readStable_sameControl · s) (writeStable_sameControl · s)
    (clearStable_sameControl · s) s.unit i
  obtain ⟨s', r, ⟨⟨hunit, hresults⟩, hcommands⟩, rfl⟩ := exec_next hkeeps ⟨s.samePort_refl, rfl⟩ h
  exact ⟨⟨r, by rw [State.results_answer, hresults]⟩, hcommands, hunit⟩

end Sys2Proof.Machine
end

section
/-!
PROOFS. FLUSH as the WRITEBITs of its padding (R90, R152): both write a zero for each free slot, and both end with the first
push the sink does not acknowledge.
-/

namespace Sys2Proof.Machine

/-- Two continuations that agree where `x` succeeds make the same command. -/
theorem Act.bind_congr_of_done {α β : Type} {x : Act α} {f g : α → State → Act β}
    (h : ∀ a s, x = .done a s → f a s = g a s) : x.bind f = x.bind g := by
  cases x with
  | done a s => exact h a s rfl
  | fail e s => rfl
  | stuck r => rfl

/-- A WRITEBIT that succeeds takes one free slot, counted modulo 8: the full byte is followed by an empty one. -/
theorem count_of_writeBit_done {u : UnitId} {bit : Bit} {s t : State} {w : Writer} {x : PUnit}
    (hw : s.writerOf u = some w) (hl : w.countLegal = true) (h : writeBit u bit s = .done x t) :
    ∃ w', t.writerOf u = some w' ∧ w'.countLegal = true ∧ (w'.count.toNat + 1) % 8 = w.count.toNat % 8 := by
  by_cases h1 : w.count = 1#4
  · cases ha : s.sinkAnswer u (slotIn w bit) with
    | none => simp [writeBit_stuck hw h1 bit ha] at h
    | some a =>
      rw [writeBit_complete hw h1 bit ha] at h
      cases a <;> cases h
      exact ⟨Writer.fresh, by simp [hw], rfl, by simp [Writer.fresh, h1]⟩
  · rw [writeBit_queued hw hl h1 bit] at h
    cases h
    obtain ⟨hlo, hhi⟩ := (Writer.countLegal_iff w).mp hl
    have hne : w.count.toNat ≠ 1 := by simpa using count_ne.mp h1
    have hpred : (w.count - 1#4).toNat = w.count.toNat - 1 := count_pred (by intro h0; simp [h0] at hlo)
    refine ⟨⟨slotIn w bit, w.count - 1#4⟩, by simp [hw], (Writer.countLegal_iff _).mpr ?_, ?_⟩ <;>
      simp only [hpred] <;> omega

/-- The loop of FLUSH, given rounds enough, is a WRITEBIT of zero for each free slot of the byte begun. -/
theorem flushLoop_eq_pseudoWriteList {u : UnitId} {k n : Nat} {s : State} {w : Writer} (hw : s.writerOf u = some w)
    (hl : w.countLegal = true) (hk : w.count.toNat % 8 = k) (hn : k ≤ n) :
    ((flushLoop u n s).bind fun _ t => .done 0 t) = pseudoWriteList u (List.replicate k false) s := by
  obtain ⟨hlo, hhi⟩ := (Writer.countLegal_iff w).mp hl
  induction k generalizing n s w with
  | zero =>
    have h8 : w.count = 8#4 := BitVec.eq_of_toNat_eq (by simp; omega)
    rw [flushLoop_aligned hw h8]
    rfl
  | succ k ih =>
    obtain ⟨n, rfl⟩ := Nat.exists_eq_add_of_le' (Nat.one_le_of_lt hn)
    have h8 : w.count ≠ 8#4 := fun h => by simp [h] at hk
    rw [flushLoop_succ u n hw, if_neg h8, Act.bind_assoc, List.replicate_succ, pseudoWriteList, issue_writebit hw,
      Act.bind_assoc]
    refine Act.bind_congr_of_done fun _ t ht => ?_
    obtain ⟨w', hw', hl', hcount⟩ := count_of_writeBit_done hw hl ht
    obtain ⟨hlo', hhi'⟩ := (Writer.countLegal_iff w').mp hl'
    exact ih hw' hl' (by omega) (by omega) hlo' hhi'

/-- Settles O54: a failed WRITEBIT ends the loop of FLUSH and the list of WRITEBITs in the same state. -/
theorem flushIsWriteBitsOfZero : Obligations.FlushIsWriteBitsOfZero := by
  intro s w hw hlo hhi
  rw [exec_flush hw, concludeVoid]
  exact congrArg conclude (flushLoop_eq_pseudoWriteList hw ((Writer.countLegal_iff w).mpr ⟨hlo, hhi⟩) rfl (by omega))

end Sys2Proof.Machine
end

section
/-!
PROOFS. The single steps of the BitReader: READBIT, READBYTE and RRESET at every reader and for every answer of the source
(R110 to R116, R121); and what a failed single step, of a reader or of a writer, leaves as it was (R127, R143, R147).
-/

namespace Sys2Proof.Machine

/-! ### READBIT -/

/-- Settles O13: the cases of R110 are the equations of the step, and `exec` adds the legality check, which a reader
passes, and the answer. -/
theorem readBitResult : Obligations.ReadBitResult := by
  intro s r hr
  refine ⟨fun h1 h8 => ?_, fun h0 a ha => ?_⟩
  · have hne : r.count ≠ 0#4 := fun h => by simp [h] at h1
    rw [exec_readbit hr, readBit_buffered hr ((Reader.countLegal_iff r).mpr h8) hne, BitVec.msb_eq_getLsbD_last]
    rfl
  · rw [exec_readbit hr, readBit_empty hr h0 ha]
    cases a with
    | byte b => simp only [Act.bind, conclude, BitVec.msb_eq_getLsbD_last]
    | byteEof b => rfl
    | eof => rfl
    | err e => rfl

/-! ### READBYTE -/

/-- The byte of an unaligned READBYTE, bit by bit: `count` leftover bits on top, the high bits of the new byte below
(R113). -/
theorem spliceRead_getLsbD (r : Reader) (b : Byte) {j : Nat} (hj : j < 8) :
    (spliceRead r b).getLsbD j =
      if 8 - r.count.toNat ≤ j then r.pending.getLsbD j else b.getLsbD (j + r.count.toNat) := by
  simp only [spliceRead, BitVec.getLsbD_or, BitVec.getLsbD_and, BitVec.getLsbD_shiftLeft, BitVec.getLsbD_ushiftRight,
    allOnes_getLsbD]
  split
  · have hb : b.getLsbD (r.count.toNat + j) = false := BitVec.getLsbD_of_ge _ _ (by omega)
    simp [hb, hj, show ¬ j < 8 - r.count.toNat by omega, show j - (8 - r.count.toNat) < 8 by omega]
  · simp [show j < 8 - r.count.toNat by omega, Nat.add_comm]

/-- Settles O14: the two alignments of R113 are the two equations of the step; the byte of the unaligned one is
`spliceRead`. -/
theorem readByteResult : Obligations.ReadByteResult := by
  intro s r a hr ha
  rw [exec_readbyte hr]
  refine ⟨fun h0 => ?_, fun h1 h8 => ?_⟩
  · rw [readByte_aligned hr h0 ha]
    cases a <;> rfl
  · have hne : r.count ≠ 0#4 := fun h => by simp [h] at h1
    rw [readByte_unaligned hr ((Reader.countLegal_iff r).mpr h8) hne ha]
    cases a with
    | byte b => exact ⟨spliceRead r b, fun j hj => spliceRead_getLsbD r b hj, rfl⟩
    | byteEof b => rfl
    | eof => rfl
    | err e => rfl

/-! ### RRESET -/

theorem exec_rreset {s : State} {k : UnitKind} (hk : s.kindOf s.unit = some k) (ha : accepts k .rreset = true) :
    exec .rreset s = .next ((s.setReader s.unit Reader.fresh).answer (.ok 0)) :=
  State.ifLegal_legal (State.legal_of_accepts hk ha rfl rfl) _

/-- Settles O15: RRESET is one register write behind the check of legality. -/
theorem rresetResult : Obligations.RresetResult := by
  have haccepts : ∀ k : UnitKind, accepts k .rreset = true ↔ k = .reader ∨ k = .readWriter := by
    intro k
    cases k <;> simp [accepts, resettableReader]
  refine ⟨fun data peer nb => decoderFollowsTheOpcodeMap data peer nb 0x04#8, haccepts, fun s hs => ?_⟩
  obtain ⟨k, hk, ha, hread⟩ : ∃ k, s.kindOf s.unit = some k ∧ accepts k .rreset = true ∧ readable k = true := by
    obtain hk | hk := hs <;> exact ⟨_, hk, rfl, rfl⟩
  obtain ⟨r, hr⟩ := State.readerOf_of_kind hk hread
  exact ⟨_, exec_rreset hk ha, rfl, by simp [hr, Reader.fresh], rfl⟩

/-! ### A failed single step -/

/-- A pull that brings no plain byte leaves every unit as it was: only a store is part of a unit, and an empty one stays
empty. -/
theorem State.unitAt_afterPull_of_no_byte {s : State} {u : UnitId} {a : SrcResp} (ha : s.sourceAnswer u = some a)
    (hn : ∀ b, a ≠ .byte b) (v : UnitId) : (s.afterPull u a).unitAt v = s.unitAt v := by
  obtain ⟨k, -, h⟩ | ⟨l, hl, h⟩ | ⟨-, h⟩ := s.afterPull_cases u a <;> rw [h]
  · rfl
  · cases l with
    | nil =>
      by_cases hv : v = u
      · obtain ⟨r, w, hx⟩ := State.unitAt_of_storeOf hl
        simp [hv, hx, BitUnit.setStore]
      · exact State.unitAt_setStore_other s hv _
    | cons b l => exact absurd (Option.some.inj (ha.symm.trans (State.sourceAnswer_store_cons hl))) (hn b)

/-- A push that is not acknowledged leaves every unit as it was: a store acknowledges every push (R61). -/
theorem unitAt_of_push_fail {u : UnitId} {b : Byte} {s t : State} {e : Failure} (h : push u b s = .fail e t)
    (v : UnitId) : t.unitAt v = s.unitAt v := by
  have hkept : ∀ a, s.sinkAnswer u b = some a → a ≠ .ack → (s.afterPush u b a).unitAt v = s.unitAt v := by
    intro a ha hn
    obtain ⟨k, -, h'⟩ | ⟨l, hl, -⟩ | ⟨-, h'⟩ := s.afterPush_cases u b a
    · rw [h']; rfl
    · exact absurd (Option.some.inj (ha.symm.trans (State.push_of_store hl b).1)) hn
    · rw [h']
  obtain ⟨-, hp⟩ | ⟨ha, hp⟩ | ⟨e', ha, hp⟩ | ⟨-, hp⟩ := push_eq u b s <;> rw [hp] at h <;> cases h
  · exact hkept _ ha nofun
  · exact hkept _ ha nofun

theorem unitAt_of_readBit_fail {u : UnitId} {s t : State} {e : Failure} (h : readBit u s = .fail e t) (v : UnitId) :
    t.unitAt v = s.unitAt v := by
  cases hr : s.readerOf u with
  | none => simp only [readBit, hr] at h; cases h; rfl
  | some r =>
    by_cases h0 : r.count = 0#4
    · cases ha : s.sourceAnswer u with
      | none => rw [readBit_stuck hr h0 ha] at h; cases h
      | some a =>
        rw [readBit_empty hr h0 ha] at h
        cases a <;> cases h <;> exact State.unitAt_afterPull_of_no_byte ha nofun v
    · cases hl : r.countLegal with
      | false => rw [readBit_reserved hr hl] at h; cases h
      | true => rw [readBit_buffered hr hl h0] at h; cases h

theorem unitAt_of_readByte_fail {u : UnitId} {s t : State} {e : Failure} (h : readByte u s = .fail e t) (v : UnitId) :
    t.unitAt v = s.unitAt v := by
  cases hr : s.readerOf u with
  | none => simp only [readByte, hr] at h; cases h; rfl
  | some r =>
    cases hl : r.countLegal with
    | false => rw [readByte_reserved hr hl] at h; cases h
    | true =>
      cases ha : s.sourceAnswer u with
      | none => rw [readByte_stuck hr hl ha] at h; cases h
      | some a =>
        by_cases h0 : r.count = 0#4
        · rw [readByte_aligned hr h0 ha] at h
          cases a <;> cases h <;> exact State.unitAt_afterPull_of_no_byte ha nofun v
        · rw [readByte_unaligned hr hl h0 ha] at h
          cases a <;> cases h <;> exact State.unitAt_afterPull_of_no_byte ha nofun v

/-- A command of two steps of which the second cannot fail fails with the first. -/
theorem Act.fail_of_bind_done {α β : Type} {x : Act α} {f : α → β} {g : α → State → State} {e : Failure} {t : State}
    (h : (x.bind fun a s => .done (f a) (g a s)) = .fail e t) : x = .fail e t := by
  cases x with
  | done a s => cases h
  | fail e' s => cases h; rfl
  | stuck r => cases h

theorem unitAt_of_writeBit_fail {u : UnitId} {bit : Bit} {s t : State} {e : Failure} (h : writeBit u bit s = .fail e t)
    (v : UnitId) : t.unitAt v = s.unitAt v := by
  cases hw : s.writerOf u with
  | none => simp only [writeBit, hw] at h; cases h; rfl
  | some w =>
    simp only [writeBit, hw] at h
    split at h
    · cases h
    · split at h
      · exact unitAt_of_push_fail (Act.fail_of_bind_done h) v
      · cases h

theorem unitAt_of_writeByte_fail {u : UnitId} {byt : Byte} {s t : State} {e : Failure}
    (h : writeByte u byt s = .fail e t) (v : UnitId) : t.unitAt v = s.unitAt v := by
  cases hw : s.writerOf u with
  | none => simp only [writeByte, hw] at h; cases h; rfl
  | some w =>
    simp only [writeByte, hw] at h
    split at h
    · cases h
    · exact unitAt_of_push_fail (Act.fail_of_bind_done h) v

/-- A command made of the one step `x` that answers a failure was illegal, or `x` failed: it leaves what `x` leaves when it
fails. -/
theorem unitAt_of_failed_command {α : Type} {i : Instr} {s t : State} {x : Act α} {f : α → U64} {e : Failure}
    {v : UnitId} (hexec : exec i s = s.ifLegal i (conclude (x.bind fun a s' => .done (f a) s')))
    (hport : x.All s.samePort) (hfail : ∀ e' s', x = .fail e' s' → s'.unitAt v = s.unitAt v)
    (hnext : exec i s = .next t) (hres : t.results = s.results ++ [.fail e]) : t.unitAt v = s.unitAt v := by
  rw [hexec] at hnext
  obtain ⟨-, hrun⟩ | ⟨-, hrun⟩ := s.ifLegal_eq i (conclude (x.bind fun a s' => .done (f a) s')) <;> rw [hrun] at hnext
  · cases x with
    | done a s' =>
      cases hnext
      obtain ⟨-, hkept⟩ := hport
      simp [hkept] at hres
    | fail e' s' =>
      cases hnext
      exact hfail e' s' rfl
    | stuck r => cases hnext
  · cases hnext
    rfl

/-- Settles O50: a failing step has made no register move, and a port that gives or takes no byte leaves the stores. -/
theorem failedStepsKeepTheRegisters : Obligations.FailedStepsKeepTheRegisters := by
  rintro i s t e (rfl | rfl | ⟨bit, rfl⟩ | ⟨byt, rfl⟩) hnext hres v
  · exact unitAt_of_failed_command rfl (readBit_all (readStable_samePort _ s) s.samePort_refl)
      (fun _ _ h => unitAt_of_readBit_fail h v) hnext hres
  · exact unitAt_of_failed_command rfl (readByte_all (readStable_samePort _ s) s.samePort_refl)
      (fun _ _ h => unitAt_of_readByte_fail h v) hnext hres
  · exact unitAt_of_failed_command rfl (writeBit_all (writeStable_samePort _ s) bit s.samePort_refl)
      (fun _ _ h => unitAt_of_writeBit_fail h v) hnext hres
  · exact unitAt_of_failed_command rfl (writeByte_all (writeStable_samePort _ s) byt s.samePort_refl)
      (fun _ _ h => unitAt_of_writeByte_fail h v) hnext hres

end Sys2Proof.Machine
end

section
/-!
PROOFS. READBITS: it is the two loops of R117 over READBYTE and READBIT, and what it answers where the stream has fewer bits
than it asks for (R118 to R120).
-/

namespace Sys2Proof.Machine

/-! ### The pseudocode of READBITS -/

/-- The unit `u` has a reader. -/
def State.hasReader (u : UnitId) (s : State) : Prop := ∃ r, s.readerOf u = some r

theorem readStable_hasReader (u : UnitId) : ReadStable u (State.hasReader u) where
  pull s a h := by simpa [State.hasReader] using h
  move s r r' _ hr _ := ⟨r', by simp [hr]⟩

theorem byteValue_and_mask (b : Byte) : byteValue b &&& 0xFF#64 = byteValue b := by
  have hb : b.toNat < 2 ^ 8 := b.isLt
  apply BitVec.eq_of_toNat_eq
  rw [BitVec.toNat_and, byteValue, BitVec.toNat_setWidth, Nat.mod_eq_of_lt (by omega)]
  exact (Nat.and_two_pow_sub_one_eq_mod b.toNat 8).trans (Nat.mod_eq_of_lt hb)

theorem bitValue_and_one (b : Bit) : bitValue b &&& 1#64 = bitValue b := by cases b <;> rfl

/-- The loop over READBYTE is the byte phase (R117). -/
theorem pseudoReadBytes_eq {u : UnitId} (k : Nat) (acc : U64) {s : State} (hs : s.hasReader u) :
    pseudoReadBytes u k acc s = readByteRun u k acc s := by
  induction k generalizing acc s with
  | zero => rfl
  | succ k ih =>
    obtain ⟨r, hr⟩ := hs
    rw [pseudoReadBytes, readByteRun_succ, issue_readbyte hr, Act.bind_assoc]
    refine Act.bind_congr (readByte_all (readStable_hasReader u) ⟨r, hr⟩) fun b t ht => ?_
    rw [Act.bind, byteValue_and_mask, ih _ ht]

/-- The loop over READBIT is the tail, its last round with the end-of-input tolerance (R117, R118). -/
theorem pseudoReadTail_eq {u : UnitId} (n : Nat) (acc : U64) {s : State} (hs : s.hasReader u) :
    pseudoReadTail u n acc s = readTail u n acc s := by
  induction n generalizing acc s with
  | zero => rfl
  | succ n ih =>
    obtain ⟨r, hr⟩ := hs
    have hkept := readBit_all (readStable_hasReader u) (s := s) ⟨r, hr⟩
    rw [pseudoReadTail, issue_readbit hr]
    cases n with
    | zero =>
      rw [readTail_one]
      cases readBit u s with
      | done b t => simp [Act.bind, bitValue_and_one, pseudoReadTail, shortRead]
      | fail e t => simp [Act.bind, shortRead]
      | stuck f => rfl
    | succ n =>
      rw [readTail_succ]
      cases hx : readBit u s with
      | done b t =>
        rw [hx] at hkept
        simp only [Act.bind, bitValue_and_one]
        exact ih _ hkept
      | fail e t => simp [Act.bind]
      | stuck f => rfl

/-- Settles O23: a legal READBITS is issued to a unit with a reader, which every READBYTE and READBIT keeps. -/
theorem readBitsIsItsPseudocode : Obligations.ReadBitsIsItsPseudocode := by
  intro s nb hlegal
  obtain ⟨k, hk, haccepts, -, -⟩ := (s.legal_iff _).mp ((s.Legal_iff _).mp hlegal)
  have hs : s.hasReader s.unit := State.readerOf_of_kind hk haccepts
  have ⟨r, hr⟩ := hs
  rw [exec_readbits hr hlegal.2, readBits, pseudoReadBits, pseudoReadBytes_eq _ _ hs]
  exact congrArg conclude (Act.bind_congr (readByteRun_all (readStable_hasReader s.unit) _ _ hs)
    fun acc t ht => (pseudoReadTail_eq _ acc ht).symm)

/-! ### The end of the stream -/

/-- A command whose steps fail, the command port left alone on the way, appends its one result, the failure. -/
theorem exec_of_fail {s t : State} {i : Instr} {x : Act U64} {e : Failure} (he : exec i s = conclude x)
    (hx : x = .fail e t) (hall : x.All s.samePort) :
    exec i s = .next (t.raise e) ∧ (t.raise e).results = s.results ++ [.fail e] := by
  subst hx
  obtain ⟨-, hres⟩ : s.samePort t := hall
  exact ⟨he, by rw [State.results_raise, hres]⟩

/-- Settles O29: a byte phase that runs short fails, and so does a tail that lacks more than its last bit; lacking that one
bit it tolerates an end of input, and nothing else. -/
theorem readBitsAtTheEndOfTheStream : Obligations.ReadBitsAtTheEndOfTheStream := by
  intro s nb hok hnb hlen
  have ⟨r, hr, _⟩ := hok
  have hexec := exec_readbits hr hnb
  have hport := readBits_all (readStable_samePort s.unit s) nb.toNat s.samePort_refl
  refine ⟨fun ha => ?_, fun e ha => ?_⟩
  · obtain ⟨t, hempty, hx⟩ := readBits_at_end nb.toNat hok hlen ha nofun nofun
    by_cases hshort : nb.toNat = (s.bitsAhead s.unit).length + 1 ∧ nb.toNat % 8 ≠ 0
    · rw [if_pos ⟨hshort.1, hshort.2, rfl⟩] at hx
      obtain ⟨hnext, hres⟩ := exec_of_done hexec hx hport
      exact ⟨_, hnext, by rw [if_pos hshort]; exact ⟨hres, hempty hshort⟩⟩
    · rw [if_neg fun h => hshort ⟨h.1, h.2.1⟩] at hx
      obtain ⟨hnext, hres⟩ := exec_of_fail hexec hx hport
      exact ⟨_, hnext, by rw [if_neg hshort]; exact hres⟩
  · obtain ⟨t, -, hx⟩ := readBits_at_end nb.toNat hok hlen ha nofun nofun
    rw [if_neg fun h => nomatch h.2.2] at hx
    obtain ⟨hnext, hres⟩ := exec_of_fail hexec hx hport
    exact ⟨_, hnext, hres⟩

end Sys2Proof.Machine
end

section
/-!
PROOFS. The single steps of the BitWriter: WRITEBIT and WRITEBYTE at every writer and for every answer of the sink
(R140 to R147).
-/

namespace Sys2Proof.Machine

/-! ### WRITEBIT -/

/-- Settles O16: the cases of R140 are the equations of the step, the byte of both being `slotIn`; `exec` adds the
legality check, which a writer passes, and the answer. -/
theorem writeBitResult : Obligations.WriteBitResult := by
  refine ⟨fun data peer nb => decoderFollowsTheOpcodeMap data peer nb 0x11#8, fun s w bit hw hlo hhi =>
    ⟨slotIn w bit, fun j hj => ?_, fun h1 => ?_, fun h1 a ha => ?_⟩⟩
  · rw [slotIn_getLsbD, decide_eq_true hj, Bool.true_and]
  · rw [exec_writebit hw, writeBit_queued hw ((Writer.countLegal_iff w).mpr ⟨hlo, hhi⟩) h1]
    rfl
  · rw [exec_writebit hw, writeBit_complete hw h1 bit ha]
    cases a <;> rfl

/-! ### WRITEBYTE -/

/-- The byte a WRITEBYTE pushes, bit by bit: the queued bits, and the operand moved down by the bits queued (R145). -/
theorem spliceWrite_getLsbD (w : Writer) (byt : Byte) (j : Nat) :
    (spliceWrite w byt).getLsbD j = (w.pending.getLsbD j || byt.getLsbD (j + (8 - w.count.toNat))) := by
  rw [spliceWrite, BitVec.getLsbD_or, BitVec.getLsbD_ushiftRight, Nat.add_comm]

/-- Settles O17: the one push of the step is of `spliceWrite`, whatever the count. -/
theorem writeByteResult : Obligations.WriteByteResult := by
  refine ⟨fun data peer nb => decoderFollowsTheOpcodeMap data peer nb 0x12#8, fun s w byt hw hlo hhi =>
    ⟨spliceWrite w byt, fun j _ => spliceWrite_getLsbD w byt j, fun a ha => ?_⟩⟩
  rw [exec_writebyte hw, writeByte_push hw ((Writer.countLegal_iff w).mpr ⟨hlo, hhi⟩) byt ha]
  cases a <;> rfl

end Sys2Proof.Machine
end

section
/-!
PROOFS. FLUSH (R152 to R154): its loop, and its one push by the answer of the sink.
-/

namespace Sys2Proof.Machine

/-! ### The loop -/

/-- FLUSH, called by another command, is a WRITEBIT of zero for each free slot of the byte begun (R90, R152). -/
theorem issue_flush_eq_pseudoWriteList {u : UnitId} {s : State} {w : Writer} (hw : s.writerOf u = some w)
    (hl : w.countLegal = true) :
    issue u .flush s = pseudoWriteList u (List.replicate (w.count.toNat % 8) false) s := by
  rw [issue_flush hw]
  exact flushLoop_eq_pseudoWriteList hw hl rfl (by omega)

/-- On an aligned writer FLUSH does nothing (R152, R153). -/
theorem flush_aligned {u : UnitId} {s : State} {w : Writer} (hw : s.writerOf u = some w) (h8 : w.count = 8#4) :
    flush u s = .done ⟨⟩ s := flushLoop_aligned hw h8 8

/-- On a writer that is not aligned FLUSH is one WRITEBIT 0 and the FLUSH of what that leaves (R152). -/
theorem issue_flush_unaligned {u : UnitId} {s : State} {w : Writer} (hw : s.writerOf u = some w) (h8 : w.count ≠ 8#4) :
    issue u .flush s = (issue u (.writebit false) s).bind fun _ t => issue u .flush t := by
  cases hl : w.countLegal with
  | false =>
    rw [issue_flush hw, issue_writebit hw, flush, flushLoop_succ u 7 hw, if_neg h8, writeBit_reserved hw hl]
    rfl
  | true =>
    obtain ⟨hlo, hhi⟩ := (Writer.countLegal_iff w).mp hl
    have hne : w.count.toNat ≠ 8 := by simpa using count_ne.mp h8
    obtain ⟨k, hk⟩ : ∃ k, w.count.toNat % 8 = k + 1 := ⟨w.count.toNat % 8 - 1, by omega⟩
    rw [issue_flush_eq_pseudoWriteList hw hl, hk, List.replicate_succ, pseudoWriteList, issue_writebit hw,
      Act.bind_assoc, Act.bind_assoc]
    refine Act.bind_congr_of_done fun _ t ht => ?_
    obtain ⟨w', hw', hl', hcount⟩ := count_of_writeBit_done hw hl ht
    obtain rfl : w'.count.toNat % 8 = k := by omega
    exact (issue_flush_eq_pseudoWriteList hw' hl').symm

/-! ### The end of a FLUSH -/

theorem exec_flush_aligned {s : State} {w : Writer} (hw : s.writerOf s.unit = some w) (h8 : w.count = 8#4) :
    exec .flush s = .next (s.answer (.ok 0)) := by
  rw [exec_flush hw, flush_aligned hw h8]
  rfl

theorem flush_reserved {u : UnitId} {s : State} {w : Writer} (hw : s.writerOf u = some w) (hl : w.countLegal = false) :
    flush u s = .stuck .writerCountReserved := by
  have h8 : w.count ≠ 8#4 := fun h => by simp [Writer.countLegal, h] at hl
  rw [flush, flushLoop_succ u 7 hw, if_neg h8, writeBit_reserved hw hl]
  rfl

/-- Settles O18: the loop goes round once per WRITEBIT, and its one push is of the pending byte. -/
theorem flushResult : Obligations.FlushResult := by
  refine ⟨fun data peer nb => decoderFollowsTheOpcodeMap data peer nb 0x14#8, fun s w hw =>
    ⟨?_, exec_flush_aligned hw, fun h1 h7 ha => ?_⟩⟩
  · split
    · rw [issue_flush hw, flush_aligned hw ‹_›]
      rfl
    · exact issue_flush_unaligned hw ‹_›
  · rw [exec_flush hw, flush, flushLoop_answered 8 hw h1 h7 (by omega) ha]
    rfl

/-- Settles O19: the zeros before the last are queued, and the last WRITEBIT 0 leaves the registers as its push
fails. -/
theorem flushFailure : Obligations.FlushFailure := by
  refine fun s w hw h1 h7 => ⟨fun ha => ?_, fun e ha => ?_⟩
  · rw [exec_flush hw, flush, flushLoop_answered 8 hw h1 h7 (by omega) ha]
    rfl
  · rw [exec_flush hw, flush, flushLoop_answered 8 hw h1 h7 (by omega) ha]
    rfl

/-- How a FLUSH can end: at once on an aligned writer; after one push of the pending byte, acknowledged or not; or
never. -/
theorem flush_cases {u : UnitId} {s : State} {w : Writer} (hw : s.writerOf u = some w) :
    (w.count = 8#4 ∧ flush u s = .done ⟨⟩ s) ∨
    (w.count.toNat < 8 ∧ flush u s = .done ⟨⟩ ((s.afterPush u w.pending .ack).setWriter u Writer.fresh)) ∨
    (w.count.toNat < 8 ∧
      ∃ e a, flush u s = .fail e ((s.setWriter u ⟨w.pending, 1#4⟩).afterPush u w.pending a)) ∨
    ∃ f, flush u s = .stuck f := by
  by_cases h8 : w.count = 8#4
  · exact .inl ⟨h8, flush_aligned hw h8⟩
  cases hl : w.countLegal with
  | false => exact .inr (.inr (.inr ⟨_, flush_reserved hw hl⟩))
  | true =>
    obtain ⟨h1, hhi⟩ := (Writer.countLegal_iff w).mp hl
    have hne : w.count.toNat ≠ 8 := by simpa using count_ne.mp h8
    have h7 : w.count.toNat < 8 := by omega
    rcases ha : s.sinkAnswer u w.pending with _ | _ | _ | e
    · exact .inr (.inr (.inr ⟨_, flushLoop_stuck 8 hw h1 h7 (by omega) ha⟩))
    · exact .inr (.inl ⟨h7, flushLoop_answered 8 hw h1 h7 (by omega) ha⟩)
    · exact .inr (.inr (.inl ⟨h7, _, _, flushLoop_answered 8 hw h1 h7 (by omega) ha⟩))
    · exact .inr (.inr (.inl ⟨h7, _, _, flushLoop_answered 8 hw h1 h7 (by omega) ha⟩))

/-- A FLUSH that succeeds leaves an aligned writer (R153). -/
theorem aligned_of_flush_done {u : UnitId} {s t : State} {w : Writer} {x : PUnit} (hw : s.writerOf u = some w)
    (h : flush u s = .done x t) : ∃ w', t.writerOf u = some w' ∧ w'.count = 8#4 := by
  obtain ⟨h8, hx⟩ | ⟨-, hx⟩ | ⟨-, e, a, hx⟩ | ⟨f, hx⟩ := flush_cases hw <;> rw [hx] at h <;> cases h
  · exact ⟨w, hw, h8⟩
  · exact ⟨Writer.fresh, by simp [hw], rfl⟩

/-- Settles O20: every end of a FLUSH is at an aligned writer, after one push of the pending byte, or at a failed push
of it. -/
theorem flushIdempotence : Obligations.FlushIdempotence := by
  refine fun s w hw => ⟨exec_flush_aligned hw, fun t ht hres => ?_, fun t ht => ?_⟩
  · have hport := flush_all (writeStable_samePort s.unit s) s.samePort_refl
    rw [exec_flush hw] at ht
    obtain ⟨s', hx, rfl⟩ | ⟨e, s', hx, rfl⟩ := concludeVoid_next ht <;> rw [hx] at hport <;>
      obtain ⟨hunit, hresults⟩ := hport
    · obtain ⟨w', hw', h8⟩ := aligned_of_flush_done hw hx
      exact exec_flush_aligned (by simpa [hunit] using hw') h8
    · simp [hresults] at hres
  · rw [exec_flush hw] at ht
    obtain ⟨-, hx⟩ | ⟨h7, hx⟩ | ⟨h7, e, a, hx⟩ | ⟨f, hx⟩ := flush_cases hw <;> rw [hx] at ht <;> cases ht
    · exact .inl ⟨rfl, rfl⟩
    · exact .inr ⟨h7, .ack, by simp, by simp⟩
    · exact .inr ⟨h7, a, by simp [State.setWriter_afterPush], by simp [State.setWriter_afterPush]⟩

end Sys2Proof.Machine
end

section
/-!
PROOFS. WRITEBITS is the two loops of R149 over WRITEBYTE and WRITEBIT.
-/

namespace Sys2Proof.Machine

/-- The unit `u` has a writer. -/
def State.hasWriter (u : UnitId) (s : State) : Prop := ∃ w, s.writerOf u = some w

theorem writeStable_hasWriter (u : UnitId) : WriteStable u (State.hasWriter u) where
  push s b a h := by simpa [State.hasWriter] using h
  move s w w' _ hw _ := ⟨w', by simp [hw]⟩

/-- `v[n+7 : n]` as the slice of R10. -/
theorem byteSlice_eq_extractLsb' (v : U64) (n : Nat) : byteSlice v n = v.extractLsb' n 8 := by
  rw [byteSlice, BitVec.setWidth_ushiftRight_eq_extractLsb]

/-- The loop over WRITEBYTE is the byte phase (R149). -/
theorem pseudoWriteBytes_eq {u : UnitId} (v : U64) (m k : Nat) {s : State} (hs : s.hasWriter u) :
    pseudoWriteBytes u v m k s = (writeByteRun u v m k s).bind fun _ t => .done 0 t := by
  induction k generalizing s with
  | zero => rfl
  | succ k ih =>
    obtain ⟨w, hw⟩ := hs
    rw [pseudoWriteBytes, writeByteRun, issue_writebyte hw, byteSlice_eq_extractLsb', Act.bind_assoc, Act.bind_assoc]
    exact Act.bind_congr (writeByte_all (writeStable_hasWriter u) _ ⟨w, hw⟩) fun _ t ht => ih ht

/-- The loop over WRITEBIT is the tail (R149). -/
theorem pseudoWriteTail_eq {u : UnitId} (v : U64) (n : Nat) {s : State} (hs : s.hasWriter u) :
    pseudoWriteTail u v n s = (writeTail u v n s).bind fun _ t => .done 0 t := by
  induction n generalizing s with
  | zero => rfl
  | succ n ih =>
    obtain ⟨w, hw⟩ := hs
    rw [pseudoWriteTail, writeTail, issue_writebit hw, Act.bind_assoc, Act.bind_assoc]
    exact Act.bind_congr (writeBit_all (writeStable_hasWriter u) _ ⟨w, hw⟩) fun _ t ht => ih ht

/-- The two loops of R149 are the two phases of WRITEBITS. -/
theorem pseudoWriteBits_eq {u : UnitId} (v : U64) (n : Nat) {s : State} (hs : s.hasWriter u) :
    pseudoWriteBits u v n s = (writeBits u v n s).bind fun _ t => .done 0 t := by
  rw [pseudoWriteBits, writeBits, pseudoWriteBytes_eq v _ _ hs, Act.bind_assoc, Act.bind_assoc]
  exact Act.bind_congr (writeByteRun_all (writeStable_hasWriter u) v _ _ hs) fun _ t ht => pseudoWriteTail_eq v _ ht

/-- Settles O24: a legal WRITEBITS is issued to a unit with a writer, which every WRITEBYTE and WRITEBIT keeps. -/
theorem writeBitsIsItsPseudocode : Obligations.WriteBitsIsItsPseudocode := by
  intro s v nb hlegal
  obtain ⟨k, hk, haccepts, -, -⟩ := (s.legal_iff _).mp ((s.Legal_iff _).mp hlegal)
  have hs : s.hasWriter s.unit := State.writerOf_of_kind hk haccepts
  have ⟨w, hw⟩ := hs
  rw [exec_writebits hw v hlegal.2, concludeVoid, pseudoWriteBits_eq v _ hs]

end Sys2Proof.Machine
end

section
/-!
PROOFS. WRITEBYTE over a sink that acknowledges is eight WRITEBITs (R148 (e)): the first bits of the byte complete the
byte begun, the others are queued in the next, and a writer that meets its invariant is fixed by the bits it has queued.
-/

namespace Sys2Proof.Machine

/-! ### A writer is its queued bits -/

/-- The free slots of a writer that meets its invariant are zeros after its queued bits (R26, R28). -/
theorem bitsOf_pending {w : Writer} (hw : w.ok = true) :
    bitsOf w.pending = w.bits ++ List.replicate w.count.toNat false := by
  obtain ⟨p, c⟩ := w
  rw [Writer.ok_iff] at hw
  obtain ⟨-, hhi, hfree⟩ := hw
  rcases count_cases c hhi with rfl | rfl | rfl | rfl | rfl | rfl | rfl | rfl | rfl
  all_goals simp [bitsOf, Writer.bits, free_slot_zero hfree]

theorem Writer.eq_of_bits {w w' : Writer} (hw : w.ok = true) (hw' : w'.ok = true) (h : w.bits = w'.bits) : w = w' := by
  obtain ⟨-, hhi⟩ := (Writer.countLegal_iff w).mp (Writer.ok_countLegal hw)
  obtain ⟨-, hhi'⟩ := (Writer.countLegal_iff w').mp (Writer.ok_countLegal hw')
  have hlen := congrArg List.length h
  rw [length_writer_bits (Writer.ok_countLegal hw), length_writer_bits (Writer.ok_countLegal hw')] at hlen
  have hcount : w.count.toNat = w'.count.toNat := by omega
  have hpending : w.pending = w'.pending := bitsOf_inj (by rw [bitsOf_pending hw, bitsOf_pending hw', h, hcount])
  cases w
  cases w'
  rw [Writer.mk.injEq]
  exact ⟨hpending, BitVec.eq_of_toNat_eq hcount⟩

/-! ### A list of WRITEBITs -/

theorem pseudoWriteList_append (u : UnitId) (l m : List Bit) (s : State) :
    pseudoWriteList u (l ++ m) s = (pseudoWriteList u l s).bind fun _ t => pseudoWriteList u m t := by
  induction l generalizing s with
  | nil => rfl
  | cons b l ih =>
    rw [List.cons_append, pseudoWriteList, pseudoWriteList, Act.bind_assoc]
    exact congrArg _ (funext fun _ => funext ih)

/-- Fewer WRITEBITs than there are free slots queue their bits and touch no port (R140, R144 (c)). -/
theorem pseudoWriteList_queued {u : UnitId} (l : List Bit) {s : State} {w : Writer} (hw : s.writerOf u = some w)
    (hok : w.ok = true) (hlen : l.length < w.count.toNat) :
    ∃ w', pseudoWriteList u l s = .done 0 (s.setWriter u w') ∧ w'.ok = true ∧ w'.bits = w.bits ++ l := by
  induction l generalizing s w with
  | nil => exact ⟨w, by rw [State.setWriter_same hw]; rfl, hok, by simp⟩
  | cons b l ih =>
    rw [List.length_cons] at hlen
    have hl := Writer.ok_countLegal hok
    have h1 : w.count ≠ 1#4 := count_ne.mpr (by simp; omega)
    have hpred : (w.count - 1#4).toNat = w.count.toNat - 1 := count_pred (count_ne.mpr (by simp; omega))
    obtain ⟨w', hx, hok', hbits⟩ := ih (s := s.setWriter u ⟨slotIn w b, w.count - 1#4⟩) (by simp [hw])
      ((WriterMove.slot b hl h1).keeps_ok hok) (by simp only [hpred]; omega)
    refine ⟨w', ?_, hok', by rw [hbits, bits_slot hok h1, List.append_assoc, List.singleton_append]⟩
    rw [pseudoWriteList, issue_writebit hw, writeBit_queued hw hl h1]
    simp only [Act.bind]
    rw [hx, State.setWriter_twice]

/-- As many WRITEBITs as there are free slots push one byte, the bits queued before and their own (R140). -/
theorem pseudoWriteList_complete {u : UnitId} {l : List Bit} {s : State} {w : Writer} (hw : s.writerOf u = some w)
    (hok : w.ok = true) (hack : s.acks u = true) (hlen : l.length = w.count.toNat) :
    ∃ full, pseudoWriteList u l s = .done 0 ((s.afterPush u full .ack).setWriter u Writer.fresh) ∧
      bitsOf full = w.bits ++ l := by
  obtain ⟨hlo, hhi⟩ := (Writer.countLegal_iff w).mp (Writer.ok_countLegal hok)
  obtain ⟨l, b, rfl⟩ := (List.eq_nil_or_concat' l).resolve_left (List.ne_nil_of_length_pos (by omega))
  rw [List.length_append, List.length_singleton] at hlen
  obtain ⟨w', hx, hok', hbits⟩ := pseudoWriteList_queued l hw hok (by omega)
  have hw' : (s.setWriter u w').writerOf u = some w' := by simp [hw]
  obtain ⟨hlo', hhi'⟩ := (Writer.countLegal_iff w').mp (Writer.ok_countLegal hok')
  have h1 : w'.count = 1#4 := by
    have hn := congrArg List.length hbits
    rw [List.length_append, length_writer_bits (Writer.ok_countLegal hok),
      length_writer_bits (Writer.ok_countLegal hok')] at hn
    exact BitVec.eq_of_toNat_eq (by simp; omega)
  have hans := (State.push_acks (s := s.setWriter u w') (by simpa using hack) (slotIn w' b)).1
  refine ⟨slotIn w' b, ?_, by rw [bits_complete hok' h1, hbits, List.append_assoc]⟩
  rw [pseudoWriteList_append, hx]
  simp only [Act.bind, pseudoWriteList]
  rw [issue_writebit hw', writeBit_complete hw' h1 b hans]
  simp only [Act.bind]
  rw [State.setWriter_afterPush, State.setWriter_twice]

/-- Settles O53: both push one byte and queue the rest, and the bits of the byte and of the registers left are the
same. -/
theorem writeByteIsEightWriteBits : Obligations.WriteByteIsEightWriteBits := by
  rintro s byt ⟨⟨w, hw, hok⟩, hack⟩
  have hl := Writer.ok_countLegal hok
  obtain ⟨hlo, hhi⟩ := (Writer.countLegal_iff w).mp hl
  obtain ⟨full, hfirst, hfull⟩ :=
    pseudoWriteList_complete (l := (bitsOf byt).take w.count.toNat) hw hok hack (by simp [hhi])
  have hfresh : ((s.afterPush s.unit full .ack).setWriter s.unit Writer.fresh).writerOf s.unit = some Writer.fresh := by
    simp [hw]
  obtain ⟨w', hrest, hok', hbits⟩ :=
    pseudoWriteList_queued ((bitsOf byt).drop w.count.toNat) hfresh Writer.ok_fresh (by simp [Writer.fresh]; omega)
  have hsplice := bits_spliceWrite hok byt
  rw [← List.take_append_drop w.count.toNat (bitsOf byt), ← List.append_assoc, ← hfull] at hsplice
  obtain ⟨hpushed, hqueued⟩ := List.append_inj hsplice (by simp)
  obtain rfl := bitsOf_inj hpushed
  obtain rfl : w' = ⟨byt <<< w.count.toNat, w.count⟩ :=
    Writer.eq_of_bits hok' ((WriterMove.splice byt hl).keeps_ok hok)
      (by rw [hbits, hqueued, bits_fresh_writer, List.nil_append])
  refine ⟨_, by rw [exec_writebyte hw, writeByte_push hw hl byt (State.push_acks hack _).1]; rfl, ?_⟩
  rw [← List.take_append_drop w.count.toNat (bitsOf byt), pseudoWriteList_append, hfirst]
  simp only [Act.bind]
  rw [hrest, State.setWriter_twice]

end Sys2Proof.Machine
end

section
/-!
PROOFS. The round trip over a buffer (R120, R151 (e)): what its writer has written is what its reader has ahead.
-/

namespace Sys2Proof.Machine

/-- The bits of a value in stream order are its low bits (R63). -/
theorem getLsbD_of_valueBits {v v' : U64} {n j : Nat} (h : valueBits v n = valueBits v' n) (hj : j < n) :
    v.getLsbD j = v'.getLsbD j := by
  induction n with
  | zero => omega
  | succ n ih =>
    rw [valueBits, valueBits, List.cons.injEq] at h
    obtain ⟨htop, hrest⟩ := h
    obtain rfl | hlt : j = n ∨ j < n := by omega
    · exact htop
    · exact ih hrest hlt

/-- A value below `2 ^ n` is fixed by its low `n` bits in stream order (R63). -/
theorem eq_of_valueBits {v v' : U64} {n : Nat} (hv : v.toNat < 2 ^ n) (hv' : v'.toNat < 2 ^ n)
    (h : valueBits v n = valueBits v' n) : v = v' := by
  refine BitVec.eq_of_getLsbD_eq fun j _ => ?_
  by_cases hj : j < n
  · exact getLsbD_of_valueBits h hj
  · have hpow : 2 ^ n ≤ 2 ^ j := Nat.pow_le_pow_right (by decide) (by omega)
    exact (Nat.testBit_lt_two_pow (hv.trans_le hpow)).trans (Nat.testBit_lt_two_pow (hv'.trans_le hpow)).symm

/-- The store a buffer's writer fills is the supply of its reader (R30, R31). -/
theorem State.supply_of_buffer {s : State} {u : UnitId} (h : s.kindOf u = some .buffer) :
    s.supply u = s.delivered u := by
  obtain ⟨l, r, w, hx⟩ := State.unitAt_of_buffer h rfl
  simp [State.supply, State.delivered, hx]

/-- With no bit left over in its reader and none queued in its writer, a buffer has ahead what was written to it. -/
theorem State.bitsAhead_of_buffer {s : State} {u : UnitId} (h : s.kindOf u = some .buffer)
    (hr : s.readerOf u = some Reader.fresh) (hw : s.bitsWritten u = bytesBits (s.delivered u)) :
    s.bitsAhead u = s.bitsWritten u := by
  rw [State.bitsAhead_eq hr, bits_fresh_reader, List.nil_append, State.supply_of_buffer h, hw]

theorem writeStable_kindOf (u v : UnitId) (k : Option UnitKind) : WriteStable u (fun s => s.kindOf v = k) where
  push s b a h := (s.kindOf_afterPush u b a v).trans h
  move s _ w' h _ _ := (s.kindOf_setWriter u w' v).trans h

/-- A writer command leaves the kind of every unit. -/
theorem kindOf_of_writerCommand {i : Instr} {s t : State} (hi : writerCommand i = true) (h : exec i s = .next t)
    (v : UnitId) : t.kindOf v = s.kindOf v := by
  obtain ⟨s', r, hs', rfl⟩ := exec_next (keeps_of_writerCommand (writeStable_kindOf _ v _) hi) rfl h
  simpa using hs'

/-- A command leaves the `unit` lines (R80). -/
theorem unit_of_exec {i : Instr} {s t : State} (h : exec i s = .next t) : t.unit = s.unit :=
  (everyCommandAnswersOnce i s t h).2.2

/-- WRITEBITS and FLUSH on a buffer with nothing to read leave ahead the bits queued before, the bits of the value and
the padding. -/
theorem exec_writebits_flush_of_empty_buffer {s : State} {w : Writer} (v : U64) {nb : Byte}
    (hx : s.unitAt s.unit = some (.buffer [] Reader.fresh w)) (hok : w.ok = true) (hnb : nb.toNat ≤ 64) :
    ∃ t₁ t₂ pad, exec (.writebits v nb) s = .next t₁ ∧ exec .flush t₁ = .next t₂ ∧
      t₂.results = s.results ++ [.ok 0, .ok 0] ∧ t₂.readerOk t₂.unit ∧
      t₂.bitsAhead t₂.unit = w.bits ++ (valueBits v nb.toNat ++ pad) := by
  have hkind : s.kindOf s.unit = some .buffer := by simp [State.kindOf, hx, BitUnit.kind]
  have hreader : s.readerOf s.unit = some Reader.fresh := by simp [State.readerOf, hx, BitUnit.reader?]
  have hw : s.writerOf s.unit = some w := by simp [State.writerOf, hx, BitUnit.writer?]
  have hempty : s.delivered s.unit = [] := by simp [State.delivered, hx]
  have hs : s.writerOk s.unit := ⟨⟨w, hw, hok⟩, by simp [State.acks, hx]⟩
  obtain ⟨-, -, hwrite, -⟩ := writesAppendToTheStream s hs
  obtain ⟨t₁, hx₁, hres₁, hbits₁, hok₁⟩ := hwrite v nb hnb
  have hu₁ := unit_of_exec hx₁
  rw [← hu₁] at hok₁
  obtain ⟨w₁, hw₁⟩ := State.writer_of_ok hok₁
  obtain ⟨-, -, -, hflush⟩ := writesAppendToTheStream t₁ hok₁
  obtain ⟨t₂, hx₂, hres₂, hbits₂, hdelivered, -, -⟩ := hflush w₁ hw₁
  have hu₂ := unit_of_exec hx₂
  have hwriter : writerCommand (.writebits v nb) = true := by simp [writerCommand, opcode]
  have hkind₂ : t₂.kindOf t₁.unit = some .buffer := by
    rw [kindOf_of_writerCommand rfl hx₂, kindOf_of_writerCommand hwriter hx₁, hu₁, hkind]
  have hreader₂ : t₂.readerOf t₁.unit = some Reader.fresh := by
    rw [readerOf_of_writerCommand rfl hx₂, readerOf_of_writerCommand hwriter hx₁, hu₁, hreader]
  refine ⟨t₁, t₂, List.replicate (w₁.count.toNat % 8) false, hx₁, hx₂, ?_, ?_, ?_⟩
  · rw [hres₂, hres₁, List.append_assoc]
    rfl
  · rw [hu₂]
    exact ⟨_, hreader₂, Reader.ok_fresh⟩
  · rw [hu₂, State.bitsAhead_of_buffer hkind₂ hreader₂ hdelivered, hbits₂, hu₁, hbits₁, State.bitsWritten_eq hw, hempty,
      bytesBits_nil, List.nil_append, List.append_assoc]

/-- READBITS delivers the bits ahead that are as many as it asks for (R63, R117). -/
theorem exec_readbits_of_bitsAhead {s : State} {nb : Byte} {l rest : List Bit} (hok : s.readerOk s.unit)
    (hnb : nb.toNat ≤ 64) (hlen : l.length = nb.toNat) (hahead : s.bitsAhead s.unit = l ++ rest) :
    ∃ x t, exec (.readbits nb) s = .next t ∧ t.results = s.results ++ [.ok x] ∧ x.toNat < 2 ^ nb.toNat ∧
      valueBits x nb.toNat = l ∧ t.bitsAhead t.unit = rest ∧ t.readerOk t.unit := by
  obtain ⟨x, t, hx, hres, hlt, hbits, ht⟩ := readBitsDeliversTheStream s nb hok hnb (by simp [hahead, hlen])
  rw [hahead] at hbits
  obtain ⟨hl, hrest⟩ := List.append_inj hbits (by rw [hlen, length_valueBits])
  rw [← unit_of_exec hx] at hrest ht
  exact ⟨x, t, hx, hres, hlt, hl.symm, hrest.symm, ht⟩

/-- Settles O34: the two READBITS take what WRITEBITS and FLUSH left ahead, in the order written. -/
theorem bufferRoundTrip : Obligations.BufferRoundTrip := by
  intro s w v nb hx hok hnb hv
  have hl := Writer.ok_countLegal hok
  obtain ⟨hlo, hhi⟩ := (Writer.countLegal_iff w).mp hl
  have hqueued : (BitVec.ofNat 8 (8 - w.count.toNat)).toNat = 8 - w.count.toNat := by
    rw [BitVec.toNat_ofNat]
    omega
  obtain ⟨t₁, t₂, pad, hx₁, hx₂, hres₂, hok₂, hahead₂⟩ := exec_writebits_flush_of_empty_buffer v hx hok hnb
  obtain ⟨x, t₃, hx₃, hres₃, -, hbits₃, hahead₃, hok₃⟩ :=
    exec_readbits_of_bitsAhead (nb := BitVec.ofNat 8 (8 - w.count.toNat)) hok₂ (by omega)
      (by rw [hqueued, length_writer_bits hl]) hahead₂
  obtain ⟨y, t₄, hx₄, hres₄, hlt, hbits₄, -, -⟩ :=
    exec_readbits_of_bitsAhead hok₃ hnb (length_valueBits v nb.toNat) hahead₃
  obtain rfl : y = v := eq_of_valueBits hlt hv hbits₄
  refine ⟨t₁, t₂, t₃, t₄, x, hx₁, hx₂, hx₃, hx₄, ?_, by rw [← hbits₃, hqueued]⟩
  rw [hres₄, hres₃, hres₂]
  simp

end Sys2Proof.Machine
end

section
/-!
PROOFS. The frames of the commands of one half (R29, R171, R237): each part of the state that a reader's pulls and register
moves leave alone, and each that a writer's pushes and moves do; the commands of a half are made of these alone.
-/

namespace Sys2Proof.Machine

/-! ### What a command made of one half's moves keeps -/

theorem next_of_readerCommand {Q : State → Prop} {i : Instr} {s t : State} (h : ReadStable s.unit Q)
    (hreset : ∀ s', Q s' → Q (s'.setReader s.unit Reader.fresh)) (hanswer : ∀ s' r, Q s' → Q (s'.answer r)) (hs : Q s)
    (hi : readerCommand i = true) (hx : exec i s = .next t) : Q t := by
  obtain ⟨s', r, hs', rfl⟩ := exec_next (keeps_of_readerCommand h hreset hi) hs hx
  exact hanswer s' r hs'

theorem next_of_writerCommand {Q : State → Prop} {i : Instr} {s t : State} (h : WriteStable s.unit Q)
    (hanswer : ∀ s' r, Q s' → Q (s'.answer r)) (hs : Q s) (hi : writerCommand i = true) (hx : exec i s = .next t) :
    Q t := by
  obtain ⟨s', r, hs', rfl⟩ := exec_next (keeps_of_writerCommand h hi) hs hx
  exact hanswer s' r hs'

/-! ### The bindings are read off the unit table -/

/-- The source a row of the `UNITS` table binds its unit to. -/
def sourceOfSpec : UnitSpec → Option StreamName
  | .reader src => some src
  | .writer _ => none
  | .readWriter src _ => some src
  | .buffer => none

/-- The sink a row of the `UNITS` table binds its unit to. -/
def sinkOfSpec : UnitSpec → Option StreamName
  | .reader _ => none
  | .writer snk => some snk
  | .readWriter _ snk => some snk
  | .buffer => none

theorem State.find_unitTable (s : State) (u : UnitId) : Table.find u s.unitTable = (s.unitAt u).map BitUnit.spec :=
  Table.find_map BitUnit.spec u s.units

theorem State.sourceNameOf_eq (s : State) (u : UnitId) :
    s.sourceNameOf u = (Table.find u s.unitTable).bind sourceOfSpec := by
  rw [State.find_unitTable, State.sourceNameOf]
  rcases s.unitAt u with _ | (_ | _ | _ | _) <;> rfl

theorem State.sinkNameOf_eq (s : State) (u : UnitId) :
    s.sinkNameOf u = (Table.find u s.unitTable).bind sinkOfSpec := by
  rw [State.find_unitTable, State.sinkNameOf]
  rcases s.unitAt u with _ | (_ | _ | _ | _) <;> rfl

@[simp] theorem State.sourceNameOf_setReader (s : State) (u : UnitId) (r : Reader) (v : UnitId) :
    (s.setReader u r).sourceNameOf v = s.sourceNameOf v := by simp [State.sourceNameOf_eq]

@[simp] theorem State.sourceNameOf_afterPull (s : State) (u : UnitId) (a : SrcResp) (v : UnitId) :
    (s.afterPull u a).sourceNameOf v = s.sourceNameOf v := by simp [State.sourceNameOf_eq]

@[simp] theorem State.sinkNameOf_setWriter (s : State) (u : UnitId) (w : Writer) (v : UnitId) :
    (s.setWriter u w).sinkNameOf v = s.sinkNameOf v := by simp [State.sinkNameOf_eq]

@[simp] theorem State.sinkNameOf_afterPush (s : State) (u : UnitId) (b : Byte) (a : SinkResp) (v : UnitId) :
    (s.afterPush u b a).sinkNameOf v = s.sinkNameOf v := by simp [State.sinkNameOf_eq]

/-! ### A reader's pulls and moves -/

/-- A pull takes the oldest byte of the unit's store, where it has one (R60). -/
theorem State.storeOf_afterPull (s : State) (u : UnitId) (a : SrcResp) :
    (s.afterPull u a).storeOf u = (s.storeOf u).map List.tail := by
  cases hl : s.storeOf u with
  | some l => simp [State.afterPull_store hl, hl]
  | none =>
    obtain ⟨k, -, h⟩ | ⟨l, hl', -⟩ | ⟨-, h⟩ := s.afterPull_cases u a
    · simp [h, hl]
    · simp [hl] at hl'
    · simp [h, hl]

theorem readStable_unitAt_other {u v : UnitId} (hv : v ≠ u) (x : Option BitUnit) :
    ReadStable u (fun s => s.unitAt v = x) where
  pull s a h := (s.unitAt_afterPull_other hv a).trans h
  move s _ r' h _ _ := (s.unitAt_setReader_other hv r').trans h

theorem readStable_sinks (u : UnitId) (x : Table Sink) : ReadStable u (fun s => s.sinks = x) where
  pull s a h := (s.sinks_afterPull u a).trans h
  move _ _ _ h _ _ := h

theorem readStable_source_other (u : UnitId) (k : StreamName) (x : Source) :
    ReadStable u (fun s => s.sourceNameOf u ≠ some k ∧ s.source k = x) where
  pull s a h := ⟨by simpa using h.1, (s.source_afterPull_other h.1 a).trans h.2⟩
  move _ _ _ h _ _ := ⟨by simpa using h.1, h.2⟩

/-- What a reader leaves of its unit's store is the store without some bytes at its front. -/
theorem readStable_storeOf_drop (u : UnitId) (x : Option (List Byte)) :
    ReadStable u (fun s => ∃ n, s.storeOf u = x.map (List.drop n)) where
  pull s a h := by
    obtain ⟨n, hn⟩ := h
    exact ⟨n + 1, by simp [State.storeOf_afterPull, hn, Function.comp_def]⟩
  move s _ _ h _ _ := by simpa using h

theorem unitAt_of_readerCommand {i : Instr} {s t : State} (hi : readerCommand i = true) (h : exec i s = .next t)
    {v : UnitId} (hv : v ≠ s.unit) : t.unitAt v = s.unitAt v :=
  next_of_readerCommand (readStable_unitAt_other hv _) (fun s' h' => (s'.unitAt_setReader_other hv _).trans h')
    (fun _ _ h' => h') rfl hi h

theorem sinks_of_readerCommand {i : Instr} {s t : State} (hi : readerCommand i = true) (h : exec i s = .next t) :
    t.sinks = s.sinks :=
  next_of_readerCommand (readStable_sinks _ _) (fun _ h' => h') (fun _ _ h' => h') rfl hi h

theorem source_of_readerCommand {i : Instr} {s t : State} (hi : readerCommand i = true) (h : exec i s = .next t)
    {k : StreamName} (hk : s.sourceNameOf s.unit ≠ some k) : t.source k = s.source k :=
  (next_of_readerCommand (readStable_source_other _ k _) (fun _ h' => ⟨by simpa using h'.1, h'.2⟩) (fun _ _ h' => h')
    ⟨hk, rfl⟩ hi h).2

theorem storeOf_of_readerCommand {i : Instr} {s t : State} (hi : readerCommand i = true) (h : exec i s = .next t) :
    ∃ n, t.storeOf s.unit = (s.storeOf s.unit).map (List.drop n) :=
  next_of_readerCommand (readStable_storeOf_drop _ _) (fun _ h' => by simpa using h') (fun _ _ h' => h')
    ⟨0, by cases s.storeOf s.unit <;> rfl⟩ hi h

/-- Settles O41: pulls and reader moves leave each part by itself, and the command port is as after every command. -/
theorem readerCommandFrame : Obligations.ReaderCommandFrame := by
  intro i s t hi h
  obtain ⟨hresults, hcommands, hunit⟩ := everyCommandAnswersOnce i s t h
  exact ⟨fun _ hv => unitAt_of_readerCommand hi h hv, writerOf_of_readerCommand hi h s.unit, sinks_of_readerCommand hi h,
    fun _ hk => source_of_readerCommand hi h hk, storeOf_of_readerCommand hi h, hcommands, hunit, hresults⟩

/-! ### A writer's pushes and moves -/

/-- A push gives the unit's store a newest byte, where it has one (R61). -/
theorem State.storeOf_afterPush (s : State) (u : UnitId) (b : Byte) (a : SinkResp) :
    (s.afterPush u b a).storeOf u = (s.storeOf u).map (· ++ [b]) := by
  cases hl : s.storeOf u with
  | some l => simp [(State.push_of_store hl b).2, hl]
  | none =>
    obtain ⟨k, -, h⟩ | ⟨l, hl', -⟩ | ⟨-, h⟩ := s.afterPush_cases u b a
    · simp [h, hl]
    · simp [hl] at hl'
    · simp [h, hl]

theorem writeStable_unitAt_other {u v : UnitId} (hv : v ≠ u) (x : Option BitUnit) :
    WriteStable u (fun s => s.unitAt v = x) where
  push s b a h := (s.unitAt_afterPush_other hv b a).trans h
  move s _ w' h _ _ := (s.unitAt_setWriter_other hv w').trans h

theorem writeStable_sources (u : UnitId) (x : Table Source) : WriteStable u (fun s => s.sources = x) where
  push s b a h := (s.sources_afterPush u b a).trans h
  move _ _ _ h _ _ := h

theorem writeStable_sink_other (u : UnitId) (k : StreamName) (x : Sink) :
    WriteStable u (fun s => s.sinkNameOf u ≠ some k ∧ s.sink k = x) where
  push s b a h := ⟨by simpa using h.1, (s.sink_afterPush_other h.1 b a).trans h.2⟩
  move _ _ _ h _ _ := ⟨by simpa using h.1, h.2⟩

/-- What a writer leaves of its unit's store is the store with some bytes more at its back. -/
theorem writeStable_storeOf_append (u : UnitId) (x : Option (List Byte)) :
    WriteStable u (fun s => ∃ l, s.storeOf u = x.map (· ++ l)) where
  push s b a h := by
    obtain ⟨l, hl⟩ := h
    exact ⟨l ++ [b], by simp [State.storeOf_afterPush, hl, Function.comp_def]⟩
  move s _ _ h _ _ := by simpa using h

theorem unitAt_of_writerCommand {i : Instr} {s t : State} (hi : writerCommand i = true) (h : exec i s = .next t)
    {v : UnitId} (hv : v ≠ s.unit) : t.unitAt v = s.unitAt v :=
  next_of_writerCommand (writeStable_unitAt_other hv _) (fun _ _ h' => h') rfl hi h

theorem sources_of_writerCommand {i : Instr} {s t : State} (hi : writerCommand i = true) (h : exec i s = .next t) :
    t.sources = s.sources :=
  next_of_writerCommand (writeStable_sources _ _) (fun _ _ h' => h') rfl hi h

theorem sink_of_writerCommand {i : Instr} {s t : State} (hi : writerCommand i = true) (h : exec i s = .next t)
    {k : StreamName} (hk : s.sinkNameOf s.unit ≠ some k) : t.sink k = s.sink k :=
  (next_of_writerCommand (writeStable_sink_other _ k _) (fun _ _ h' => h') ⟨hk, rfl⟩ hi h).2

theorem storeOf_of_writerCommand {i : Instr} {s t : State} (hi : writerCommand i = true) (h : exec i s = .next t) :
    ∃ l, t.storeOf s.unit = (s.storeOf s.unit).map (· ++ l) :=
  next_of_writerCommand (writeStable_storeOf_append _ _) (fun _ _ h' => h') ⟨[], by simp⟩ hi h

/-- Settles O42: pushes and writer moves leave each part by itself, and the command port is as after every command. -/
theorem writerCommandFrame : Obligations.WriterCommandFrame := by
  intro i s t hi h
  obtain ⟨hresults, hcommands, hunit⟩ := everyCommandAnswersOnce i s t h
  exact ⟨fun _ hv => unitAt_of_writerCommand hi h hv, readerOf_of_writerCommand hi h s.unit,
    sources_of_writerCommand hi h, fun _ hk => sink_of_writerCommand hi h hk, storeOf_of_writerCommand hi h, hcommands,
    hunit, hresults⟩

end Sys2Proof.Machine
end

section
/-!
PROOFS. COPY and BRESET (R198 to R201, R205): each leaves one buffer with fresh registers, and nothing else changes.
-/

namespace Sys2Proof.Machine

/-! ### One unit written as a whole -/

/-- Two changes that agree on the entry of `k` make the same table. -/
theorem Table.modify_congr {α : Type} {k : BitVec 16} {x : α} {t : Table α} {f g : α → α}
    (hx : Table.find k t = some x) (h : f x = g x) : Table.modify k f t = Table.modify k g t := by
  induction t with
  | nil => rfl
  | cons e t ih =>
    obtain ⟨k', v⟩ := e
    by_cases hk : k = k'
    · simp only [Table.find, hk, if_true, Option.some.injEq] at hx
      simp [Table.modify, hk, hx, h]
    · simp only [Table.find, hk, if_false] at hx
      simp [Table.modify, hk, ih hx]

theorem State.updateUnit_congr {s : State} {u : UnitId} {x : BitUnit} {f g : BitUnit → BitUnit}
    (hx : s.unitAt u = some x) (h : f x = g x) : s.updateUnit u f = s.updateUnit u g := by
  rw [State.updateUnit, State.updateUnit, Table.modify_congr hx h]

theorem State.updateUnit_updateUnit (s : State) (u : UnitId) (f g : BitUnit → BitUnit) :
    (s.updateUnit u g).updateUnit u f = s.updateUnit u (f ∘ g) := by
  simp [State.updateUnit, Table.modify_modify_same]

/-! ### COPY -/

theorem copyStore_eq {b p : UnitId} {s : State} {l l' : List Byte} {r' : Reader} {w' : Writer}
    (hb : s.storeOf b = some l) (hp : s.unitAt p = some (.buffer l' r' w')) :
    copyStore b p s = .done ⟨⟩ (s.updateUnit p fun _ => .buffer l Reader.fresh Writer.fresh) := by
  simp only [copyStore, hb, State.setStore, State.setReader, State.setWriter, State.updateUnit_updateUnit]
  rw [State.updateUnit_congr hp]
  rfl

theorem exec_copy {s : State} {p : UnitId} (hp : p ≠ s.unit) (hb : s.kindOf s.unit = some .buffer)
    (hk : s.kindOf p = some .buffer) : exec (.copy p) s = concludeVoid (copyStore s.unit p s) :=
  State.ifLegal_legal ((s.Legal_iff (.copy p)).mp
    ⟨⟨.buffer, List.mem_singleton_self _, hb⟩, hp, .buffer, List.mem_singleton_self _, hk⟩) _

/-- Settles O21: the three writes of COPY replace the whole peer. -/
theorem copyResult : Obligations.CopyResult := by
  intro s p l l' r r' w w' hne hb hp
  have hexec := exec_copy hne (by simp [State.kindOf, hb, BitUnit.kind]) (by simp [State.kindOf, hp, BitUnit.kind])
  rw [copyStore_eq (l := l) (by simp [State.storeOf, hb, BitUnit.store?]) hp] at hexec
  refine ⟨_, hexec, rfl, ?_, ?_⟩
  · simp [hp, Reader.fresh, Writer.fresh]
  · rw [State.unitAt_answer, State.unitAt_updateUnit_other s hne.symm]

/-! ### BRESET -/

theorem clearStable_samePort (u : UnitId) (s : State) : ClearStable u s.samePort where
  store _ _ h := h
  reader _ h := h
  writer _ h := h

theorem resetBuffer_onPort (u v : UnitId) (rs : List Result) (s : State) :
    resetBuffer u (s.onPort v rs) = (resetBuffer u s).mapState (·.onPort v rs) := by
  rw [resetBuffer, flush_commutes (writeCommutes_onPort u v rs)]
  exact Act.bind_mapState _ fun _ _ => rfl

theorem issue_breset {u : UnitId} {s : State} {l : List Byte} {r : Reader} {w : Writer}
    (h : s.unitAt u = some (.buffer l r w)) :
    issue u .breset s = (resetBuffer u s).bind fun _ t => .done 0 t := by
  refine issue_void ?_ (resetBuffer_all (writeStable_samePort u s) (clearStable_samePort u s) s.samePort_refl)
  rw [exec_breset (s := s.onPort u []) h]
  exact congrArg concludeVoid (resetBuffer_onPort u u [] s)

/-- An aligned writer that meets its invariant is a new one. -/
theorem Writer.eq_fresh {w : Writer} (hok : w.ok = true) (h8 : w.count = 8#4) : w = Writer.fresh :=
  Writer.eq_of_bits hok Writer.ok_fresh (by rw [bits_aligned_writer h8, bits_fresh_writer])

/-- On a buffer whose writer meets its invariant BRESET makes the unit a new buffer: the byte its FLUSH may push goes to
the store, which is emptied (R205). -/
theorem resetBuffer_of_buffer {u : UnitId} {s : State} {l : List Byte} {r : Reader} {w : Writer}
    (h : s.unitAt u = some (.buffer l r w)) (hok : w.ok = true) :
    resetBuffer u s = .done ⟨⟩ (s.updateUnit u fun _ => .buffer [] Reader.fresh Writer.fresh) := by
  have hw : s.writerOf u = some w := by simp [State.writerOf, h, BitUnit.writer?]
  have hl : s.storeOf u = some l := by simp [State.storeOf, h, BitUnit.store?]
  by_cases h8 : w.count = 8#4
  · obtain rfl := Writer.eq_fresh hok h8
    simp only [resetBuffer, flush_aligned hw h8, Act.bind, State.setStore, State.setReader, State.updateUnit_updateUnit]
    rw [State.updateUnit_congr h]
    rfl
  · obtain ⟨h1, hhi⟩ := (Writer.countLegal_iff w).mp (Writer.ok_countLegal hok)
    have hne : w.count.toNat ≠ 8 := by simpa using count_ne.mp h8
    obtain ⟨hack, hpush⟩ := State.push_of_store hl w.pending
    have hflush := flushLoop_answered 8 hw h1 (by omega) (by omega) hack
    simp only [resetBuffer, flush, hflush, Act.bind, hpush, State.setStore, State.setReader, State.setWriter,
      State.updateUnit_updateUnit]
    rw [State.updateUnit_congr h]
    rfl

/-- Settles O22: called by another command, FLUSH does not see the command port, and after it BRESET only writes an
empty store and a new reader. -/
theorem bresetResult : Obligations.BresetResult := by
  refine ⟨fun data peer nb => decoderFollowsTheOpcodeMap data peer nb 0x24#8, fun s l r w h => ⟨?_, fun hok => ?_⟩⟩
  · rw [issue_breset h, issue_flush (w := w) (by simp [State.writerOf, h, BitUnit.writer?]), resetBuffer,
      Act.bind_assoc, Act.bind_assoc]
    rfl
  · refine ⟨_, by rw [exec_breset h, resetBuffer_of_buffer h hok]; rfl, rfl, ?_⟩
    rw [State.unitAt_answer, State.unitAt_updateUnit_same, h]
    rfl

/-! ### Frames -/

@[simp] theorem State.sinkNameOf_setStore (s : State) (u : UnitId) (l : List Byte) (v : UnitId) :
    (s.setStore u l).sinkNameOf v = s.sinkNameOf v := by simp [State.sinkNameOf_eq]

@[simp] theorem State.sinkNameOf_setReader (s : State) (u : UnitId) (r : Reader) (v : UnitId) :
    (s.setReader u r).sinkNameOf v = s.sinkNameOf v := by simp [State.sinkNameOf_eq]

/-- A unit bound to no external sink pushes to none. -/
theorem State.sinks_afterPush_of_no_name {s : State} {u : UnitId} (h : s.sinkNameOf u = none) (b : Byte)
    (a : SinkResp) : (s.afterPush u b a).sinks = s.sinks := by
  obtain ⟨k, hk, -⟩ | ⟨l, -, h'⟩ | ⟨-, h'⟩ := s.afterPush_cases u b a
  · simp [h] at hk
  · simp [h']
  · simp [h']

theorem writeStable_sinks_of_no_name (u : UnitId) (x : Table Sink) :
    WriteStable u (fun s => s.sinkNameOf u = none ∧ s.sinks = x) where
  push s b a h := ⟨by simpa using h.1, (s.sinks_afterPush_of_no_name h.1 b a).trans h.2⟩
  move _ _ _ h _ _ := ⟨by simpa using h.1, h.2⟩

theorem State.sinkNameOf_of_buffer {s : State} {u : UnitId} (h : s.kindOf u = some .buffer) :
    s.sinkNameOf u = none := by
  obtain ⟨l, r, w, hx⟩ := State.unitAt_of_buffer h rfl
  simp [State.sinkNameOf, hx]

theorem clearStable_unitAt_other {u v : UnitId} (hv : v ≠ u) (x : Option BitUnit) :
    ClearStable u (fun s => s.unitAt v = x) where
  store s l h := (s.unitAt_setStore_other hv l).trans h
  reader s h := (s.unitAt_setReader_other hv _).trans h
  writer s h := (s.unitAt_setWriter_other hv _).trans h

theorem clearStable_streams (u : UnitId) (x : Table Source) (y : Table Sink) :
    ClearStable u (fun s => s.sources = x ∧ s.sinks = y) where
  store _ _ h := h
  reader _ h := h
  writer _ h := h

/-- An illegal command that answers has done nothing else (R85). -/
theorem eq_raise_of_illegal {i : Instr} {s t : State} (hi : ¬ s.Legal i) (h : exec i s = .next t) :
    t = s.raise Failure.illegal :=
  Host.Outcome.next.inj (h.symm.trans (illegalCommandsHaveNoEffect s i hi))

theorem kindOf_of_issuedTo_buffer {s : State} (h : s.issuedTo [.buffer]) : s.kindOf s.unit = some .buffer := by
  obtain ⟨k, hk, hkind⟩ := h
  rwa [List.mem_singleton.mp hk] at hkind

theorem sources_of_breset {s t : State} (h : exec .breset s = .next t) : t.sources = s.sources := by
  obtain ⟨s', r, hs', rfl⟩ := exec_next (i := .breset) (Q := fun s' => s'.sources = s.sources)
    ⟨writeStable_sources _ _, fun _ _ h' => h', fun _ h' => h', fun _ h' => h'⟩ rfl h
  exact hs'

theorem unitAt_of_breset {s t : State} (h : exec .breset s = .next t) {v : UnitId} (hv : v ≠ s.unit) :
    t.unitAt v = s.unitAt v := by
  obtain ⟨s', r, hs', rfl⟩ := exec_next (i := .breset) (Q := fun s' => s'.unitAt v = s.unitAt v)
    ⟨writeStable_unitAt_other hv _, clearStable_unitAt_other hv _⟩ rfl h
  exact hs'

/-- The FLUSH of a BRESET pushes to the buffer's own store, if at all (R181, R205). -/
theorem sinks_of_breset {s t : State} (h : exec .breset s = .next t) : t.sinks = s.sinks := by
  by_cases hlegal : s.Legal .breset
  · have hname := State.sinkNameOf_of_buffer (kindOf_of_issuedTo_buffer hlegal)
    have hclear : ClearStable s.unit (fun s' => s'.sinkNameOf s.unit = none ∧ s'.sinks = s.sinks) :=
      ⟨fun _ _ h' => by simpa using h', fun _ h' => by simpa using h', fun _ h' => by simpa using h'⟩
    obtain ⟨s', r, ⟨-, hs'⟩, rfl⟩ := exec_next (i := .breset) ⟨writeStable_sinks_of_no_name _ _, hclear⟩ ⟨hname, rfl⟩ h
    exact hs'
  · rw [eq_raise_of_illegal hlegal h, State.sinks_raise]

/-- Settles O44: COPY writes its peer and BRESET its own unit, and neither leaves the stores of the units. -/
theorem copyAndBresetFrame : Obligations.CopyAndBresetFrame := by
  refine fun s t => ⟨fun p h => ?_, fun h => ?_⟩ <;>
    obtain ⟨hresults, hcommands, hunit⟩ := everyCommandAnswersOnce _ s t h
  · refine ⟨fun v hv => ?_, ?_⟩
    · obtain ⟨s', r, hs', rfl⟩ := exec_next (i := .copy p) (clearStable_unitAt_other hv (s.unitAt v)) rfl h
      exact hs'
    · obtain ⟨s', r, ⟨hsources, hsinks⟩, rfl⟩ := exec_next (i := .copy p) (clearStable_streams p _ _) ⟨rfl, rfl⟩ h
      exact ⟨hsources, hsinks, hcommands, hunit, hresults⟩
  · exact ⟨fun v hv => unitAt_of_breset h hv, sources_of_breset h, sinks_of_breset h, hcommands, hunit, hresults⟩

end Sys2Proof.Machine
end

section
/-!
PROOFS. READFROM and WRITETO are their pseudocode over the commands of the two units (R185 to R187, R190, R191).
-/

namespace Sys2Proof.Machine

/-- The source of a transfer has a reader and its target a writer. -/
def State.hasHalves (src dst : UnitId) (s : State) : Prop := s.hasReader src ∧ s.hasWriter dst

theorem readStable_hasHalves (src dst : UnitId) : ReadStable src (State.hasHalves src dst) where
  pull s a h := ⟨(readStable_hasReader src).pull s a h.1, by simpa [State.hasWriter] using h.2⟩
  move s r r' h hr hm := ⟨(readStable_hasReader src).move s r r' h.1 hr hm, by simpa [State.hasWriter] using h.2⟩

theorem writeStable_hasHalves (src dst : UnitId) : WriteStable dst (State.hasHalves src dst) where
  push s b a h := ⟨by simpa [State.hasReader] using h.1, (writeStable_hasWriter dst).push s b a h.2⟩
  move s w w' h hw hm := ⟨by simpa [State.hasReader] using h.1, (writeStable_hasWriter dst).move s w w' h.2 hw hm⟩

/-- What follows a step without failing does not see the context of its failures. -/
theorem Act.inContext_bind_done {α β : Type} (c : Ctx) (x : Act α) (f : α → β) :
    (x.bind fun a s => .done (f a) s).inContext c = (x.inContext c).bind fun a s => .done (f a) s := by
  cases x <;> rfl

/-- The loop over READBYTE and WRITEBYTE is the byte phase (R185, R190). -/
theorem pseudoTransferBytes_eq (rc wc : Ctx) {src dst : UnitId} (k : Nat) {s : State} (hs : s.hasHalves src dst) :
    pseudoTransferBytes rc wc src dst k s = (transferBytes rc wc src dst k s).bind fun _ t => .done 0 t := by
  induction k generalizing s with
  | zero => rfl
  | succ k ih =>
    have ⟨⟨r, hr⟩, _⟩ := hs
    rw [pseudoTransferBytes, transferBytes, issue_readbyte hr, Act.inContext_bind_done, Act.bind_assoc, Act.bind_assoc]
    refine Act.bind_congr (Act.all_inContext rc (readByte_all (readStable_hasHalves src dst) hs)) fun b t ht => ?_
    have ⟨_, w, hw⟩ := ht
    rw [Act.bind, setWidth_byteValue, issue_writebyte hw, Act.inContext_bind_done, Act.bind_assoc, Act.bind_assoc]
    exact Act.bind_congr (Act.all_inContext wc (writeByte_all (writeStable_hasHalves src dst) b ht))
      fun _ t' ht' => ih ht'

/-- The READBITS and WRITEBITS after the loop are the final chunk (R186). -/
theorem pseudoTransfer_eq (rc wc : Ctx) {src dst : UnitId} (n : Nat) {s : State} (hs : s.hasHalves src dst) :
    pseudoTransfer rc wc src dst n s = (transfer rc wc src dst n s).bind fun _ t => .done 0 t := by
  have hn : (BitVec.ofNat 8 (n % 8)).toNat = n % 8 := by rw [BitVec.toNat_ofNat]; omega
  rw [pseudoTransfer, transfer, pseudoTransferBytes_eq rc wc _ hs, Act.bind_assoc, Act.bind_assoc]
  refine Act.bind_congr (transferBytes_all (readStable_hasHalves src dst) (writeStable_hasHalves src dst) rc wc _ hs)
    fun _ t ht => ?_
  have ⟨⟨r, hr⟩, _⟩ := ht
  rw [Act.bind, transferChunk]
  split
  · rfl
  · rw [issue_readbits hr (by omega), Act.bind_assoc, hn]
    refine Act.bind_congr (Act.all_inContext rc (readBits_all (readStable_hasHalves src dst) _ ht)) fun v t' ht' => ?_
    have ⟨_, w, hw⟩ := ht'
    rw [issue_writebits hw v (by omega), Act.inContext_bind_done, hn]

/-! ### Legality of a transfer -/

theorem State.legal_peer_iff {s : State} {i : Instr} {p : UnitId} {demand : UnitKind → Bool}
    (ha : ∀ k, accepts k i = isBuffer k) (hi : WellFormed i = true) (hd : peerDemand i = some (p, demand)) :
    s.Legal i ↔ p ≠ s.unit ∧ s.kindOf s.unit = some .buffer ∧ ∃ k, s.kindOf p = some k ∧ demand k = true := by
  have hbuffer : ∀ k, isBuffer k = true ↔ k = .buffer := by rintro (_ | _ | _ | _) <;> simp [isBuffer]
  rw [State.Legal_iff, State.legal_iff, State.peerLegal, hd]
  cases hp : s.kindOf p <;> simp [ha, hi, hbuffer, hp, and_left_comm]

theorem State.legal_readfrom_iff {s : State} {p : UnitId} {n : U64} :
    s.Legal (.readfrom p n) ↔ p ≠ s.unit ∧ s.kindOf s.unit = some .buffer ∧ s.hasReader p := by
  rw [State.legal_peer_iff (fun _ => rfl) rfl rfl]
  exact and_congr_right fun _ => and_congr_right fun _ =>
    ⟨fun ⟨_, hk, hr⟩ => State.readerOf_of_kind hk hr, fun ⟨_, hr⟩ => State.readable_of_readerOf hr⟩

theorem State.legal_writeto_iff {s : State} {p : UnitId} {n : U64} :
    s.Legal (.writeto p n) ↔ p ≠ s.unit ∧ s.kindOf s.unit = some .buffer ∧ s.hasWriter p := by
  rw [State.legal_peer_iff (fun _ => rfl) rfl rfl]
  exact and_congr_right fun _ => and_congr_right fun _ =>
    ⟨fun ⟨_, hk, hw⟩ => State.writerOf_of_kind hk hw, fun ⟨_, hw⟩ => State.writable_of_writerOf hw⟩

theorem exec_readfrom {s : State} {p : UnitId} {n : U64} (h : s.Legal (.readfrom p n)) :
    exec (.readfrom p n) s = concludeVoid (transfer .readFromSource .writeToBuffer p s.unit n.toNat s) :=
  State.ifLegal_legal ((s.Legal_iff _).mp h) _

theorem exec_writeto {s : State} {p : UnitId} {n : U64} (h : s.Legal (.writeto p n)) :
    exec (.writeto p n) s = concludeVoid (transfer .readFromBuffer .writeToSink s.unit p n.toNat s) :=
  State.ifLegal_legal ((s.Legal_iff _).mp h) _

/-- Settles O25: a legal READFROM has a peer with a reader, and its own unit, a BUFFER, has a writer. -/
theorem readFromIsItsPseudocode : Obligations.ReadFromIsItsPseudocode := by
  intro s p n hlegal
  obtain ⟨-, hbuffer, hreader⟩ := State.legal_readfrom_iff.mp hlegal
  rw [exec_readfrom hlegal, pseudoTransfer_eq _ _ _ ⟨hreader, State.writerOf_of_kind hbuffer rfl⟩, concludeVoid]

/-- Settles O26: a legal WRITETO has a peer with a writer, and its own unit, a BUFFER, has a reader. -/
theorem writeToIsItsPseudocode : Obligations.WriteToIsItsPseudocode := by
  intro s p n hlegal
  obtain ⟨-, hbuffer, hwriter⟩ := State.legal_writeto_iff.mp hlegal
  rw [exec_writeto hlegal, pseudoTransfer_eq _ _ _ ⟨State.readerOf_of_kind hbuffer rfl, hwriter⟩, concludeVoid]

end Sys2Proof.Machine
end

section
/-!
PROOFS. The transfers as moves of bits from one stream to the other (R64, R185, R190), and a transfer past the end of
its stream (R188, R192).
-/

namespace Sys2Proof.Machine

/-- A transfer leaves the command port alone. -/
theorem transfer_samePort (rc wc : Ctx) (src dst : UnitId) (n : Nat) (s : State) :
    (transfer rc wc src dst n s).All s.samePort :=
  transfer_all (readStable_samePort src s) (writeStable_samePort dst s) rc wc n s.samePort_refl

theorem legal_readfrom_of_ok {s : State} {p : UnitId} (n : U64) (hp : p ≠ s.unit) (hb : s.kindOf s.unit = some .buffer)
    (hr : s.readerOk p) : s.Legal (.readfrom p n) :=
  State.legal_readfrom_iff.mpr ⟨hp, hb, hr.imp fun _ h => h.1⟩

theorem legal_writeto_of_ok {s : State} {p : UnitId} (n : U64) (hp : p ≠ s.unit) (hb : s.kindOf s.unit = some .buffer)
    (hw : s.writerOk p) : s.Legal (.writeto p n) :=
  State.legal_writeto_iff.mpr ⟨hp, hb, hw.1.imp fun _ h => h.1⟩

/-- A command that is a transfer with its bits ahead moves exactly them and answers `Ok(0)`. -/
theorem exec_of_transfer_stream {s : State} {i : Instr} {rc wc : Ctx} {src dst : UnitId} {n : Nat} (hne : src ≠ dst)
    (hexec : exec i s = concludeVoid (transfer rc wc src dst n s)) (hr : s.readerOk src) (hw : s.writerOk dst)
    (hlen : n ≤ (s.bitsAhead src).length) :
    ∃ l t, exec i s = .next t ∧ t.results = s.results ++ [.ok 0] ∧ l.length = n ∧
      s.bitsAhead src = l ++ t.bitsAhead src ∧ t.bitsWritten dst = s.bitsWritten dst ++ l ∧ t.readerOk src ∧
      t.writerOk dst := by
  obtain ⟨l, t, hx, hrest⟩ := transfer_stream (rc := rc) (wc := wc) hne n hr hw hlen
  obtain ⟨hnext, hres⟩ := exec_of_done_void hexec hx (transfer_samePort rc wc src dst n s)
  exact ⟨l, _, hnext, hres, hrest⟩

/-- Settles O31: READFROM is the transfer from the peer to the buffer. -/
theorem readFromMovesTheStream : Obligations.ReadFromMovesTheStream :=
  fun _ _ n hp hb hw hr hlen => exec_of_transfer_stream hp (exec_readfrom (legal_readfrom_of_ok n hp hb hr)) hr hw hlen

/-- Settles O32: WRITETO is the transfer from the buffer to the peer. -/
theorem writeToMovesTheStream : Obligations.WriteToMovesTheStream :=
  fun _ _ n hp hb hr hw hlen =>
    exec_of_transfer_stream hp.symm (exec_writeto (legal_writeto_of_ok n hp hb hw)) hr hw hlen

/-- A command without data whose steps fail, the command port left alone on the way, answers the failure. -/
theorem exec_of_fail_void {s t : State} {i : Instr} {x : Act PUnit} {e : Failure} (he : exec i s = concludeVoid x)
    (hx : x = .fail e t) (hall : x.All s.samePort) :
    exec i s = .next (t.raise e) ∧ (t.raise e).results = s.results ++ [.fail e] :=
  exec_of_fail he (by rw [hx]; rfl) (Act.all_bind hall fun _ _ h => h)

/-- A command that is a transfer of more bits than are ahead of an end of input: where it lacks the last bit of its
final chunk that chunk arrives after a zero bit, and otherwise it fails in the context of the read. -/
theorem exec_of_transfer_at_end {s : State} {i : Instr} {rc wc : Ctx} {src dst : UnitId} {n : Nat} (hne : src ≠ dst)
    (hexec : exec i s = concludeVoid (transfer rc wc src dst n s)) (hr : s.readerOk src) (hw : s.writerOk dst)
    (hlen : (s.bitsAhead src).length < n) (hend : s.thenAnswers src = some .eof) :
    ∃ t, exec i s = .next t ∧
      if n = (s.bitsAhead src).length + 1 ∧ n % 8 ≠ 0 then
        t.results = s.results ++ [.ok 0] ∧
        t.bitsWritten dst = s.bitsWritten dst ++ (s.bitsAhead src).take (n / 8 * 8) ++
          false :: (s.bitsAhead src).drop (n / 8 * 8)
      else t.results = s.results ++ [.fail ⟨.eof, rc, 0#16⟩] := by
  obtain ⟨t, ht⟩ := transfer_at_end (rc := rc) (wc := wc) hne n hr hw hlen hend
  have hport := transfer_samePort rc wc src dst n s
  split at ht
  · obtain ⟨hx, hbits⟩ := ht
    obtain ⟨hnext, hres⟩ := exec_of_done_void hexec hx hport
    exact ⟨_, hnext, by rw [if_pos ‹_›]; exact ⟨hres, hbits⟩⟩
  · obtain ⟨hnext, hres⟩ := exec_of_fail_void hexec ht hport
    exact ⟨_, hnext, by rw [if_neg ‹_›]; exact hres⟩

/-- A store answers `Eof` once it is empty (R60). -/
theorem State.thenAnswers_of_buffer {s : State} {u : UnitId} (h : s.kindOf u = some .buffer) :
    s.thenAnswers u = some .eof := by
  obtain ⟨l, r, w, hx⟩ := State.unitAt_of_buffer h rfl
  simp [State.thenAnswers, hx]

/-- Settles O33: both transfers meet the end of input on the side they read. -/
theorem transferAtTheEndOfTheStream : Obligations.TransferAtTheEndOfTheStream :=
  fun _ _ n hp hb =>
    ⟨fun hw hr hlen hend =>
      exec_of_transfer_at_end hp (exec_readfrom (legal_readfrom_of_ok n hp hb hr)) hr hw hlen hend,
     fun hr hw hlen =>
      exec_of_transfer_at_end hp.symm (exec_writeto (legal_writeto_of_ok n hp hb hw)) hr hw hlen
        (State.thenAnswers_of_buffer hb)⟩

end Sys2Proof.Machine
end

section
/-!
PROOFS. The frame of the transfers (R185, R190, R237): the reads of one unit leave what belongs to the other's writer,
the writes to that one leave what belongs to the first one's reader, and neither reaches a third.
-/

namespace Sys2Proof.Machine

/-! ### What the moves of one unit leave of another -/

/-- What is told by the unit `dst` and the sinks, the reads of another unit keep. -/
theorem readStable_of_sameWritten {src dst : UnitId} (h : dst ≠ src) {Q : State → Prop}
    (hQ : ∀ s t, SameWritten dst s t → Q s → Q t) : ReadStable src Q where
  pull s a hs := hQ s _ ((sameWritten_readStable h s).pull s a ⟨rfl, rfl⟩) hs
  move s r r' hs hr hm := hQ s _ ((sameWritten_readStable h s).move s r r' ⟨rfl, rfl⟩ hr hm) hs

/-- What is told by the unit `src` and the sources, the writes to another unit keep. -/
theorem writeStable_of_sameAhead {src dst : UnitId} (h : src ≠ dst) {Q : State → Prop}
    (hQ : ∀ s t, SameAhead src s t → Q s → Q t) : WriteStable dst Q where
  push s b a hs := hQ s _ ((sameAhead_writeStable h s).push s b a ⟨rfl, rfl⟩) hs
  move s w w' hs hw hm := hQ s _ ((sameAhead_writeStable h s).move s w w' ⟨rfl, rfl⟩ hw hm) hs

theorem SameWritten.sinkNameOf {u : UnitId} {s t : State} (h : SameWritten u s t) :
    t.sinkNameOf u = s.sinkNameOf u := by rw [State.sinkNameOf, h.1, State.sinkNameOf]

theorem SameWritten.readerOf {u : UnitId} {s t : State} (h : SameWritten u s t) : t.readerOf u = s.readerOf u := by
  rw [State.readerOf, h.1, State.readerOf]

theorem SameWritten.storeOf {u : UnitId} {s t : State} (h : SameWritten u s t) : t.storeOf u = s.storeOf u := by
  rw [State.storeOf, h.1, State.storeOf]

theorem SameWritten.sink {u : UnitId} {s t : State} (h : SameWritten u s t) (k : StreamName) : t.sink k = s.sink k := by
  rw [State.sink, h.2, State.sink]

theorem SameAhead.sourceNameOf {u : UnitId} {s t : State} (h : SameAhead u s t) :
    t.sourceNameOf u = s.sourceNameOf u := by rw [State.sourceNameOf, h.1, State.sourceNameOf]

theorem SameAhead.writerOf {u : UnitId} {s t : State} (h : SameAhead u s t) : t.writerOf u = s.writerOf u := by
  rw [State.writerOf, h.1, State.writerOf]

theorem SameAhead.storeOf {u : UnitId} {s t : State} (h : SameAhead u s t) : t.storeOf u = s.storeOf u := by
  rw [State.storeOf, h.1, State.storeOf]

theorem SameAhead.source {u : UnitId} {s t : State} (h : SameAhead u s t) (k : StreamName) :
    t.source k = s.source k := by rw [State.source, h.2, State.source]

/-- A unit bound to no external source pulls from none. -/
theorem State.sources_afterPull_of_no_name {s : State} {u : UnitId} (h : s.sourceNameOf u = none) (a : SrcResp) :
    (s.afterPull u a).sources = s.sources := by
  obtain ⟨k, hk, -⟩ | ⟨l, -, h'⟩ | ⟨-, h'⟩ := s.afterPull_cases u a
  · simp [h] at hk
  · simp [h']
  · simp [h']

theorem readStable_sources_of_no_name (u : UnitId) (x : Table Source) :
    ReadStable u (fun s => s.sourceNameOf u = none ∧ s.sources = x) where
  pull s a h := ⟨by simpa using h.1, (s.sources_afterPull_of_no_name h.1 a).trans h.2⟩
  move _ _ _ h _ _ := ⟨by simpa using h.1, h.2⟩

theorem State.sourceNameOf_of_buffer {s : State} {u : UnitId} (h : s.kindOf u = some .buffer) :
    s.sourceNameOf u = none := by
  obtain ⟨l, r, w, hx⟩ := State.unitAt_of_buffer h rfl
  simp [State.sourceNameOf, hx]

theorem exists_map_drop {α : Type} (x : Option (List α)) : ∃ n, x = x.map (List.drop n) :=
  ⟨0, by cases x <;> rfl⟩

theorem exists_map_append {α : Type} (x : Option (List α)) : ∃ l, x = x.map (· ++ l) := ⟨[], by simp⟩

/-! ### What a command made of reads of one unit and writes to another keeps -/

section
variable {i : Instr} {s t : State} {src dst : UnitId} (hne : src ≠ dst)
  (hkeeps : ∀ Q, ReadStable src Q → WriteStable dst Q → Keeps s.unit i Q) (h : exec i s = .next t)
include hkeeps h

theorem next_of_reads_and_writes {Q : State → Prop} (hr : ReadStable src Q) (hw : WriteStable dst Q)
    (hanswer : ∀ s' r, Q s' → Q (s'.answer r)) (hs : Q s) : Q t := by
  obtain ⟨s', r, hs', rfl⟩ := exec_next (hkeeps Q hr hw) hs h
  exact hanswer s' r hs'

theorem unitAt_of_third {v : UnitId} (hsrc : v ≠ src) (hdst : v ≠ dst) : t.unitAt v = s.unitAt v :=
  next_of_reads_and_writes hkeeps h (readStable_unitAt_other hsrc _) (writeStable_unitAt_other hdst _)
    (fun _ _ h' => h') rfl

include hne

theorem readerOf_target : t.readerOf dst = s.readerOf dst :=
  next_of_reads_and_writes hkeeps h
    (readStable_of_sameWritten hne.symm fun _ _ hst h' => hst.readerOf.trans h')
    (writeStable_readerOf _ dst _) (fun _ _ h' => h') rfl

theorem writerOf_source : t.writerOf src = s.writerOf src :=
  next_of_reads_and_writes hkeeps h (readStable_writerOf _ src _)
    (writeStable_of_sameAhead hne fun _ _ hst h' => hst.writerOf.trans h') (fun _ _ h' => h') rfl

theorem storeOf_source : ∃ j, t.storeOf src = (s.storeOf src).map (List.drop j) :=
  next_of_reads_and_writes hkeeps h (readStable_storeOf_drop src (s.storeOf src))
    (writeStable_of_sameAhead hne fun _ _ hst h' => hst.storeOf ▸ h') (fun _ _ h' => h') (exists_map_drop _)

theorem storeOf_target : ∃ l, t.storeOf dst = (s.storeOf dst).map (· ++ l) :=
  next_of_reads_and_writes hkeeps h
    (readStable_of_sameWritten hne.symm fun _ _ hst h' => hst.storeOf ▸ h')
    (writeStable_storeOf_append dst (s.storeOf dst)) (fun _ _ h' => h') (exists_map_append _)

theorem source_other {k : StreamName} (hk : s.sourceNameOf src ≠ some k) : t.source k = s.source k :=
  (next_of_reads_and_writes hkeeps h (readStable_source_other src k (s.source k))
    (writeStable_of_sameAhead hne fun _ _ hst h' => ⟨hst.sourceNameOf ▸ h'.1, (hst.source k).trans h'.2⟩)
    (fun _ _ h' => h') ⟨hk, rfl⟩).2

theorem sink_other {k : StreamName} (hk : s.sinkNameOf dst ≠ some k) : t.sink k = s.sink k :=
  (next_of_reads_and_writes hkeeps h
    (readStable_of_sameWritten hne.symm fun _ _ hst h' => ⟨hst.sinkNameOf ▸ h'.1, (hst.sink k).trans h'.2⟩)
    (writeStable_sink_other dst k (s.sink k)) (fun _ _ h' => h') ⟨hk, rfl⟩).2

theorem sources_of_source_without_name (hname : s.sourceNameOf src = none) : t.sources = s.sources :=
  (next_of_reads_and_writes hkeeps h (readStable_sources_of_no_name src s.sources)
    (writeStable_of_sameAhead hne fun _ _ hst h' => ⟨hst.sourceNameOf ▸ h'.1, hst.2.trans h'.2⟩)
    (fun _ _ h' => h') ⟨hname, rfl⟩).2

theorem sinks_of_target_without_name (hname : s.sinkNameOf dst = none) : t.sinks = s.sinks :=
  (next_of_reads_and_writes hkeeps h
    (readStable_of_sameWritten hne.symm fun _ _ hst h' => ⟨hst.sinkNameOf ▸ h'.1, hst.2.trans h'.2⟩)
    (writeStable_sinks_of_no_name dst s.sinks) (fun _ _ h' => h') ⟨hname, rfl⟩).2

end

/-! ### The two transfers -/

/-- Settles O43: a legal transfer reads one unit and writes another, one of the two a BUFFER, which has no external
stream; an illegal one does nothing. -/
theorem transferFrame : Obligations.TransferFrame := by
  refine fun s t p n => ⟨fun h => ?_, fun h => ?_⟩ <;>
    obtain ⟨hresults, hcommands, hunit⟩ := everyCommandAnswersOnce _ s t h
  · by_cases hlegal : s.Legal (.readfrom p n)
    · obtain ⟨hne, hbuffer, -⟩ := State.legal_readfrom_iff.mp hlegal
      have hk : ∀ Q, ReadStable p Q → WriteStable s.unit Q → Keeps s.unit (.readfrom p n) Q := fun _ hr hw => ⟨hr, hw⟩
      exact ⟨fun _ hv hp => unitAt_of_third hk h hp hv, readerOf_target hne hk h, writerOf_source hne hk h,
        sinks_of_target_without_name hne hk h (State.sinkNameOf_of_buffer hbuffer), fun _ => source_other hne hk h,
        fun _ => storeOf_source hne hk h, storeOf_target hne hk h, hcommands, hunit, hresults⟩
    · obtain rfl := eq_raise_of_illegal hlegal h
      exact ⟨fun _ _ _ => rfl, rfl, rfl, rfl, fun _ _ => rfl, fun _ => exists_map_drop _,
        exists_map_append _, hcommands, hunit, hresults⟩
  · by_cases hlegal : s.Legal (.writeto p n)
    · obtain ⟨hne, hbuffer, -⟩ := State.legal_writeto_iff.mp hlegal
      have hk : ∀ Q, ReadStable s.unit Q → WriteStable p Q → Keeps s.unit (.writeto p n) Q := fun _ hr hw => ⟨hr, hw⟩
      exact ⟨fun _ hv hp => unitAt_of_third hk h hv hp, writerOf_source hne.symm hk h, readerOf_target hne.symm hk h,
        sources_of_source_without_name hne.symm hk h (State.sourceNameOf_of_buffer hbuffer),
        fun _ => sink_other hne.symm hk h, fun _ => storeOf_target hne.symm hk h, storeOf_source hne.symm hk h,
        hcommands, hunit, hresults⟩
    · obtain rfl := eq_raise_of_illegal hlegal h
      exact ⟨fun _ _ _ => rfl, rfl, rfl, rfl, fun _ _ => rfl, fun _ => exists_map_append _,
        exists_map_drop _, hcommands, hunit, hresults⟩

end Sys2Proof.Machine
end

section
/-!
PROOFS. With which failures a step can end (R126, R143, R147, R221), and which of them the ports of a BUFFER leave: an
end of input, and for a writer none (R60, R61, R182).
-/

namespace Sys2Proof.Machine

/-- Where `x` succeeds it ends in a state with `Q`, and every failure it raises is one of `E`. -/
def Act.Ends {α : Type} (Q : State → Prop) (E : Failure → Prop) : Act α → Prop
  | .done _ s => Q s
  | .fail e _ => E e
  | .stuck _ => True

theorem Act.ends_of_all {α : Type} {Q : State → Prop} {E : Failure → Prop} {x : Act α} (hx : x.All Q)
    (hfail : ∀ e t, x = .fail e t → E e) : x.Ends Q E := by
  cases x with
  | done a s => exact hx
  | fail e s => exact hfail e s rfl
  | stuck r => trivial

theorem Act.ends_bind {α β : Type} {Q : State → Prop} {E : Failure → Prop} {x : Act α} {f : α → State → Act β}
    (hx : x.Ends Q E) (hf : ∀ a s, Q s → (f a s).Ends Q E) : (x.bind f).Ends Q E := by
  cases x with
  | done a s => exact hf a s hx
  | fail e s => exact hx
  | stuck r => trivial

/-- What only hands on the data of `x` ends as `x` does. -/
theorem Act.ends_bind_done {α β : Type} {Q : State → Prop} {E : Failure → Prop} {x : Act α} (hx : x.Ends Q E)
    (f : α → β) : (x.bind fun a s => .done (f a) s).Ends Q E :=
  Act.ends_bind hx fun _ _ hs => hs

/-- A command that answers a failure answers one its steps raise. -/
theorem failure_of_conclude {Q : State → Prop} {E : Failure → Prop} {x : Act U64} {t : State} {l : List Result}
    {e : Failure} (hx : x.Ends Q E) (hnext : conclude x = .next t) (hres : t.results = l ++ [.fail e]) : E e := by
  obtain ⟨v, s, rfl, rfl⟩ | ⟨e', s, rfl, rfl⟩ := conclude_next hnext
  · simpa using (List.append_inj' hres rfl).2
  · obtain rfl : e' = e := by simpa using (List.append_inj' hres rfl).2
    exact hx

theorem failure_of_concludeVoid {Q : State → Prop} {E : Failure → Prop} {x : Act PUnit} {t : State} {l : List Result}
    {e : Failure} (hx : x.Ends Q E) (hnext : concludeVoid x = .next t) (hres : t.results = l ++ [.fail e]) : E e :=
  failure_of_conclude (Act.ends_bind_done hx fun _ => 0) hnext hres

/-! ### The reader's steps -/

theorem failure_of_readBit {u : UnitId} {s t : State} {e : Failure} (hr : s.hasReader u)
    (h : readBit u s = .fail e t) : ∃ a, s.sourceAnswer u = some a ∧ (∀ b, a ≠ .byte b) ∧ e = SrcResp.failure a := by
  obtain ⟨r, hr⟩ := hr
  by_cases h0 : r.count = 0#4
  · cases ha : s.sourceAnswer u with
    | none => rw [readBit_stuck hr h0 ha] at h; cases h
    | some a =>
      rw [readBit_empty hr h0 ha] at h
      cases a <;> cases h <;> exact ⟨_, rfl, nofun, rfl⟩
  · cases hl : r.countLegal with
    | false => rw [readBit_reserved hr hl] at h; cases h
    | true => rw [readBit_buffered hr hl h0] at h; cases h

theorem failure_of_readByte {u : UnitId} {s t : State} {e : Failure} (hr : s.hasReader u)
    (h : readByte u s = .fail e t) : ∃ a, s.sourceAnswer u = some a ∧ (∀ b, a ≠ .byte b) ∧ e = SrcResp.failure a := by
  obtain ⟨r, hr⟩ := hr
  cases hl : r.countLegal with
  | false => rw [readByte_reserved hr hl] at h; cases h
  | true =>
    cases ha : s.sourceAnswer u with
    | none => rw [readByte_stuck hr hl ha] at h; cases h
    | some a =>
      by_cases h0 : r.count = 0#4
      · rw [readByte_aligned hr h0 ha] at h
        cases a <;> cases h <;> exact ⟨_, rfl, nofun, rfl⟩
      · rw [readByte_unaligned hr hl h0 ha] at h
        cases a <;> cases h <;> exact ⟨_, rfl, nofun, rfl⟩

/-- `Q` is kept by the reads of the unit `u`, which has a reader, and every answer without a plain byte that its source
gives raises a failure in `E`. -/
structure ReadFails (u : UnitId) (Q : State → Prop) (E : Failure → Prop) : Prop where
  stable : ReadStable u Q
  reader : ∀ s, Q s → s.hasReader u
  answer : ∀ s a, Q s → s.sourceAnswer u = some a → (∀ b, a ≠ .byte b) → E (SrcResp.failure a)

section
variable {u : UnitId} {Q : State → Prop} {E : Failure → Prop} (h : ReadFails u Q E)
include h

theorem readBit_ends {s : State} (hs : Q s) : (readBit u s).Ends Q E := by
  refine Act.ends_of_all (readBit_all h.stable hs) fun e t hx => ?_
  obtain ⟨a, ha, hn, rfl⟩ := failure_of_readBit (h.reader s hs) hx
  exact h.answer s a hs ha hn

theorem readByte_ends {s : State} (hs : Q s) : (readByte u s).Ends Q E := by
  refine Act.ends_of_all (readByte_all h.stable hs) fun e t hx => ?_
  obtain ⟨a, ha, hn, rfl⟩ := failure_of_readByte (h.reader s hs) hx
  exact h.answer s a hs ha hn

theorem readByteRun_ends (k : Nat) (acc : U64) {s : State} (hs : Q s) : (readByteRun u k acc s).Ends Q E := by
  induction k generalizing acc s with
  | zero => exact hs
  | succ k ih => exact Act.ends_bind (readByte_ends h hs) fun _ _ hs' => ih _ hs'

/-- The end-of-input tolerance of the last tail bit raises no failure of its own (R118). -/
theorem shortRead_ends (acc : U64) {s : State} (hs : Q s) :
    (shortRead acc ((readBit u s).bind fun b t => .done ((acc <<< 1) ||| bitValue b) t)).Ends Q E := by
  have hall := readBit_all h.stable hs
  have hends := readBit_ends h hs
  cases hx : readBit u s with
  | done b t => rw [hx] at hall; exact hall
  | fail e t =>
    rw [hx] at hall hends
    simp only [Act.bind, shortRead]
    split
    · exact hall
    · exact hends
  | stuck r => trivial

theorem readTail_ends (n : Nat) (acc : U64) {s : State} (hs : Q s) : (readTail u n acc s).Ends Q E := by
  induction n, acc, s using readTail.induct with
  | case1 acc s => exact hs
  | case2 acc s => exact shortRead_ends h acc hs
  | case3 n acc s ih => exact Act.ends_bind (readBit_ends h hs) fun b t ht => ih b t ht

theorem readBits_ends (n : Nat) {s : State} (hs : Q s) : (readBits u n s).Ends Q E :=
  Act.ends_bind (readByteRun_ends h _ _ hs) fun acc _ ht => readTail_ends h _ acc ht

end

/-! ### The writer's steps -/

theorem failure_of_push {u : UnitId} {b : Byte} {s t : State} {e : Failure} (h : push u b s = .fail e t) :
    (s.sinkAnswer u b = some .short ∧ e = Failure.short) ∨
    ∃ c, s.sinkAnswer u b = some (.nak c) ∧ e = Failure.io c := by
  obtain ⟨-, hp⟩ | ⟨ha, hp⟩ | ⟨c, ha, hp⟩ | ⟨-, hp⟩ := push_eq u b s <;> rw [hp] at h <;> cases h
  · exact .inl ⟨ha, rfl⟩
  · exact .inr ⟨c, ha, rfl⟩

theorem push_of_writeBit_fail {u : UnitId} {bit : Bit} {s t : State} {e : Failure} (hw : s.hasWriter u)
    (h : writeBit u bit s = .fail e t) : ∃ b, push u b s = .fail e t := by
  obtain ⟨w, hw⟩ := hw
  simp only [writeBit, hw] at h
  split at h
  · cases h
  · split at h
    · exact ⟨_, Act.fail_of_bind_done h⟩
    · cases h

theorem push_of_writeByte_fail {u : UnitId} {byt : Byte} {s t : State} {e : Failure} (hw : s.hasWriter u)
    (h : writeByte u byt s = .fail e t) : ∃ b, push u b s = .fail e t := by
  obtain ⟨w, hw⟩ := hw
  simp only [writeByte, hw] at h
  split at h
  · cases h
  · exact ⟨_, Act.fail_of_bind_done h⟩

/-- `Q` is kept by the writes of the unit `u`, which has a writer, and every answer that its sink gives and that is no
acknowledgement raises a failure in `E`. -/
structure WriteFails (u : UnitId) (Q : State → Prop) (E : Failure → Prop) : Prop where
  stable : WriteStable u Q
  writer : ∀ s, Q s → s.hasWriter u
  short : ∀ s b, Q s → s.sinkAnswer u b = some .short → E Failure.short
  nak : ∀ s b c, Q s → s.sinkAnswer u b = some (.nak c) → E (Failure.io c)

section
variable {u : UnitId} {Q : State → Prop} {E : Failure → Prop} (h : WriteFails u Q E)
include h

theorem WriteFails.push {s t : State} (hs : Q s) {b : Byte} {e : Failure} (hx : push u b s = .fail e t) : E e := by
  obtain ⟨ha, rfl⟩ | ⟨c, ha, rfl⟩ := failure_of_push hx
  · exact h.short s b hs ha
  · exact h.nak s b c hs ha

theorem writeBit_ends (bit : Bit) {s : State} (hs : Q s) : (writeBit u bit s).Ends Q E := by
  refine Act.ends_of_all (writeBit_all h.stable bit hs) fun e t hx => ?_
  obtain ⟨b, hb⟩ := push_of_writeBit_fail (h.writer s hs) hx
  exact h.push hs hb

theorem writeByte_ends (byt : Byte) {s : State} (hs : Q s) : (writeByte u byt s).Ends Q E := by
  refine Act.ends_of_all (writeByte_all h.stable byt hs) fun e t hx => ?_
  obtain ⟨b, hb⟩ := push_of_writeByte_fail (h.writer s hs) hx
  exact h.push hs hb

theorem writeByteRun_ends (v : U64) (m k : Nat) {s : State} (hs : Q s) : (writeByteRun u v m k s).Ends Q E := by
  induction k generalizing s with
  | zero => exact hs
  | succ k ih => exact Act.ends_bind (writeByte_ends h _ hs) fun _ _ hs' => ih hs'

theorem writeTail_ends (v : U64) (n : Nat) {s : State} (hs : Q s) : (writeTail u v n s).Ends Q E := by
  induction n generalizing s with
  | zero => exact hs
  | succ n ih => exact Act.ends_bind (writeBit_ends h _ hs) fun _ _ hs' => ih hs'

theorem writeBits_ends (v : U64) (n : Nat) {s : State} (hs : Q s) : (writeBits u v n s).Ends Q E :=
  Act.ends_bind (writeByteRun_ends h v _ _ hs) fun _ _ hs' => writeTail_ends h v _ hs'

theorem flushLoop_ends (n : Nat) {s : State} (hs : Q s) : (flushLoop u n s).Ends Q E := by
  induction n generalizing s with
  | zero => exact hs
  | succ n ih =>
    obtain ⟨w, hw⟩ := h.writer s hs
    rw [flushLoop_succ u n hw]
    split
    · exact hs
    · exact Act.ends_bind (writeBit_ends h _ hs) fun _ _ hs' => ih hs'

theorem flush_ends {s : State} (hs : Q s) : (flush u s).Ends Q E := flushLoop_ends h 8 hs

end

/-! ### The ports of a BUFFER -/

theorem readStable_kindOf (u v : UnitId) (k : Option UnitKind) : ReadStable u (fun s => s.kindOf v = k) where
  pull s a h := (s.kindOf_afterPull u a v).trans h
  move s _ r' h _ _ := (s.kindOf_setReader u r' v).trans h

theorem State.storeOf_of_buffer {s : State} {u : UnitId} (h : s.kindOf u = some .buffer) :
    ∃ l, s.storeOf u = some l := by
  obtain ⟨l, r, w, hx⟩ := State.unitAt_of_buffer h rfl
  exact ⟨l, by simp [State.storeOf, hx, BitUnit.store?]⟩

/-- A store answers `Eof` or a byte (R60). -/
theorem readFails_of_buffer (u : UnitId) :
    ReadFails u (fun s => s.kindOf u = some .buffer) (fun e => e.cause = .eof) where
  stable := readStable_kindOf u u _
  reader s hs := State.readerOf_of_kind hs rfl
  answer s a hs ha hn := by
    obtain ⟨_ | ⟨b, l⟩, hl⟩ := State.storeOf_of_buffer hs
    · obtain rfl := Option.some.inj (ha.symm.trans (State.sourceAnswer_empty_store hl))
      rfl
    · exact absurd (Option.some.inj (ha.symm.trans (State.sourceAnswer_store_cons hl))) (hn b)

/-- A store acknowledges every push (R61). -/
theorem writeFails_of_buffer (u : UnitId) :
    WriteFails u (fun s => s.kindOf u = some .buffer) (fun _ => False) where
  stable := writeStable_kindOf u u _
  writer s hs := State.writerOf_of_kind hs rfl
  short s b hs ha := by
    obtain ⟨l, hl⟩ := State.storeOf_of_buffer hs
    cases ha.symm.trans (State.push_of_store hl b).1
  nak s b c hs ha := by
    obtain ⟨l, hl⟩ := State.storeOf_of_buffer hs
    cases ha.symm.trans (State.push_of_store hl b).1

theorem eof_of_failed_readerCommand {i : Instr} {s t : State} {e : Failure} (hb : s.kindOf s.unit = some .buffer)
    (hlegal : s.Legal i) (hx : exec i s = .next t) (hres : t.results = s.results ++ [.fail e])
    (hi : readerCommand i = true) : e.cause = .eof := by
  obtain ⟨r, hr⟩ := State.readerOf_of_kind hb rfl
  have hfails := readFails_of_buffer s.unit
  obtain rfl | rfl | ⟨nb, rfl⟩ | rfl := readerCommand_cases hi
  · rw [exec_readbit hr] at hx
    exact failure_of_conclude (Act.ends_bind_done (readBit_ends hfails hb) _) hx hres
  · rw [exec_readbyte hr] at hx
    exact failure_of_conclude (Act.ends_bind_done (readByte_ends hfails hb) _) hx hres
  · rw [exec_readbits hr hlegal.2] at hx
    exact failure_of_conclude (readBits_ends hfails _ hb) hx hres
  · obtain ⟨k, hk, hkind⟩ := hlegal
    obtain rfl := Option.some.inj (hb.symm.trans hkind)
    simp at hk

theorem writerCommand_does_not_fail {i : Instr} {s t : State} {e : Failure} (hb : s.kindOf s.unit = some .buffer)
    (hlegal : s.Legal i) (hx : exec i s = .next t) (hres : t.results = s.results ++ [.fail e]) :
    writerCommand i = false := by
  obtain ⟨w, hw⟩ := State.writerOf_of_kind hb rfl
  have hfails := writeFails_of_buffer s.unit
  refine Bool.eq_false_iff.mpr fun hi => ?_
  obtain ⟨bit, rfl⟩ | ⟨byt, rfl⟩ | ⟨v, nb, rfl⟩ | rfl := writerCommand_cases hi
  · rw [exec_writebit hw] at hx
    exact failure_of_concludeVoid (writeBit_ends hfails bit hb) hx hres
  · rw [exec_writebyte hw] at hx
    exact failure_of_concludeVoid (writeByte_ends hfails byt hb) hx hres
  · rw [exec_writebits hw v hlegal.2] at hx
    exact failure_of_concludeVoid (writeBits_ends hfails v _ hb) hx hres
  · rw [exec_flush hw] at hx
    exact failure_of_concludeVoid (flush_ends hfails hb) hx hres

/-- Settles O49: a store that gives no byte answers `Eof`, it takes every byte, and a BUFFER accepts no RRESET. -/
theorem bufferPortsFailOnlyWithEof : Obligations.BufferPortsFailOnlyWithEof :=
  fun _ _ _ _ hb hlegal hx hres =>
    ⟨eof_of_failed_readerCommand hb hlegal hx hres, writerCommand_does_not_fail hb hlegal hx hres⟩

end Sys2Proof.Machine
end

section
/-!
PROOFS. Progress: from a state whose registers meet their invariants and whose ports answer, no step of a command stops,
since the counts it reads have a meaning and the answers it asks for come (R23, R27, R233, R271, U10, V9).
-/

namespace Sys2Proof.Machine

/-- The registers meet their invariants and every port answers. -/
def State.ready (s : State) : Prop := s.registersOk = true ∧ s.portsAnswer = true

theorem ReadStable.and {u : UnitId} {P Q : State → Prop} (hP : ReadStable u P) (hQ : ReadStable u Q) :
    ReadStable u (fun s => P s ∧ Q s) where
  pull s a h := ⟨hP.pull s a h.1, hQ.pull s a h.2⟩
  move s r r' h hr hm := ⟨hP.move s r r' h.1 hr hm, hQ.move s r r' h.2 hr hm⟩

theorem WriteStable.and {u : UnitId} {P Q : State → Prop} (hP : WriteStable u P) (hQ : WriteStable u Q) :
    WriteStable u (fun s => P s ∧ Q s) where
  push s b a h := ⟨hP.push s b a h.1, hQ.push s b a h.2⟩
  move s w w' h hw hm := ⟨hP.move s w w' h.1 hw hm, hQ.move s w w' h.2 hw hm⟩

theorem readStable_ready (u : UnitId) : ReadStable u State.ready :=
  (readStable_registersOk u).and (readStable_portsAnswer u)

theorem writeStable_ready (u : UnitId) : WriteStable u State.ready :=
  (writeStable_registersOk u).and (writeStable_portsAnswer u)

theorem clearStable_ready (u : UnitId) : ClearStable u State.ready where
  store s l h := ⟨(clearStable_registersOk u).store s l h.1, h.2⟩
  reader s h := ⟨(clearStable_registersOk u).reader s h.1, h.2⟩
  writer s h := ⟨(clearStable_registersOk u).writer s h.1, h.2⟩

/-! ### The single steps do not stop -/

theorem readBit_ne_stuck {u : UnitId} {s : State} (hs : s.ready) (f : Fault) : readBit u s ≠ .stuck f := by
  obtain ⟨hregs, hports⟩ := hs
  cases hr : s.readerOf u with
  | none => simp [readBit, hr]
  | some r =>
    by_cases h0 : r.count = 0#4
    · obtain ⟨a, ha⟩ := State.sourceAnswer_of_portsAnswer hports hr
      rw [readBit_empty hr h0 ha]
      cases a <;> nofun
    · rw [readBit_buffered hr (Reader.ok_countLegal (State.registersOk_reader hregs hr)) h0]
      nofun

theorem readByte_ne_stuck {u : UnitId} {s : State} (hs : s.ready) (f : Fault) : readByte u s ≠ .stuck f := by
  obtain ⟨hregs, hports⟩ := hs
  cases hr : s.readerOf u with
  | none => simp [readByte, hr]
  | some r =>
    obtain ⟨a, ha⟩ := State.sourceAnswer_of_portsAnswer hports hr
    by_cases h0 : r.count = 0#4
    · rw [readByte_aligned hr h0 ha]
      cases a <;> nofun
    · rw [readByte_unaligned hr (Reader.ok_countLegal (State.registersOk_reader hregs hr)) h0 ha]
      cases a <;> nofun

theorem writeBit_ne_stuck {u : UnitId} {bit : Bit} {s : State} (hs : s.ready) (f : Fault) :
    writeBit u bit s ≠ .stuck f := by
  obtain ⟨hregs, hports⟩ := hs
  cases hw : s.writerOf u with
  | none => simp [writeBit, hw]
  | some w =>
    by_cases h1 : w.count = 1#4
    · obtain ⟨a, ha⟩ := State.sinkAnswer_of_portsAnswer hports hw (slotIn w bit)
      rw [writeBit_complete hw h1 bit ha]
      cases a <;> nofun
    · rw [writeBit_queued hw (Writer.ok_countLegal (State.registersOk_writer hregs hw)) h1]
      nofun

theorem writeByte_ne_stuck {u : UnitId} {byt : Byte} {s : State} (hs : s.ready) (f : Fault) :
    writeByte u byt s ≠ .stuck f := by
  obtain ⟨hregs, hports⟩ := hs
  cases hw : s.writerOf u with
  | none => simp [writeByte, hw]
  | some w =>
    obtain ⟨a, ha⟩ := State.sinkAnswer_of_portsAnswer hports hw (spliceWrite w byt)
    rw [writeByte_push hw (Writer.ok_countLegal (State.registersOk_writer hregs hw)) byt ha]
    cases a <;> nofun

/-! ### The steps of every command complete -/

/-- `x` does not stop, and ends, in success or in a raised failure, in a state that is ready again. -/
def Act.Completes {α : Type} : Act α → Prop
  | .done _ s => s.ready
  | .fail _ s => s.ready
  | .stuck _ => False

theorem Act.completes_of_all {α : Type} {x : Act α} (hx : x.All State.ready) (hne : ∀ f, x ≠ .stuck f) :
    x.Completes := by
  cases x with
  | done a s => exact hx
  | fail e s => exact hx
  | stuck r => exact hne r rfl

theorem Act.completes_bind {α β : Type} {x : Act α} {f : α → State → Act β} (hx : x.Completes)
    (hf : ∀ a s, s.ready → (f a s).Completes) : (x.bind f).Completes := by
  cases x with
  | done a s => exact hf a s hx
  | fail e s => exact hx
  | stuck r => exact hx

/-- What only hands on the data of `x` completes as `x` does. -/
theorem Act.completes_bind_done {α β : Type} {x : Act α} (hx : x.Completes) (f : α → β) :
    (x.bind fun a s => .done (f a) s).Completes :=
  Act.completes_bind hx fun _ _ hs => hs

theorem Act.completes_inContext {α : Type} {x : Act α} (c : Ctx) (hx : x.Completes) : (x.inContext c).Completes := by
  cases x <;> exact hx

theorem shortRead_completes (acc : U64) {x : Act U64} (hx : x.Completes) : (shortRead acc x).Completes := by
  cases x with
  | done v s => exact hx
  | fail e s =>
    rw [shortRead]
    split <;> exact hx
  | stuck r => exact hx

section
variable {s : State} (hs : s.ready)
include hs

theorem readBit_completes (u : UnitId) : (readBit u s).Completes :=
  Act.completes_of_all (readBit_all (readStable_ready u) hs) (readBit_ne_stuck hs)

theorem readByte_completes (u : UnitId) : (readByte u s).Completes :=
  Act.completes_of_all (readByte_all (readStable_ready u) hs) (readByte_ne_stuck hs)

theorem readByteRun_completes (u : UnitId) (k : Nat) (acc : U64) : (readByteRun u k acc s).Completes := by
  induction k generalizing acc s with
  | zero => exact hs
  | succ k ih => exact Act.completes_bind (readByte_completes hs u) fun _ _ hs' => ih hs' _

theorem readTail_completes (u : UnitId) (n : Nat) (acc : U64) : (readTail u n acc s).Completes := by
  induction n, acc, s using readTail.induct with
  | case1 acc s => exact hs
  | case2 acc s => exact shortRead_completes acc (Act.completes_bind_done (readBit_completes hs u) _)
  | case3 n acc s ih => exact Act.completes_bind (readBit_completes hs u) fun b t ht => ih b t ht

theorem readBits_completes (u : UnitId) (n : Nat) : (readBits u n s).Completes :=
  Act.completes_bind (readByteRun_completes hs u _ _) fun acc _ ht => readTail_completes ht u _ acc

theorem writeBit_completes (u : UnitId) (bit : Bit) : (writeBit u bit s).Completes :=
  Act.completes_of_all (writeBit_all (writeStable_ready u) bit hs) (writeBit_ne_stuck hs)

theorem writeByte_completes (u : UnitId) (byt : Byte) : (writeByte u byt s).Completes :=
  Act.completes_of_all (writeByte_all (writeStable_ready u) byt hs) (writeByte_ne_stuck hs)

theorem writeByteRun_completes (u : UnitId) (v : U64) (m k : Nat) : (writeByteRun u v m k s).Completes := by
  induction k generalizing s with
  | zero => exact hs
  | succ k ih => exact Act.completes_bind (writeByte_completes hs u _) fun _ _ hs' => ih hs'

theorem writeTail_completes (u : UnitId) (v : U64) (n : Nat) : (writeTail u v n s).Completes := by
  induction n generalizing s with
  | zero => exact hs
  | succ n ih => exact Act.completes_bind (writeBit_completes hs u _) fun _ _ hs' => ih hs'

theorem writeBits_completes (u : UnitId) (v : U64) (n : Nat) : (writeBits u v n s).Completes :=
  Act.completes_bind (writeByteRun_completes hs u v _ _) fun _ _ ht => writeTail_completes ht u v _

theorem flushLoop_completes (u : UnitId) (n : Nat) : (flushLoop u n s).Completes := by
  induction n generalizing s with
  | zero => exact hs
  | succ n ih =>
    rw [flushLoop]
    cases s.writerOf u with
    | none => exact hs
    | some w =>
      dsimp only
      split
      · exact hs
      · exact Act.completes_bind (writeBit_completes hs u _) fun _ _ hs' => ih hs'

theorem transferBytes_completes (rc wc : Ctx) (src dst : UnitId) (k : Nat) :
    (transferBytes rc wc src dst k s).Completes := by
  induction k generalizing s with
  | zero => exact hs
  | succ k ih =>
    refine Act.completes_bind (Act.completes_inContext rc (readByte_completes hs src)) fun b _ ht => ?_
    exact Act.completes_bind (Act.completes_inContext wc (writeByte_completes ht dst b)) fun _ _ ht' => ih ht'

theorem transferChunk_completes (rc wc : Ctx) (src dst : UnitId) (n : Nat) :
    (transferChunk rc wc src dst n s).Completes := by
  rw [transferChunk]
  split
  · exact hs
  · exact Act.completes_bind (Act.completes_inContext rc (readBits_completes hs src n)) fun v _ ht =>
      Act.completes_inContext wc (writeBits_completes ht dst v n)

theorem transfer_completes (rc wc : Ctx) (src dst : UnitId) (n : Nat) : (transfer rc wc src dst n s).Completes :=
  Act.completes_bind (transferBytes_completes hs rc wc src dst _) fun _ _ ht =>
    transferChunk_completes ht rc wc src dst _

theorem copyStore_completes (b p : UnitId) : (copyStore b p s).Completes := by
  refine Act.completes_of_all (copyStore_all (clearStable_ready p) hs) fun f => ?_
  rw [copyStore]
  cases s.storeOf b <;> nofun

theorem resetBuffer_completes (b : UnitId) : (resetBuffer b s).Completes :=
  Act.completes_bind (flushLoop_completes hs b 8) fun _ _ ht =>
    (clearStable_ready b).reader _ ((clearStable_ready b).store _ [] ht)

end

/-! ### Commands and steps -/

/-- A command whose steps complete answers, and an illegal one answers at once. -/
theorem ifLegal_conclude_next {x : Act U64} (hx : x.Completes) (s : State) (i : Instr) :
    ∃ t, s.ifLegal i (conclude x) = .next t := by
  obtain ⟨-, hrun⟩ | ⟨-, hrun⟩ := s.ifLegal_eq i (conclude x) <;> rw [hrun]
  · cases x with
    | done v t => exact ⟨_, rfl⟩
    | fail e t => exact ⟨_, rfl⟩
    | stuck r => exact hx.elim
  · exact ⟨_, rfl⟩

theorem ifLegal_concludeVoid_next {x : Act PUnit} (hx : x.Completes) (s : State) (i : Instr) :
    ∃ t, s.ifLegal i (concludeVoid x) = .next t :=
  ifLegal_conclude_next (Act.completes_bind_done hx fun _ => 0) s i

theorem exec_completes (i : Instr) {s : State} (hs : s.ready) : ∃ t, exec i s = .next t := by
  cases i with
  | readbit => exact ifLegal_conclude_next (Act.completes_bind_done (readBit_completes hs _) _) s _
  | readbyte => exact ifLegal_conclude_next (Act.completes_bind_done (readByte_completes hs _) _) s _
  | readbits nb => exact ifLegal_conclude_next (readBits_completes hs _ _) s _
  | rreset => exact ifLegal_concludeVoid_next (x := resetReader s.unit s) ((clearStable_ready _).reader s hs) s _
  | writebit bit => exact ifLegal_concludeVoid_next (writeBit_completes hs _ bit) s _
  | writebyte byt => exact ifLegal_concludeVoid_next (writeByte_completes hs _ byt) s _
  | writebits v nb => exact ifLegal_concludeVoid_next (writeBits_completes hs _ v _) s _
  | flush => exact ifLegal_concludeVoid_next (flushLoop_completes hs _ 8) s _
  | readfrom p n => exact ifLegal_concludeVoid_next (transfer_completes hs _ _ _ _ _) s _
  | writeto p n => exact ifLegal_concludeVoid_next (transfer_completes hs _ _ _ _ _) s _
  | copy p => exact ifLegal_concludeVoid_next (copyStore_completes hs _ p) s _
  | breset => exact ifLegal_concludeVoid_next (resetBuffer_completes hs _) s _

theorem safeStep_of_ready {s : State} (hs : s.ready) : SafeStep s := by
  cases hc : s.commands with
  | nil => exact ⟨s, step_of_no_commands hc⟩
  | cons c rest =>
    cases hd : decode c.desc with
    | ok i =>
      obtain ⟨t, ht⟩ := exec_completes i (s := { s with unit := c.unit, commands := rest }) hs
      exact ⟨t, (step_of_decode_ok hc hd).trans ht⟩
    | error e => exact ⟨_, step_of_decode_error hc hd⟩

/-- Settles O39: each loop has its bound, so a command stops only where a single step does, and in a ready state none
does; the moves of every unit keep the state ready. -/
theorem stepCompletesWhilePortsAnswer : Obligations.StepCompletesWhilePortsAnswer := by
  intro s hregs hports
  obtain ⟨t, ht⟩ := safeStep_of_ready ⟨hregs, hports⟩
  have hready : t.ready := step_keeps_of_stable readStable_ready writeStable_ready clearStable_ready
    (fun _ _ h => h) (fun _ _ _ h => h) ⟨hregs, hports⟩ ht
  exact ⟨t, ht, hready⟩

end Sys2Proof.Machine
end

section
/-!
PROOFS. With which causes and contexts each legal command fails (R222, R224): the steps on a reader fail with what its
source answers, those on a writer with what its sink answers, and a transfer names the unit that failed (R187, R191); on
the BUFFER a transfer is issued to a read fails only with an end of input and a write not at all (R182).
-/

namespace Sys2Proof.Machine

/-! ### Failures of a port -/

/-- The causes of a failed read (R126, R222). -/
def ReadCause (c : Cause) : Prop := c = .eof ∨ c = .ioErr

/-- The causes of a failed write (R143, R147, R222). -/
def WriteCause (c : Cause) : Prop := c = .ioErr ∨ c = .shortWrite

/-- The failure has a cause in `P` and the context `ctx`, and a code only where an underlying error gave it one. -/
def Failure.Within (P : Cause → Prop) (ctx : Ctx) (e : Failure) : Prop :=
  (e.cause ≠ .ioErr → e.ecode = 0#16) ∧ P e.cause ∧ e.ctx = ctx

theorem Failure.Within.inContext {P : Cause → Prop} {ctx : Ctx} {e : Failure} (h : e.Within P ctx) (c : Ctx) :
    Failure.Within P c { e with ctx := c } := ⟨h.1, h.2.1, rfl⟩

theorem within_of_answer (a : SrcResp) : (SrcResp.failure a).Within ReadCause .none := by
  cases a with
  | err c => exact ⟨fun h => absurd rfl h, .inr rfl, rfl⟩
  | _ => exact ⟨fun _ => rfl, .inl rfl, rfl⟩

theorem readFails_of_hasReader (u : UnitId) :
    ReadFails u (State.hasReader u) (Failure.Within ReadCause .none) where
  stable := readStable_hasReader u
  reader _ hs := hs
  answer _ a _ _ _ := within_of_answer a

theorem writeFails_of_hasWriter (u : UnitId) :
    WriteFails u (State.hasWriter u) (Failure.Within WriteCause .none) where
  stable := writeStable_hasWriter u
  writer _ hs := hs
  short _ _ _ _ := ⟨fun _ => rfl, .inr rfl, rfl⟩
  nak _ _ _ _ _ := ⟨fun h => absurd rfl h, .inl rfl, rfl⟩

/-- A read of a store fails only with `EOF` (R60, R182). -/
theorem readFails_of_store (u : UnitId) :
    ReadFails u (fun s => s.kindOf u = some .buffer) (Failure.Within (· = .eof) .none) where
  stable := readStable_kindOf u u _
  reader s hs := State.readerOf_of_kind hs rfl
  answer s a hs ha hn := by
    have hcause := (readFails_of_buffer u).answer s a hs ha hn
    obtain ⟨hcode, -, hctx⟩ := within_of_answer a
    exact ⟨hcode, hcause, hctx⟩

theorem ReadFails.mono {u : UnitId} {P Q : State → Prop} {E : Failure → Prop} (h : ReadFails u Q E)
    (hP : ReadStable u P) (hsub : ∀ s, P s → Q s) : ReadFails u P E where
  stable := hP
  reader s hs := h.reader s (hsub s hs)
  answer s a hs := h.answer s a (hsub s hs)

theorem WriteFails.mono {u : UnitId} {P Q : State → Prop} {E : Failure → Prop} (h : WriteFails u Q E)
    (hP : WriteStable u P) (hsub : ∀ s, P s → Q s) : WriteFails u P E where
  stable := hP
  writer s hs := h.writer s (hsub s hs)
  short s b hs := h.short s b (hsub s hs)
  nak s b c hs := h.nak s b c (hsub s hs)

/-! ### The buffer's steps -/

theorem Act.ends_inContext {α : Type} {Q : State → Prop} {E E' : Failure → Prop} {x : Act α} {c : Ctx}
    (hx : x.Ends Q E) (hE : ∀ e, E e → E' { e with ctx := c }) : (x.inContext c).Ends Q E' := by
  cases x with
  | done a s => exact hx
  | fail e s => exact hE e hx
  | stuck r => trivial

section
variable {rc wc : Ctx} {src dst : UnitId} {Q : State → Prop} {Er Ew E : Failure → Prop} (hr : ReadFails src Q Er)
  (hw : WriteFails dst Q Ew) (hrc : ∀ e, Er e → E { e with ctx := rc }) (hwc : ∀ e, Ew e → E { e with ctx := wc })
include hr hw hrc hwc

theorem transferBytes_ends (k : Nat) {s : State} (hs : Q s) : (transferBytes rc wc src dst k s).Ends Q E := by
  induction k generalizing s with
  | zero => exact hs
  | succ k ih =>
    refine Act.ends_bind (Act.ends_inContext (readByte_ends hr hs) hrc) fun b _ ht => ?_
    exact Act.ends_bind (Act.ends_inContext (writeByte_ends hw b ht) hwc) fun _ _ ht' => ih ht'

theorem transferChunk_ends (n : Nat) {s : State} (hs : Q s) : (transferChunk rc wc src dst n s).Ends Q E := by
  rw [transferChunk]
  split
  · exact hs
  · exact Act.ends_bind (Act.ends_inContext (readBits_ends hr n hs) hrc) fun v _ ht =>
      Act.ends_inContext (writeBits_ends hw v n ht) hwc

theorem transfer_ends (n : Nat) {s : State} (hs : Q s) : (transfer rc wc src dst n s).Ends Q E :=
  Act.ends_bind (transferBytes_ends hr hw hrc hwc _ hs) fun _ _ ht => transferChunk_ends hr hw hrc hwc _ ht

end

theorem copyStore_ends {b p : UnitId} {s : State} (hb : s.kindOf b = some .buffer) :
    (copyStore b p s).Ends (fun _ => True) (fun _ => False) := by
  obtain ⟨l, hl⟩ := State.storeOf_of_buffer hb
  simp only [copyStore, hl, Act.Ends]

/-- The FLUSH of a BRESET pushes to the store, which takes every byte (R61, R205). -/
theorem resetBuffer_ends {b : UnitId} {s : State} (hb : s.kindOf b = some .buffer) :
    (resetBuffer b s).Ends (fun t => t.kindOf b = some .buffer) (fun _ => False) :=
  Act.ends_bind (flush_ends (writeFails_of_buffer b) hb) fun _ t ht => by simpa [Act.Ends] using ht

/-! ### The legal commands -/

theorem State.hasReader_of_legal {s : State} {i : Instr} (h : s.Legal i) (ha : ∀ k, accepts k i = readable k) :
    s.hasReader s.unit := by
  obtain ⟨k, hk, haccepts, -, -⟩ := (s.legal_iff i).mp ((s.Legal_iff i).mp h)
  exact State.readerOf_of_kind hk (ha k ▸ haccepts)

theorem State.hasWriter_of_legal {s : State} {i : Instr} (h : s.Legal i) (ha : ∀ k, accepts k i = writable k) :
    s.hasWriter s.unit := by
  obtain ⟨k, hk, haccepts, -, -⟩ := (s.legal_iff i).mp ((s.Legal_iff i).mp h)
  exact State.writerOf_of_kind hk (ha k ▸ haccepts)

section
variable {s t : State} {i : Instr} {l : List Result} {e : Failure} (hlegal : s.Legal i) (hx : exec i s = .next t)
  (hres : t.results = l ++ [.fail e])
include hlegal hx hres

/-- A legal command that answers a failure answers one of those its steps raise. -/
theorem failure_of_legal {x : Act U64} {Q : State → Prop} {E : Failure → Prop}
    (hexec : exec i s = s.ifLegal i (conclude x)) (hends : x.Ends Q E) : E e := by
  rw [hexec, State.ifLegal_legal ((s.Legal_iff i).mp hlegal)] at hx
  exact failure_of_conclude hends hx hres

theorem failure_of_legal_void {x : Act PUnit} {Q : State → Prop} {E : Failure → Prop}
    (hexec : exec i s = s.ifLegal i (concludeVoid x)) (hends : x.Ends Q E) : E e :=
  failure_of_legal hlegal hx hres hexec (Act.ends_bind_done hends fun _ => 0)

end

section
variable {s t : State} {p : UnitId} {n : U64} {l : List Result} {e : Failure} (hres : t.results = l ++ [.fail e])
include hres

/-- A READFROM fails with a read of its peer: its own store takes every byte (R61, R187). -/
theorem failure_of_readfrom (hlegal : s.Legal (.readfrom p n)) (hx : exec (.readfrom p n) s = .next t) :
    e.Within ReadCause .readFromSource := by
  obtain ⟨-, hbuffer, hreader⟩ := State.legal_readfrom_iff.mp hlegal
  have hreads := (readFails_of_hasReader p).mono
    ((readStable_hasHalves p s.unit).and (readStable_kindOf p s.unit (some .buffer))) fun _ h => h.1.1
  have hwrites := (writeFails_of_buffer s.unit).mono
    ((writeStable_hasHalves p s.unit).and (writeStable_kindOf s.unit s.unit (some .buffer))) fun _ h => h.2
  exact failure_of_legal_void hlegal hx hres rfl
    (transfer_ends hreads hwrites (fun _ h => h.inContext _) (fun _ h => h.elim) _
      ⟨⟨hreader, State.writerOf_of_kind hbuffer rfl⟩, hbuffer⟩)

/-- A WRITETO fails at the end of its own store or with a write to its peer (R60, R191). -/
theorem failure_of_writeto (hlegal : s.Legal (.writeto p n)) (hx : exec (.writeto p n) s = .next t) :
    e.Within (· = .eof) .readFromBuffer ∨ e.Within WriteCause .writeToSink := by
  obtain ⟨-, hbuffer, hwriter⟩ := State.legal_writeto_iff.mp hlegal
  have hreads := (readFails_of_store s.unit).mono
    ((readStable_hasHalves s.unit p).and (readStable_kindOf s.unit s.unit (some .buffer))) fun _ h => h.2
  have hwrites := (writeFails_of_hasWriter p).mono
    ((writeStable_hasHalves s.unit p).and (writeStable_kindOf p s.unit (some .buffer))) fun _ h => h.1.2
  exact failure_of_legal_void (E := fun e => e.Within (· = .eof) .readFromBuffer ∨ e.Within WriteCause .writeToSink)
    hlegal hx hres rfl
    (transfer_ends hreads hwrites (fun _ h => .inl (h.inContext _)) (fun _ h => .inr (h.inContext _)) _
      ⟨⟨State.readerOf_of_kind hbuffer rfl, hwriter⟩, hbuffer⟩)

end

/-- Settles O48: every step of a command fails with what one port answers, in the context the command gives it; RRESET
asks no port, and COPY and BRESET none but a store that takes every byte. -/
theorem causesByCommand : Obligations.CausesByCommand := by
  intro i s t e hlegal hx hres
  have hreads := readFails_of_hasReader s.unit
  have hwrites := writeFails_of_hasWriter s.unit
  have hread := State.hasReader_of_legal hlegal
  have hwrite := State.hasWriter_of_legal hlegal
  cases i with
  | readbit =>
    exact failure_of_legal hlegal hx hres rfl (Act.ends_bind_done (readBit_ends hreads (hread fun _ => rfl)) _)
  | readbyte =>
    exact failure_of_legal hlegal hx hres rfl (Act.ends_bind_done (readByte_ends hreads (hread fun _ => rfl)) _)
  | readbits nb => exact failure_of_legal hlegal hx hres rfl (readBits_ends hreads _ (hread fun _ => rfl))
  | rreset =>
    exact (failure_of_legal_void (x := resetReader s.unit s) (Q := fun _ => True) (E := fun _ => False)
      hlegal hx hres rfl trivial).elim
  | writebit bit => exact failure_of_legal_void hlegal hx hres rfl (writeBit_ends hwrites bit (hwrite fun _ => rfl))
  | writebyte byt => exact failure_of_legal_void hlegal hx hres rfl (writeByte_ends hwrites byt (hwrite fun _ => rfl))
  | writebits v nb => exact failure_of_legal_void hlegal hx hres rfl (writeBits_ends hwrites v _ (hwrite fun _ => rfl))
  | flush => exact failure_of_legal_void hlegal hx hres rfl (flush_ends hwrites (hwrite fun _ => rfl))
  | readfrom p n => exact failure_of_readfrom hres hlegal hx
  | writeto p n =>
    obtain ⟨hcode, hcause, hctx⟩ | ⟨hcode, hcause, hctx⟩ := failure_of_writeto hres hlegal hx
    · exact ⟨hcode, .inl ⟨hcause, hctx⟩⟩
    · exact ⟨hcode, .inr ⟨hcause, hctx⟩⟩
  | copy p =>
    exact (failure_of_legal_void hlegal hx hres rfl (copyStore_ends (kindOf_of_issuedTo_buffer hlegal.1))).elim
  | breset =>
    exact (failure_of_legal_void hlegal hx hres rfl (resetBuffer_ends (kindOf_of_issuedTo_buffer hlegal))).elim

end Sys2Proof.Machine
end

section
/-!
PROOFS. How many bytes each command moves (R270): the bits it moves and the registers' invariants fix the bytes taken of
the supply and those delivered to the sink (R59, R116, R146); and the idle step (R272).
-/

namespace Sys2Proof.Machine

/-! ### No command to issue -/

theorem State.fetch_of_no_commands {s : State} (h : s.commands = []) : s.fetch = none := by rw [State.fetch, h]

/-- Settles O8: the host's empty list gives the command port nothing to decode. -/
theorem stepWithoutACommandDoesNothing : Obligations.StepWithoutACommandDoesNothing := by
  intro s h
  rw [step, State.fetch_of_no_commands h]

/-! ### Bytes by bits -/

/-- What the next state of a command takes of a supply is fixed by the bits it is known to read. -/
theorem supply_of_exec {i : Instr} {s t t' : State} {u : UnitId} {r : Reader} {l : List Bit}
    (hr : s.readerOf u = some r) (hok : r.ok = true) (hx : exec i s = .next t) (hx' : exec i s = .next t')
    (hok' : t'.readerOk u) (hbits : s.bitsAhead u = l ++ t'.bitsAhead u) :
    t.supply u = (s.supply u).drop (l.length / 8 + if r.count.toNat < l.length % 8 then 1 else 0) := by
  obtain rfl : t = t' := Host.Outcome.next.inj (hx.symm.trans hx')
  exact supply_of_bits hr hok hok' hbits

/-- How many bytes the next state of a command has delivered more is fixed by the bits it is known to write. -/
theorem delivered_of_exec {i : Instr} {s t t' : State} {u : UnitId} {w : Writer} {l : List Bit}
    (hw : s.writerOf u = some w) (hok : w.ok = true) (hx : exec i s = .next t) (hx' : exec i s = .next t')
    (hok' : t'.writerOk u) (hbits : t'.bitsWritten u = s.bitsWritten u ++ l) :
    (t.delivered u).length =
      (s.delivered u).length + (l.length / 8 + if w.count.toNat ≤ l.length % 8 then 1 else 0) := by
  obtain rfl : t = t' := Host.Outcome.next.inj (hx.symm.trans hx')
  exact delivered_of_bits hw hok hok' hbits

/-! ### The commands with operands, by the half their opcode names (R83) -/

theorem readerCommand_readbits (nb : Byte) : readerCommand (.readbits nb) = true := by simp [readerCommand, opcode]

theorem writerCommand_writebit (bit : Bit) : writerCommand (.writebit bit) = true := by simp [writerCommand, opcode]

theorem writerCommand_writebyte (byt : Byte) : writerCommand (.writebyte byt) = true := by simp [writerCommand, opcode]

theorem writerCommand_writebits (v : U64) (nb : Byte) : writerCommand (.writebits v nb) = true := by
  simp [writerCommand, opcode]

/-! ### The reader commands -/

section
variable {s t : State} {r : Reader} (hr : s.readerOf s.unit = some r) (hok : r.ok = true)
include hr hok

theorem supply_of_readbit (h : 1 ≤ (s.bitsAhead s.unit).length) (hx : exec .readbit s = .next t) :
    t.supply s.unit = (s.supply s.unit).drop (if r.count = 0#4 then 1 else 0) := by
  obtain ⟨hreadbit, -⟩ := readBitAndReadByteDeliverTheStream s ⟨r, hr, hok⟩
  obtain ⟨b, t', hx', -, hbits, hok'⟩ := hreadbit h
  have h0 : r.count.toNat < 1 ↔ r.count = 0#4 := by simp [BitVec.toNat_eq]
  simpa [h0] using supply_of_exec (l := [b]) hr hok hx hx' hok' hbits

theorem supply_of_readbyte (h : 8 ≤ (s.bitsAhead s.unit).length) (hx : exec .readbyte s = .next t) :
    t.supply s.unit = (s.supply s.unit).drop 1 := by
  obtain ⟨-, hreadbyte⟩ := readBitAndReadByteDeliverTheStream s ⟨r, hr, hok⟩
  obtain ⟨b, t', hx', -, hbits, hok'⟩ := hreadbyte h
  simpa [bitsOf] using supply_of_exec (l := bitsOf b) hr hok hx hx' hok' hbits

theorem supply_of_readbits {nb : Byte} (hnb : nb.toNat ≤ 64) (h : nb.toNat ≤ (s.bitsAhead s.unit).length)
    (hx : exec (.readbits nb) s = .next t) :
    t.supply s.unit = (s.supply s.unit).drop (nb.toNat / 8 + if r.count.toNat < nb.toNat % 8 then 1 else 0) := by
  obtain ⟨v, t', hx', -, -, hbits, hok'⟩ := readBitsDeliversTheStream s nb ⟨r, hr, hok⟩ hnb h
  simpa using supply_of_exec (l := valueBits v nb.toNat) hr hok hx hx' hok' hbits

end

/-- RRESET writes registers only: no stream and no store is touched (R125). -/
theorem streams_of_rreset {s t : State} (h : exec .rreset s = .next t) :
    t.sources = s.sources ∧ t.sinks = s.sinks ∧ ∀ v, t.storeOf v = s.storeOf v := by
  have hkeeps : Keeps s.unit .rreset
      fun s' => s'.sources = s.sources ∧ s'.sinks = s.sinks ∧ ∀ v, s'.storeOf v = s.storeOf v :=
    fun s' ⟨hsources, hsinks, hstores⟩ =>
      ⟨hsources, hsinks, fun v => (s'.storeOf_setReader s.unit Reader.fresh v).trans (hstores v)⟩
  obtain ⟨s', r, hs', rfl⟩ := exec_next hkeeps ⟨rfl, rfl, fun _ => rfl⟩ h
  exact hs'

/-! ### The writer commands -/

section
variable {s t : State} {w : Writer} (hw : s.writerOf s.unit = some w) (hok : w.ok = true) (hacks : s.acks s.unit = true)
include hw hok hacks

theorem delivered_of_writebit {bit : Bit} (hx : exec (.writebit bit) s = .next t) :
    (t.delivered s.unit).length = (s.delivered s.unit).length + if w.count = 1#4 then 1 else 0 := by
  obtain ⟨hwritebit, -⟩ := writesAppendToTheStream s ⟨⟨w, hw, hok⟩, hacks⟩
  obtain ⟨t', hx', -, hbits, hok'⟩ := hwritebit bit
  obtain ⟨hlo, -⟩ := (Writer.ok_iff w).mp hok
  have h1 : w.count.toNat ≤ 1 ↔ w.count = 1#4 := by
    simp only [BitVec.toNat_eq, BitVec.toNat_ofNat]
    omega
  simpa [h1] using delivered_of_exec (l := [bit]) hw hok hx hx' hok' hbits

theorem delivered_of_writebyte {byt : Byte} (hx : exec (.writebyte byt) s = .next t) :
    (t.delivered s.unit).length = (s.delivered s.unit).length + 1 := by
  obtain ⟨-, hwritebyte, -⟩ := writesAppendToTheStream s ⟨⟨w, hw, hok⟩, hacks⟩
  obtain ⟨t', hx', -, hbits, hok'⟩ := hwritebyte byt
  obtain ⟨hlo, -⟩ := (Writer.ok_iff w).mp hok
  have hne : ¬ w.count.toNat ≤ 0 := by omega
  simpa [bitsOf, hne] using delivered_of_exec (l := bitsOf byt) hw hok hx hx' hok' hbits

theorem delivered_of_writebits {v : U64} {nb : Byte} (hnb : nb.toNat ≤ 64)
    (hx : exec (.writebits v nb) s = .next t) :
    (t.delivered s.unit).length =
      (s.delivered s.unit).length + (nb.toNat / 8 + if w.count.toNat ≤ nb.toNat % 8 then 1 else 0) := by
  obtain ⟨-, -, hwritebits, -⟩ := writesAppendToTheStream s ⟨⟨w, hw, hok⟩, hacks⟩
  obtain ⟨t', hx', -, hbits, hok'⟩ := hwritebits v nb hnb
  simpa using delivered_of_exec (l := valueBits v nb.toNat) hw hok hx hx' hok' hbits

theorem delivered_of_flush (hx : exec .flush s = .next t) :
    (t.delivered s.unit).length = (s.delivered s.unit).length + if w.count.toNat < 8 then 1 else 0 := by
  obtain ⟨-, -, -, hflush⟩ := writesAppendToTheStream s ⟨⟨w, hw, hok⟩, hacks⟩
  obtain ⟨t', hx', -, hbits, -, -, hok'⟩ := hflush w hw
  obtain ⟨hlo, hhi, -⟩ := (Writer.ok_iff w).mp hok
  rw [delivered_of_exec hw hok hx hx' hok' hbits, List.length_replicate]
  split <;> split <;> omega

end

/-! ### The buffer commands -/

/-- The store of a BUFFER acknowledges every push (R61). -/
theorem State.acks_of_buffer {s : State} {u : UnitId} (h : s.kindOf u = some .buffer) : s.acks u = true := by
  obtain ⟨l, r, w, hx⟩ := State.unitAt_of_buffer h rfl
  simp [State.acks, hx]

/-- BRESET is its FLUSH, whose one answer is BRESET's own, and then the emptied store and the new reader (R205). -/
theorem exec_breset_of_flush {s t : State} {w : Writer} (hb : s.kindOf s.unit = some .buffer)
    (hw : s.writerOf s.unit = some w) (hok : w.ok = true) (hx : exec .breset s = .next t) :
    ∃ m, exec .flush s = .next m ∧ t = (m.setStore s.unit []).setReader s.unit Reader.fresh := by
  obtain ⟨l, r, w', hunit⟩ := State.unitAt_of_buffer hb rfl
  obtain ⟨h1, h8, -⟩ := (Writer.ok_iff w).mp hok
  obtain ⟨s', hflush, -⟩ := flushLoop_stream 8 ⟨⟨w, hw, hok⟩, State.acks_of_buffer hb⟩ hw (by omega)
  refine ⟨s'.answer (.ok 0), by rw [exec_flush hw, flush, hflush]; rfl, Host.Outcome.next.inj (hx.symm.trans ?_)⟩
  rw [exec_breset hunit, resetBuffer, flush, hflush]
  rfl

/-- A READFROM reads `n` bits of its peer and writes them to its buffer's store, so to no external sink. -/
theorem transactions_of_readfrom {s t : State} {p : UnitId} {n : U64} {r : Reader} {w : Writer} (hp : p ≠ s.unit)
    (hb : s.kindOf s.unit = some .buffer) (hr : s.readerOf p = some r) (hrok : r.ok = true)
    (hw : s.writerOf s.unit = some w) (hwok : w.ok = true) (hlen : n.toNat ≤ (s.bitsAhead p).length)
    (hx : exec (.readfrom p n) s = .next t) :
    t.supply p = (s.supply p).drop (n.toNat / 8 + if r.count.toNat < n.toNat % 8 then 1 else 0) ∧
    (t.delivered s.unit).length =
      (s.delivered s.unit).length + (n.toNat / 8 + if w.count.toNat ≤ n.toNat % 8 then 1 else 0) ∧
    t.sinks = s.sinks := by
  obtain ⟨l, t', hx', -, hn, hahead, hwritten, hrok', hwok'⟩ :=
    readFromMovesTheStream s p n hp hb ⟨⟨w, hw, hwok⟩, State.acks_of_buffer hb⟩ ⟨r, hr, hrok⟩ hlen
  obtain ⟨-, -, -, hsinks, -⟩ := (transferFrame s t p n).1 hx
  rw [← hn]
  exact ⟨supply_of_exec hr hrok hx hx' hrok' hahead, delivered_of_exec hw hwok hx hx' hwok' hwritten, hsinks⟩

/-- A WRITETO reads `n` bits of its buffer's store, so of no external source, and writes them to its peer. -/
theorem transactions_of_writeto {s t : State} {p : UnitId} {n : U64} {r : Reader} {w : Writer} (hp : p ≠ s.unit)
    (hb : s.kindOf s.unit = some .buffer) (hr : s.readerOf s.unit = some r) (hrok : r.ok = true)
    (hw : s.writerOf p = some w) (hwok : w.ok = true) (hacks : s.acks p = true)
    (hlen : n.toNat ≤ (s.bitsAhead s.unit).length) (hx : exec (.writeto p n) s = .next t) :
    t.supply s.unit = (s.supply s.unit).drop (n.toNat / 8 + if r.count.toNat < n.toNat % 8 then 1 else 0) ∧
    (t.delivered p).length =
      (s.delivered p).length + (n.toNat / 8 + if w.count.toNat ≤ n.toNat % 8 then 1 else 0) ∧
    t.sources = s.sources := by
  obtain ⟨l, t', hx', -, hn, hahead, hwritten, hrok', hwok'⟩ :=
    writeToMovesTheStream s p n hp hb ⟨r, hr, hrok⟩ ⟨⟨w, hw, hwok⟩, hacks⟩ hlen
  obtain ⟨-, -, -, hsources, -⟩ := (transferFrame s t p n).2 hx
  rw [← hn]
  exact ⟨supply_of_exec hr hrok hx hx' hrok' hahead, delivered_of_exec hw hwok hx hx' hwok' hwritten, hsources⟩

theorem streams_of_copy {s t : State} {p : UnitId} (h : exec (.copy p) s = .next t) :
    t.sources = s.sources ∧ t.sinks = s.sinks := by
  obtain ⟨-, hsources, hsinks, -⟩ := (copyAndBresetFrame s t).1 p h
  exact ⟨hsources, hsinks⟩

/-- Settles O55: each row of R270 by the bits its command moves; what a command leaves untouched is its frame. -/
theorem transactionCounts : Obligations.TransactionCounts := by
  refine ⟨fun s t r hr hok => ⟨fun h hx => ?readbit, fun h hx => ?readbyte, fun nb hnb h hx => ?readbits⟩,
    fun s t => streams_of_rreset,
    fun s t w hw hok hacks => ⟨fun bit hx => ?writebit, fun byt hx => ?writebyte, fun v nb hnb hx => ?writebits,
      fun hx => ?flush⟩,
    fun s t p n r w hp hb => ⟨transactions_of_readfrom hp hb, transactions_of_writeto hp hb⟩,
    fun s t p => streams_of_copy, fun s t w hb hw hok hx => ?breset⟩
  case readbit => exact ⟨supply_of_readbit hr hok h hx, sinks_of_readerCommand rfl hx⟩
  case readbyte => exact ⟨supply_of_readbyte hr hok h hx, sinks_of_readerCommand rfl hx⟩
  case readbits => exact ⟨supply_of_readbits hr hok hnb h hx, sinks_of_readerCommand (readerCommand_readbits nb) hx⟩
  case writebit =>
    exact ⟨delivered_of_writebit hw hok hacks hx, sources_of_writerCommand (writerCommand_writebit bit) hx⟩
  case writebyte =>
    exact ⟨delivered_of_writebyte hw hok hacks hx, sources_of_writerCommand (writerCommand_writebyte byt) hx⟩
  case writebits =>
    exact ⟨delivered_of_writebits hw hok hacks hnb hx, sources_of_writerCommand (writerCommand_writebits v nb) hx⟩
  case flush => exact ⟨delivered_of_flush hw hok hacks hx, sources_of_writerCommand rfl hx⟩
  case breset =>
    obtain ⟨m, hflush, ht⟩ := exec_breset_of_flush hb hw hok hx
    exact ⟨sources_of_breset hx, sinks_of_breset hx, m, hflush,
      delivered_of_flush hw hok (State.acks_of_buffer hb) hflush, ht⟩

end Sys2Proof.Machine
end

section
/-!
PROOFS. Where the four single steps stop: at a count without meaning (V9) and at a port that never answers (U10).
-/

namespace Sys2Proof.Machine

/-! ### The counts without meaning -/

theorem Reader.countLegal_eq_false_iff (r : Reader) : r.countLegal = false ↔ 9 ≤ r.count.toNat := by
  rw [← Bool.not_eq_true, Reader.countLegal_iff]
  omega

theorem Writer.countLegal_eq_false_iff (w : Writer) :
    w.countLegal = false ↔ w.count = 0#4 ∨ 9 ≤ w.count.toNat := by
  have hzero : w.count = 0#4 ↔ w.count.toNat = 0 := BitVec.toNat_inj.symm
  rw [← Bool.not_eq_true, Writer.countLegal_iff, hzero]
  omega

/-! ### A command whose step stops -/

theorem exec_readbit_of_stuck {s : State} {r : Reader} {f : Fault} (hr : s.readerOf s.unit = some r)
    (h : readBit s.unit s = .stuck f) : exec .readbit s = .fault f := by
  rw [exec_readbit hr, h, Act.bind, conclude]

theorem exec_readbyte_of_stuck {s : State} {r : Reader} {f : Fault} (hr : s.readerOf s.unit = some r)
    (h : readByte s.unit s = .stuck f) : exec .readbyte s = .fault f := by
  rw [exec_readbyte hr, h, Act.bind, conclude]

theorem exec_writebit_of_stuck {s : State} {w : Writer} {bit : Bit} {f : Fault} (hw : s.writerOf s.unit = some w)
    (h : writeBit s.unit bit s = .stuck f) : exec (.writebit bit) s = .fault f := by
  rw [exec_writebit hw, h, concludeVoid, Act.bind, conclude]

theorem exec_writebyte_of_stuck {s : State} {w : Writer} {byt : Byte} {f : Fault} (hw : s.writerOf s.unit = some w)
    (h : writeByte s.unit byt s = .stuck f) : exec (.writebyte byt) s = .fault f := by
  rw [exec_writebyte hw, h, concludeVoid, Act.bind, conclude]

/-- Settles O51: each stop is the stopping case of one step, and a command answers the fault of its step. -/
theorem whereSingleStepsStop : Obligations.WhereSingleStepsStop := by
  refine fun s => ⟨fun r hr => ⟨fun h9 => ?_, fun h8 ha => ?_, fun h0 ha => ?_⟩,
    fun w bit byt hw => ⟨fun hbad => ?_, fun h1 h8 ha => ?_, fun h1 ha => ?_⟩⟩
  · have hl := r.countLegal_eq_false_iff.mpr h9
    exact ⟨exec_readbit_of_stuck hr (readBit_reserved hr hl), exec_readbyte_of_stuck hr (readByte_reserved hr hl)⟩
  · exact exec_readbyte_of_stuck hr (readByte_stuck hr (r.countLegal_iff.mpr h8) ha)
  · exact exec_readbit_of_stuck hr (readBit_stuck hr h0 ha)
  · have hl := w.countLegal_eq_false_iff.mpr hbad
    exact ⟨exec_writebit_of_stuck hw (writeBit_reserved hw hl bit),
      exec_writebyte_of_stuck hw (writeByte_reserved hw hl byt)⟩
  · exact exec_writebyte_of_stuck hw (writeByte_stuck hw (w.countLegal_iff.mpr ⟨h1, h8⟩) byt (ha _))
  · exact exec_writebit_of_stuck hw (writeBit_stuck hw h1 bit (ha _))

end Sys2Proof.Machine
end
